-- ==== Sys2Proof/Word.lean ====
section
/-! DEFINITION. The words of the core: bytes, bits, command words, control-register words. -/

namespace Sys2Proof

/-- A byte of a byte string (00_scope.md R10); bit 7 is the most significant bit (20_memory.md R53). -/
abbrev Byte := BitVec 8

/-- One element of a bit vector (00_scope.md R11). -/
abbrev Bit := Bool

/-- A 32-bit command word (30_encoding.md R70). -/
abbrev Word := BitVec 32

/-- The contents of a 16-bit control register (10_state.md R29). -/
abbrev Half := BitVec 16

end Sys2Proof
end

