-- ==== Sys2Proof/Machine/RegisterModel.lean ====
section
/-! DEFINITION. The register model the serializer reads (10_state.md R21–R26) and the register source tree that
CFG_LOAD takes (40_register_model.md R103): types only. -/

namespace Sys2Proof.Machine

/-- 10_state.md R22. The position index is the field's index in its group. `value` may be 2^width or more. -/
structure RegisterField where
  name : String
  width : Nat
  value : Nat
deriving DecidableEq, Repr, Inhabited

/-- 10_state.md R23: an ordered list of fields. -/
structure RegisterGroup where
  name : String
  fields : List RegisterField
deriving DecidableEq, Repr, Inhabited

/-- 10_state.md R24: one chip's groups, geometry and version. Its daisy-chain index is its position (R25). -/
structure ChipConfig where
  version : Nat
  rows : Nat
  cols : Nat
  groups : List RegisterGroup
deriving DecidableEq, Repr, Inhabited

/-- 10_state.md R25: element `c` is chip index `c`. -/
abbrev Chain := List ChipConfig

/-- One leaf of the register source tree, `(field_name, bit_width, value)` (40_register_model.md R103). -/
structure TreeField where
  name : String
  bitWidth : Nat
  value : Nat
deriving DecidableEq, Repr, Inhabited

/-- A named group of the tree, its fields in declared order (40_register_model.md R103). -/
structure TreeGroup where
  name : String
  fields : List TreeField
deriving DecidableEq, Repr, Inhabited

/-- One chip of the tree (40_register_model.md R103). -/
structure TreeChip where
  version : Nat
  rows : Nat
  cols : Nat
  groups : List TreeGroup
deriving DecidableEq, Repr, Inhabited

/-- The register source tree: the list index is the daisy-chain index (40_register_model.md R103). -/
abbrev RegisterTree := List TreeChip

/-- The triple `(c, g, f)` that addresses a field (20_memory.md R51) or locates an error (60_exceptions.md R286). -/
structure FieldAddr where
  chip : Nat
  grp : Nat
  fld : Nat
deriving DecidableEq, Repr, Inhabited

end Sys2Proof.Machine
end

