-- ==== Sys2Proof/Config.lean ====
section
/-! DEFINITION. The parameters of 00_scope.md R8: what an implementation fixes. The OPEN ones are constants with no
body, so that no proof can see a value; the free draws of the transport (60_exceptions.md R297) are beside them.
The parameter set the machine runs with is `Machine.params` (Machine/Params.lean). -/

namespace Sys2Proof

/-- OPEN (D29): what a host capture time is. `Time` is the placeholder TIME0 and one value for each natural this
constant accepts, so that Time may be any type of plain data with a distinguished value (log entry 8). -/
opaque Config.isTime : Nat → Bool

/-- The OPEN type `Time` of 00_scope.md R8 with its distinguished TIME0. The core only copies a Time (44_decoder.md
R245): no rule orders, adds or converts one, and which values there are besides TIME0 is not known (log entry 8). -/
inductive Time where
  | time0
  | captured (c : Subtype fun n : Nat => Config.isTime n = true)
deriving DecidableEq, Repr, Inhabited

/-- A bit range `hi:lo` (00_scope.md R10). -/
structure BitRange where
  hi : Nat
  lo : Nat
deriving DecidableEq, Repr, Inhabited

/-- The configuration table LAYOUT_B (44_decoder.md R248): each timestamp field's range in the 46-bit field X. -/
structure LayoutB where
  tsneg1 : BitRange
  ts1 : BitRange
  tsfine1 : BitRange
  tstdc1 : BitRange
  tsneg2 : BitRange
  ts2 : BitRange
  tsfine2 : BitRange
  tstdc2 : BitRange
deriving DecidableEq, Repr, Inhabited

/-- MASK_LAYOUT, the bit offsets inside a PixelMaskWord (10_state.md R26). -/
structure MaskLayout where
  compEn : Nat → Nat
  injRow : Nat
  injCol : Nat
  amuxEn : Nat
deriving Inhabited

/-- The parameter table of 00_scope.md R8. -/
structure Params where
  groupOrder : List String
  reversedGroups : List String
  pinSin : Byte
  pinCk1 : Byte
  pinCk2 : Byte
  pinLd : Byte
  pinRb : Byte
  idleHoldsSin : Bool
  nLoad : Nat
  maxFrameLen : Nat
  rbPreamble : List Byte
  markers : List Byte
  startMarker : Byte
  totDiv : Nat
  totWrap : Nat
  maxChips : Nat
  frameLengths : List Nat
  cfgExtraCheck : Machine.Chain → Bool
  maskLayout : MaskLayout
  rowTrimOk : Machine.ChipConfig → Bool
  layoutB : LayoutB
  time0 : Time

/-- A byte with exactly one bit set, on bus line `k`. -/
def lineMask (k : Fin 8) : Byte := 1#8 <<< k.val

/-- The legality constraints of 00_scope.md R8 on a parameter set: the pins are five distinct single-bit masks,
the start marker is no marker, the reversed groups are groups, the group names are distinct, and the ranges of
the `type` column hold. -/
structure Params.Legal (P : Params) : Prop where
  oneBit : ∀ p ∈ [P.pinSin, P.pinCk1, P.pinCk2, P.pinLd, P.pinRb], ∃ k, p = lineMask k
  pinsDistinct : [P.pinSin, P.pinCk1, P.pinCk2, P.pinLd, P.pinRb].Nodup
  startNotMarker : P.startMarker ∉ P.markers
  reversedInOrder : ∀ g ∈ P.reversedGroups, g ∈ P.groupOrder
  orderNodup : P.groupOrder.Nodup
  orderLength : 1 ≤ P.groupOrder.length ∧ P.groupOrder.length ≤ 8
  nLoadPos : 1 ≤ P.nLoad
  totDivPos : 1 ≤ P.totDiv

namespace Config

/-- OPEN (D16): the bus line of each signal. SIN, CK1, CK2, LD and RB are on lines 0 to 4 of this permutation, so
every legal choice of five distinct single-bit masks is some value of it and no illegal one is (log entry 7). -/
opaque busLine : Equiv.Perm (Fin 8)

/-- OPEN (D17): RB_PREAMBLE. -/
opaque rbPreamble : List Byte

/-- OPEN (D24): the marker bytes, before START_MARKER is taken out of them (log entry 7). -/
opaque markerBytes : List Byte

/-- OPEN (D24): START_MARKER. -/
opaque startMarker : Byte

/-- OPEN (D36): CFG_EXTRA_CHECK on the chain that 40_register_model.md R104 item 5 is about to load (log entry 9). -/
opaque cfgExtraCheck : Machine.Chain → Bool

/-- OPEN (D37): MASK_LAYOUT. -/
opaque maskLayout : MaskLayout

/-- OPEN (D13): ROW_TRIM_OK. -/
opaque rowTrimOk : Machine.ChipConfig → Bool

/-- OPEN (D29): how a capture time other than TIME0 is written down (30_encoding.md R89, log entry 19). -/
opaque printCaptured : Subtype (fun n : Nat => isTime n = true) → String

/-- A free draw (60_exceptions.md R297): the `n`-th unscheduled answer of `TxWrite`, true for ok (log entry 4). -/
opaque freeWriteOk : Nat → Bool

/-- A free draw (60_exceptions.md R297): the `n`-th unscheduled answer of `TxRead`, none for fail (log entry 4). -/
opaque freeRead : Nat → Option (List Byte)

end Config

end Sys2Proof
end

