-- ==== Sys2Proof/Syntax.lean ====
section
/-! DEFINITION. The 23 commands of spec/opcode_table.json with the fields of their command words
(30_encoding.md R71, R82, R91), the data operand DIN (R76) and a command as the host issues it (R70). -/

namespace Sys2Proof

/-- One constructor per row of the opcode table; its arguments are the field bits of 30_encoding.md R91, each at
its width. The data operand is not part of the word (R70): it travels beside it, see `Command`. -/
inductive Instr where
  | nop
  | reset
  | cfgLoad
  | fieldWr (chip : BitVec 5) (grp : BitVec 3) (fld : BitVec 16)
  | fieldRd (chip : BitVec 5) (grp : BitVec 3) (fld : BitVec 16)
  | cregWr (crn : BitVec 8) (imm : BitVec 16)
  | cregRd (crn : BitVec 8)
  | buildVec
  | buildRow (chip : BitVec 5) (grp : BitVec 3)
  | bitrev (width : BitVec 8)
  | grayDec
  | srPattern (src load : Bool)
  | srRbPattern (src : Bool)
  | addrFrame (fopc faddr : BitVec 8)
  | srWrite (src load : Bool)
  | srRbWrite (src : Bool)
  | hdrInit
  | prefilter
  | scan
  | decodeA
  | decodeB
  | acquire
  | acquireRx (nread : BitVec 16)
deriving DecidableEq, Repr, Inhabited

/-- The kinds of data operand and what each carries (30_encoding.md R76): NONE, VAL, BITS, BYTES, TREE, META (`stamp`)
and BYTES_META (`bytesStamp`). -/
inductive Din where
  | none
  | val (v : Nat)
  | bits (s : List Bit)
  | bytes (s : List Byte)
  | tree (t : Machine.RegisterTree)
  | stamp (seq : Nat) (t : Time)
  | bytesStamp (s : List Byte) (seq : Nat) (t : Time)
deriving DecidableEq, Repr, Inhabited

/-- A command is a pair of a 32-bit word and a data operand (30_encoding.md R70). -/
structure Command where
  word : Word
  din : Din
deriving DecidableEq, Repr, Inhabited

end Sys2Proof
end

