-- ==== Sys2Proof/WellFormed.lean ====
section
/-! DEFINITION. Which instructions are legal as words: the field types of `Instr` bound every field of R71 but one,
the width of BITREV (30_encoding.md R79). -/

namespace Sys2Proof

/-- 30_encoding.md R79: BITREV's width is in 1..64. Every other field may hold every value of its bits. -/
def Instr.WellFormed : Instr → Bool
  | .bitrev w => decide (1 ≤ w.toNat ∧ w.toNat ≤ 64)
  | .nop | .reset | .cfgLoad | .fieldWr .. | .fieldRd .. | .cregWr .. | .cregRd .. | .buildVec | .buildRow ..
  | .grayDec | .srPattern .. | .srRbPattern .. | .addrFrame .. | .srWrite .. | .srRbWrite .. | .hdrInit
  | .prefilter | .scan | .decodeA | .decodeB | .acquire | .acquireRx .. => true

end Sys2Proof
end

