-- ==== Sys2Proof/Decode.lean ====
section
/-! DEFINITION. The decoder of command words (30_encoding.md R70 to R88, R91), total on every 32-bit word and rejecting
by name, and the encoder written from the same formats. The checks on the data operand and on BITREV's width, which
R87 makes after these, are `Machine.needNone` and its neighbours in Machine/Operands.lean. -/

namespace Sys2Proof

/-- Why a word is no command: the first two raises of 30_encoding.md R87. -/
inductive DecodeError where
  /-- The opcode is not in the map of R82 (R83). -/
  | reservedOpcode (opc : BitVec 8)
  /-- A bit the format reserves is 1 (R84). -/
  | reservedBits (w : Word)
deriving DecidableEq, Repr

/-- A row of the opcode map: the opcode of R82, the bits of `W[23:0]` its format reserves (R71; the mask of R91
without the opcode byte), and the instruction its fields give. -/
structure DecodeRow where
  opc : BitVec 8
  reserved : Word
  build : Word → Instr

/-- CHIP, `W[23:19]` (30_encoding.md R73, R74). -/
def chipField (w : Word) : BitVec 5 := w.extractLsb' 19 5

/-- GRP, `W[18:16]` (30_encoding.md R73, R74). -/
def grpField (w : Word) : BitVec 3 := w.extractLsb' 16 3

/-- FLD, IMM16 and NREAD, `W[15:0]` (30_encoding.md R73, R75, R80). -/
def lowField (w : Word) : BitVec 16 := w.extractLsb' 0 16

/-- CRN and FOPC, `W[23:16]` (30_encoding.md R75, R78). -/
def crnField (w : Word) : BitVec 8 := w.extractLsb' 16 8

/-- FADDR, `W[15:8]` (30_encoding.md R78). -/
def faddrField (w : Word) : BitVec 8 := w.extractLsb' 8 8

/-- W of format U, `W[7:0]` (30_encoding.md R79). -/
def widthField (w : Word) : BitVec 8 := w.extractLsb' 0 8

/-- SRC, `W[17]` (30_encoding.md R77). -/
def srcField (w : Word) : Bool := w.getLsbD 17

/-- LOAD, `W[16]` (30_encoding.md R77). -/
def loadField (w : Word) : Bool := w.getLsbD 16

/-- Opcodes 0x00 to 0x0F: sequencer and register model (30_encoding.md R82, R91). -/
def sequencerRows : List DecodeRow :=
  [ ⟨0x00#8, 0x00FFFFFF#32, fun _ => .nop⟩,
    ⟨0x01#8, 0x00FFFFFF#32, fun _ => .reset⟩,
    ⟨0x02#8, 0x00FFFFFF#32, fun _ => .cfgLoad⟩,
    ⟨0x03#8, 0x00000000#32, fun w => .fieldWr (chipField w) (grpField w) (lowField w)⟩,
    ⟨0x04#8, 0x00000000#32, fun w => .fieldRd (chipField w) (grpField w) (lowField w)⟩,
    ⟨0x05#8, 0x00000000#32, fun w => .cregWr (crnField w) (lowField w)⟩,
    ⟨0x06#8, 0x0000FFFF#32, fun w => .cregRd (crnField w)⟩ ]

/-- Opcodes 0x10 to 0x1F: serializer and bit utilities (30_encoding.md R82, R91). -/
def serializerRows : List DecodeRow :=
  [ ⟨0x10#8, 0x00FFFFFF#32, fun _ => .buildVec⟩,
    ⟨0x11#8, 0x0000FFFF#32, fun w => .buildRow (chipField w) (grpField w)⟩,
    ⟨0x12#8, 0x00FFFF00#32, fun w => .bitrev (widthField w)⟩,
    ⟨0x13#8, 0x00FFFFFF#32, fun _ => .grayDec⟩ ]

/-- Opcodes 0x20 to 0x2F: framing engine (30_encoding.md R82, R91). -/
def framingRows : List DecodeRow :=
  [ ⟨0x20#8, 0x00FCFFFF#32, fun w => .srPattern (srcField w) (loadField w)⟩,
    ⟨0x21#8, 0x00FDFFFF#32, fun w => .srRbPattern (srcField w)⟩,
    ⟨0x22#8, 0x000000FF#32, fun w => .addrFrame (crnField w) (faddrField w)⟩,
    ⟨0x23#8, 0x00FCFFFF#32, fun w => .srWrite (srcField w) (loadField w)⟩,
    ⟨0x24#8, 0x00FDFFFF#32, fun w => .srRbWrite (srcField w)⟩ ]

/-- Opcodes 0x30 to 0x3F: locator and decoder (30_encoding.md R82, R91). -/
def readoutRows : List DecodeRow :=
  [ ⟨0x30#8, 0x00FFFFFF#32, fun _ => .hdrInit⟩,
    ⟨0x31#8, 0x00FFFFFF#32, fun _ => .prefilter⟩,
    ⟨0x32#8, 0x00FFFFFF#32, fun _ => .scan⟩,
    ⟨0x33#8, 0x00FFFFFF#32, fun _ => .decodeA⟩,
    ⟨0x34#8, 0x00FFFFFF#32, fun _ => .decodeB⟩,
    ⟨0x35#8, 0x00FFFFFF#32, fun _ => .acquire⟩,
    ⟨0x36#8, 0x00FF0000#32, fun w => .acquireRx (lowField w)⟩ ]

/-- The opcode map of 30_encoding.md R82. -/
def decodeRows : List DecodeRow := sequencerRows ++ serializerRows ++ framingRows ++ readoutRows

/-- OPC, `W[31:24]` (30_encoding.md R70). -/
def opcode (w : Word) : BitVec 8 := w.extractLsb' 24 8

/-- The first two checks of 30_encoding.md R87, in its order, then the fields. -/
def decode (w : Word) : Except DecodeError Instr :=
  match decodeRows.find? (fun r => r.opc == opcode w) with
  | none => .error (.reservedOpcode (opcode w))
  | some r => if w &&& r.reserved = 0#32 then .ok (r.build w) else .error (.reservedBits w)

/-- A field of a command word at its lowest bit. -/
def place {n : Nat} (v : BitVec n) (lo : Nat) : Word := v.setWidth 32 <<< lo

/-- The command word of an instruction: `match(X)` of its format with each field at its place (30_encoding.md R71, and
"Encoding" of each command's rule). -/
def encode : Instr → Word
  | .nop => 0x00000000#32
  | .reset => 0x01000000#32
  | .cfgLoad => 0x02000000#32
  | .fieldWr c g f => 0x03000000#32 ||| place c 19 ||| place g 16 ||| place f 0
  | .fieldRd c g f => 0x04000000#32 ||| place c 19 ||| place g 16 ||| place f 0
  | .cregWr crn imm => 0x05000000#32 ||| place crn 16 ||| place imm 0
  | .cregRd crn => 0x06000000#32 ||| place crn 16
  | .buildVec => 0x10000000#32
  | .buildRow c g => 0x11000000#32 ||| place c 19 ||| place g 16
  | .bitrev w => 0x12000000#32 ||| place w 0
  | .grayDec => 0x13000000#32
  | .srPattern src load => 0x20000000#32 ||| place (BitVec.ofBool src) 17 ||| place (BitVec.ofBool load) 16
  | .srRbPattern src => 0x21000000#32 ||| place (BitVec.ofBool src) 17
  | .addrFrame fopc faddr => 0x22000000#32 ||| place fopc 16 ||| place faddr 8
  | .srWrite src load => 0x23000000#32 ||| place (BitVec.ofBool src) 17 ||| place (BitVec.ofBool load) 16
  | .srRbWrite src => 0x24000000#32 ||| place (BitVec.ofBool src) 17
  | .hdrInit => 0x30000000#32
  | .prefilter => 0x31000000#32
  | .scan => 0x32000000#32
  | .decodeA => 0x33000000#32
  | .decodeB => 0x34000000#32
  | .acquire => 0x35000000#32
  | .acquireRx n => 0x36000000#32 ||| place n 0

/-- `match(X)` and `mask(X)` of the row of 30_encoding.md R91 an instruction belongs to. -/
def matchMask : Instr → Word × Word
  | .nop => (0x00000000#32, 0xFFFFFFFF#32)
  | .reset => (0x01000000#32, 0xFFFFFFFF#32)
  | .cfgLoad => (0x02000000#32, 0xFFFFFFFF#32)
  | .fieldWr .. => (0x03000000#32, 0xFF000000#32)
  | .fieldRd .. => (0x04000000#32, 0xFF000000#32)
  | .cregWr .. => (0x05000000#32, 0xFF000000#32)
  | .cregRd _ => (0x06000000#32, 0xFF00FFFF#32)
  | .buildVec => (0x10000000#32, 0xFFFFFFFF#32)
  | .buildRow .. => (0x11000000#32, 0xFF00FFFF#32)
  | .bitrev _ => (0x12000000#32, 0xFFFFFF00#32)
  | .grayDec => (0x13000000#32, 0xFFFFFFFF#32)
  | .srPattern .. => (0x20000000#32, 0xFFFCFFFF#32)
  | .srRbPattern _ => (0x21000000#32, 0xFFFDFFFF#32)
  | .addrFrame .. => (0x22000000#32, 0xFF0000FF#32)
  | .srWrite .. => (0x23000000#32, 0xFFFCFFFF#32)
  | .srRbWrite _ => (0x24000000#32, 0xFFFDFFFF#32)
  | .hdrInit => (0x30000000#32, 0xFFFFFFFF#32)
  | .prefilter => (0x31000000#32, 0xFFFFFFFF#32)
  | .scan => (0x32000000#32, 0xFFFFFFFF#32)
  | .decodeA => (0x33000000#32, 0xFFFFFFFF#32)
  | .decodeB => (0x34000000#32, 0xFFFFFFFF#32)
  | .acquire => (0x35000000#32, 0xFFFFFFFF#32)
  | .acquireRx _ => (0x36000000#32, 0xFFFF0000#32)

/-- The instruction this decoder reads from an opcode-table word. Every command word has 32 bits (30_encoding.md
R88), one word, so `nbits` is 32 and there is nothing above it. -/
def decodeTableWord (nbits w : Nat) : Option Instr := (decode (BitVec.ofNat 32 (w % 2 ^ nbits))).toOption

end Sys2Proof
end

