-- ==== Sys2Proof/Machine/Bits.lean ====
section
/-! DEFINITION. The bit and sequence primitives of 00_scope.md R10 to R12, and the shared bit utilities of
41_serializer.md section 3. -/

namespace Sys2Proof.Machine

/-- `v[hi:lo] = (v >> lo) mod 2^(hi−lo+1)` (00_scope.md R10). -/
def bitField (v hi lo : Nat) : Nat := (v >>> lo) % 2 ^ (hi - lo + 1)

/-- Bit `i` of `v` as a Boolean (00_scope.md R10). -/
def bitAt (v i : Nat) : Bit := v.testBit i

/-- `slice(v, w)`: the `w` low bits, most significant first (00_scope.md R12). -/
def slice (v w : Nat) : List Bit := (List.range w).map fun i => bitAt v (w - 1 - i)

/-- The value of a bit list read most significant first, the inverse of `slice` (41_serializer.md R138). -/
def unslice (s : List Bit) : Nat := s.foldl (fun acc b => 2 * acc + b.toNat) 0

/-- `rep(s, k)`: each element repeated `k` times in place (00_scope.md R11). -/
def rep {α : Type} (s : List α) (k : Nat) : List α := s.flatMap fun x => List.replicate k x

/-- `bitrev(v, w)`: the sum of `v[i] << (w−1−i)` for `i < w` (00_scope.md R12). -/
def bitrev (v w : Nat) : Nat := ((List.range w).map fun i => (bitAt v i).toNat <<< (w - 1 - i)).sum

/-- `bitrev8(x)`: whole-byte bit reversal (00_scope.md R12). -/
def bitrev8 (x : Byte) : Byte := BitVec.ofNat 8 (bitrev x.toNat 8)

/-- The loop of 41_serializer.md R142 with `fuel` iterations at most: `while m ≠ 0: r <- r ^ m; m <- m >> 1`. -/
def grayLoop : Nat → Nat → Nat → Nat
  | 0, r, _ => r
  | fuel + 1, r, m => if m = 0 then r else grayLoop fuel (r ^^^ m) (m >>> 1)

/-- `gray_dec(g)` (41_serializer.md R142). The shift reaches zero within the bit length of `g`. -/
def grayDec (g : Nat) : Nat := grayLoop (g.log2 + 1) g (g >>> 1)

/-- The Gray encoder on the chip (41_serializer.md R144), which the core does not contain: it is here to state R144.
PRESUMED by the spec itself ("from general knowledge"), log entry 18. -/
def grayEnc (x : Nat) : Nat := x ^^^ (x >>> 1)

end Sys2Proof.Machine
end

