-- ==== Sys2Proof/Machine/State.lean ====
section
/-! DEFINITION. The state of the core (10_state.md R20), the records it responds with, the reasons a step can stop,
and the state at power-on (70_reset_and_hazards.md R311). Plain data throughout. -/

namespace Sys2Proof.Machine

/-- The error causes of 60_exceptions.md R281. Codes 7 to 255 are never produced, so they have no constructor. -/
inductive Cause where
  | none
  | configError
  | configNotInitialized
  | outOfRange
  | transportError
  | decodeFault
  | illegalCommand
deriving DecidableEq, Repr, Inhabited

/-- The RW control registers (10_state.md R29). -/
inductive RwReg where
  | ctrl
  | clkdiv
  | chipCount
  | frameLen
  | samplePeriod
  | frameOpc
  | srAddr
deriving DecidableEq, Repr, Inhabited

/-- The RO control registers (10_state.md R29). -/
inductive RoReg where
  | status
  | errlocCg
  | errlocF
  | faultCnt
deriving DecidableEq, Repr, Inhabited

/-- An assigned control register (10_state.md R29). -/
inductive Creg where
  | rw (r : RwReg)
  | ro (r : RoReg)
deriving DecidableEq, Repr, Inhabited

/-- An error on its way out of a command: `raise E(info)` of 00_scope.md R13, with the field triple where
60_exceptions.md R286 records one. -/
structure Raise where
  cause : Cause
  loc : Option FieldAddr
deriving DecidableEq, Repr, Inhabited

/-- The Layout A record, fields in export order (44_decoder.md R243). -/
structure RecordA where
  readout : Nat
  id : Nat
  payload : Nat
  location : Nat
  isColumn : Bool
  timestamp : Nat
  totMsb : Nat
  totLsb : Nat
  totTotal : Nat
  totUs : Rat
  hittime : Time
deriving DecidableEq, Repr

/-- The Layout B record, fields in export order (44_decoder.md R251). -/
structure RecordB where
  id : Nat
  payload : Nat
  row : Nat
  col : Nat
  ts1 : Nat
  tsfine1 : Nat
  ts2 : Nat
  tsfine2 : Nat
  tsneg1 : Bool
  tsneg2 : Bool
  tstdc1 : Nat
  tstdc2 : Nat
  tsDec1 : Nat
  tsDec2 : Nat
  totUs : Rat
deriving DecidableEq, Repr

/-- A decoded hit of either layout (44_decoder.md R254). -/
inductive HitRecord where
  | layoutA (r : RecordA)
  | layoutB (r : RecordB)
deriving DecidableEq, Repr

/-- What `respond(v)` gives back to the host (00_scope.md R13, 40_register_model.md R100): nothing, a natural, a bit
vector, a byte string, a list of frames, SKIP (44_decoder.md R257), one record, or a list of records. -/
inductive Response where
  | nothing
  | value (v : Nat)
  | bits (s : List Bit)
  | bytes (s : List Byte)
  | frames (fs : List (List Byte))
  | skip
  | record (r : HitRecord)
  | records (rs : List HitRecord)
deriving DecidableEq, Repr, Inhabited

/-- A scheduled answer of `TxWrite` (60_exceptions.md R297): ok, fail, or a call that never returns
(70_reset_and_hazards.md R325). -/
inductive WriteAnswer where
  | ok
  | fail
  | never
deriving DecidableEq, Repr, Inhabited

/-- A scheduled answer of `TxRead(n)` (60_exceptions.md R297): the newly available bytes, of which the call returns
at most `n`, or fail, or a call that never returns (70_reset_and_hazards.md R325). -/
inductive ReadAnswer where
  | bytes (s : List Byte)
  | fail
  | never
deriving DecidableEq, Repr, Inhabited

/-- Why the machine stops. An error of 60_exceptions.md R281 is no stop: it is a next state. -/
inductive Fault where
  /-- A transport call never returns, so the command never completes (60_exceptions.md R297, 70_reset_and_hazards.md
  R325; "stuck" in 93_implementation_defined.md section 3). Raised by SR_WRITE, SR_RB_WRITE and ACQUIRE_RX when the
  transport's scheduled answer is `never`. Safe: the spec gives no next state. -/
  | transportNeverReturns
deriving DecidableEq, Repr

/-- Why the model gives an instruction no meaning. -/
inductive Refusal where
  /-- Raised by a rejected arm of `exec` only, and no arm is rejected. Safe. -/
  | notModelled (mnemonic : String)
deriving DecidableEq, Repr

/-- The state of the core: first the record of 10_state.md R20, with CREG as its eleven named registers (R29; STATUS
keeps only its CAUSE field, the validity bits being views, R37), then what the command in hand needs as data: DIN
(00_scope.md R13), the last response, the commands issued and not yet run (20_memory.md R63) and the transport's
answers (60_exceptions.md R297). `none` in a RW register is the spec's own state "unwritten" (R41). -/
structure State where
  cfg : Option Chain
  ctrl : Half
  clkdiv : Option Half
  chipCount : Option Half
  frameLen : Option Half
  samplePeriod : Option Half
  frameOpc : Option Half
  srAddr : Option Half
  cause : Cause
  errlocCg : Half
  errlocF : Half
  faultCnt : Half
  hdrset : Option (List Byte)
  vec : Option (List Bit)
  txlog : List (List Byte)
  din : Din
  resp : Response
  host : List Command
  writeAnswers : List WriteAnswer
  readAnswers : List ReadAnswer
  draws : Nat
deriving DecidableEq, Repr

/-- Power-on (70_reset_and_hazards.md R310, R311). The last six fields are the model's own (log entries 1 to 4). -/
def State.reset : State where
  cfg := .none
  ctrl := 0x0000#16
  clkdiv := .none
  chipCount := .none
  frameLen := .none
  samplePeriod := .none
  frameOpc := .none
  srAddr := .none
  cause := .none
  errlocCg := 0x0000#16
  errlocF := 0x0000#16
  faultCnt := 0x0000#16
  hdrset := .none
  vec := .none
  txlog := []
  din := .none
  resp := .nothing
  host := []
  writeAnswers := []
  readAnswers := []
  draws := 0

end Sys2Proof.Machine
end

