-- ==== Sys2Proof/Machine/Flags.lean ====
section
/-! DEFINITION. The flags of the core: CTRL's fields, STATUS with its cause code and validity views, the error-location
registers' layout and FAULTCNT's saturation (10_state.md R30, R37 to R40; 60_exceptions.md R281). -/

namespace Sys2Proof.Machine

/-- The numeric cause codes of 60_exceptions.md R281. -/
def Cause.code : Cause → BitVec 8
  | .none => 0x00#8
  | .configError => 0x01#8
  | .configNotInitialized => 0x02#8
  | .outOfRange => 0x03#8
  | .transportError => 0x04#8
  | .decodeFault => 0x05#8
  | .illegalCommand => 0x06#8

/-- CTRL.MSBFIRST, bit 0 (10_state.md R30). -/
def State.msbFirst (s : State) : Bool := s.ctrl.getLsbD 0

/-- CTRL.WIRE_REV, bit 1 (10_state.md R30). -/
def State.wireRev (s : State) : Bool := s.ctrl.getLsbD 1

/-- CTRL.PREFILTER_EN, bit 2 (10_state.md R30). -/
def State.prefilterEn (s : State) : Bool := s.ctrl.getLsbD 2

/-- STATUS: CAUSE in 7:0, CFG_VALID 8, VEC_VALID 9, HDR_VALID 10, bits 15:11 zero (10_state.md R37). -/
def State.status (s : State) : Half :=
  s.cause.code.setWidth 16 ||| (BitVec.ofBool s.cfg.isSome).setWidth 16 <<< 8 |||
    (BitVec.ofBool s.vec.isSome).setWidth 16 <<< 9 ||| (BitVec.ofBool s.hdrset.isSome).setWidth 16 <<< 10

/-- ERRLOC_CG's contents for a triple: bits 15:8 zero, 7:3 the chip, 2:0 the group (10_state.md R38). -/
def errlocCgOf (a : FieldAddr) : Half :=
  (BitVec.ofNat 5 a.chip).setWidth 16 <<< 3 ||| (BitVec.ofNat 3 a.grp).setWidth 16

/-- ERRLOC_F's contents for a triple (10_state.md R39). -/
def errlocFOf (a : FieldAddr) : Half := BitVec.ofNat 16 a.fld

/-- `min(FAULTCNT + 1, 0xFFFF)` (43_locator.md R208). -/
def faultCntSucc (n : Half) : Half := if n = 0xFFFF#16 then n else n + 1#16

end Sys2Proof.Machine
end

