-- ==== Sys2Proof/Machine/Params.lean ====
section
/-! DEFINITION. The parameter set the machine runs with: the source and decided values of 00_scope.md R8, and the
OPEN parameters from Config. -/

namespace Sys2Proof.Machine

/-- The eight rows of 44_decoder.md R248. -/
def layoutB : LayoutB where
  tsneg1 := ⟨45, 45⟩
  ts1 := ⟨44, 31⟩
  tsfine1 := ⟨30, 28⟩
  tstdc1 := ⟨27, 23⟩
  tsneg2 := ⟨22, 22⟩
  ts2 := ⟨21, 8⟩
  tsfine2 := ⟨7, 5⟩
  tstdc2 := ⟨4, 0⟩

/-- 00_scope.md R8. MARKERS leaves START_MARKER out, so that every value of the OPEN constants is a legal set. -/
def params : Params where
  groupOrder := ["digital", "bias", "idac", "vdac", "recconfig"]
  reversedGroups := ["vdac"]
  pinSin := lineMask (Config.busLine 0)
  pinCk1 := lineMask (Config.busLine 1)
  pinCk2 := lineMask (Config.busLine 2)
  pinLd := lineMask (Config.busLine 3)
  pinRb := lineMask (Config.busLine 4)
  idleHoldsSin := true
  nLoad := 10
  maxFrameLen := 65535
  rbPreamble := Config.rbPreamble
  markers := Config.markerBytes.filter (· ≠ Config.startMarker)
  startMarker := Config.startMarker
  totDiv := 20
  totWrap := 131072
  maxChips := 32
  frameLengths := [5, 8]
  cfgExtraCheck := Config.cfgExtraCheck
  maskLayout := Config.maskLayout
  rowTrimOk := Config.rowTrimOk
  layoutB := layoutB
  time0 := .time0

end Sys2Proof.Machine
end

