-- ==== Sys2Proof/Machine/Ops.lean ====
section
/-! DEFINITION. The named operations the meanings share: ending a command with a response or with an error, the control
registers, the transport's calls, and taking the next command from the host. -/

namespace Sys2Proof.Machine

/-! ## Ending a command -/

/-- A command's pseudocode up to its end: a result, or a `raise` (00_scope.md R13). -/
abbrev Attempt (α : Type) := Except Raise α

/-- `raise E` with no error location. -/
def raise {α : Type} (c : Cause) : Attempt α := .error ⟨c, none⟩

/-- `ERRLOC <- (c, g, f) ; raise E` (60_exceptions.md R286). -/
def raiseAt {α : Type} (c : Cause) (a : FieldAddr) : Attempt α := .error ⟨c, some a⟩

/-- The value of state that must be set up before use; ConfigNotInitialized where it is not (10_state.md R41,
60_exceptions.md R281). -/
def need {α : Type} (o : Option α) : Attempt α :=
  match o with
  | some a => .ok a
  | none => raise .configNotInitialized

/-- The end of a command that completed: STATUS.CAUSE is 0 and the host gets the response (60_exceptions.md R285,
40_register_model.md R100). -/
def State.complete (s : State) (v : Response) : State := { s with cause := .none, resp := v }

/-- TAKING AN ERROR, for every command (60_exceptions.md R284 to R286, 43_locator.md R208). Applied to the state before
the command, with the transport effects that cannot be undone: STATUS.CAUSE is the cause; ERRLOC_CG and ERRLOC_F
are written if the error locates a field; FAULTCNT counts a DecodeFault; the host gets no response. Nothing is
saved, no mode changes and there is no handler and no return (R290). -/
def State.takeError (s : State) (e : Raise) : State :=
  { s with
    cause := e.cause
    resp := .nothing
    errlocCg := match e.loc with
      | some a => errlocCgOf a
      | none => s.errlocCg
    errlocF := match e.loc with
      | some a => errlocFOf a
      | none => s.errlocF
    faultCnt := if e.cause = .decodeFault then faultCntSucc s.faultCnt else s.faultCnt }

/-- How every command ends (60_exceptions.md R284, R285): completed, with the state its pseudocode left and its
response; or raised, from the state `s` that an error goes back to. -/
def finish (s : State) (a : Attempt (State × Response)) : Host.Outcome State Fault Refusal :=
  match a with
  | .ok (t, v) => .next (t.complete v)
  | .error e => .next (s.takeError e)

/-! ## Control registers -/

/-- The register numbers of 10_state.md R29. -/
def Creg.ofNumber (n : BitVec 8) : Option Creg :=
  match n.toNat with
  | 0x00 => some (.rw .ctrl)
  | 0x01 => some (.rw .clkdiv)
  | 0x02 => some (.rw .chipCount)
  | 0x03 => some (.rw .frameLen)
  | 0x04 => some (.rw .samplePeriod)
  | 0x05 => some (.rw .frameOpc)
  | 0x06 => some (.rw .srAddr)
  | 0x10 => some (.ro .status)
  | 0x11 => some (.ro .errlocCg)
  | 0x12 => some (.ro .errlocF)
  | 0x13 => some (.ro .faultCnt)
  | _ => none

/-- `CREG[n]`, none where the register is unwritten (10_state.md R29, R41). -/
def State.readCreg (s : State) : Creg → Option Half
  | .rw .ctrl => some s.ctrl
  | .rw .clkdiv => s.clkdiv
  | .rw .chipCount => s.chipCount
  | .rw .frameLen => s.frameLen
  | .rw .samplePeriod => s.samplePeriod
  | .rw .frameOpc => s.frameOpc
  | .rw .srAddr => s.srAddr
  | .ro .status => some s.status
  | .ro .errlocCg => some s.errlocCg
  | .ro .errlocF => some s.errlocF
  | .ro .faultCnt => some s.faultCnt

/-- `CREG[n] <- v` for a RW register (00_scope.md R13). -/
def State.writeCreg (s : State) (r : RwReg) (v : Half) : State :=
  match r with
  | .ctrl => { s with ctrl := v }
  | .clkdiv => { s with clkdiv := some v }
  | .chipCount => { s with chipCount := some v }
  | .frameLen => { s with frameLen := some v }
  | .samplePeriod => { s with samplePeriod := some v }
  | .frameOpc => { s with frameOpc := some v }
  | .srAddr => { s with srAddr := some v }

/-- `legal(crn, imm)` (40_register_model.md R109). -/
def cregLegal (P : Params) (r : RwReg) (imm : Half) : Bool :=
  match r with
  | .ctrl => true
  | .clkdiv => decide (1 ≤ imm.toNat)
  | .chipCount => decide (1 ≤ imm.toNat ∧ imm.toNat ≤ P.maxChips)
  | .frameLen => decide (imm.toNat ∈ P.frameLengths)
  | .samplePeriod => decide (1 ≤ imm.toNat)
  | .frameOpc => decide (imm.toNat ≤ 0xFF)
  | .srAddr => decide (imm.toNat ≤ 0xFF)

/-- `stored(crn, imm)` (40_register_model.md R109). -/
def cregStored (r : RwReg) (imm : Half) : Half :=
  match r with
  | .ctrl => imm &&& 0x0007#16
  | .clkdiv | .chipCount | .frameLen | .samplePeriod | .frameOpc | .srAddr => imm

/-- `invalidate(crn)` (40_register_model.md R110). -/
def State.invalidate (s : State) (r : RwReg) : State :=
  match r with
  | .ctrl => { s with vec := none, hdrset := none }
  | .chipCount | .frameLen => { s with hdrset := none }
  | .clkdiv | .samplePeriod | .frameOpc | .srAddr => s

/-! ## The transport (60_exceptions.md R297) -/

/-- The answer of the next `TxWrite`, and the state with that answer used up: the first scheduled answer, or a free
draw of ok or fail where none is scheduled (log entry 4). -/
def State.drawWrite (s : State) : WriteAnswer × State :=
  match s.writeAnswers with
  | a :: rest => (a, { s with writeAnswers := rest })
  | [] => (if Config.freeWriteOk s.draws then .ok else .fail, { s with draws := s.draws + 1 })

/-- The answer of the next `TxRead(n)`, and the state with that answer used up: at most `n` bytes of the first
scheduled answer, or of a free draw where none is scheduled (log entries 4 and 6). -/
def State.drawRead (s : State) (n : Nat) : ReadAnswer × State :=
  match s.readAnswers with
  | .bytes x :: rest => (.bytes (x.take n), { s with readAnswers := rest })
  | .fail :: rest => (.fail, { s with readAnswers := rest })
  | .never :: rest => (.never, { s with readAnswers := rest })
  | [] =>
    match Config.freeRead s.draws with
    | some x => (.bytes (x.take n), { s with draws := s.draws + 1 })
    | none => (.fail, { s with draws := s.draws + 1 })

/-- How a run of `TxWrite` calls ends. -/
inductive Sent where
  | all (s : State)
  | failed (s : State)
  | never

/-- The calls `TxWrite(f)` for each frame in order: an `ok` appends the frame to TXLOG, a `fail` ends the run and no
frame is retried (42_framing.md R176, R178). -/
def sendFrames : List (List Byte) → State → Sent
  | [], s => .all s
  | f :: fs, s =>
    match s.drawWrite with
    | (.ok, t) => sendFrames fs { t with txlog := t.txlog ++ [f] }
    | (.fail, t) => .failed t
    | (.never, _) => .never

/-- Send the frames, then end the command: respond the number of frames, or TransportError with the frames sent so
far kept in TXLOG (42_framing.md R176, R178; 60_exceptions.md R284). -/
def transmit (frames : List (List Byte)) (s : State) : Host.Outcome State Fault Refusal :=
  match sendFrames frames s with
  | .all t => .next (t.complete (.value frames.length))
  | .failed t => .next (t.takeError ⟨.transportError, none⟩)
  | .never => .fault .transportNeverReturns

/-! ## Taking the next command -/

/-- The next command the host has issued (20_memory.md R63), its operand now the DIN of the command in hand; none
where the host has issued no further command. -/
def fetch (s : State) : Option (Word × State) :=
  match s.host with
  | [] => none
  | c :: rest => some (c.word, { s with host := rest, din := c.din })

/-- A word that is no command: IllegalCommand and no other effect (30_encoding.md R83, R84, R87). -/
def rejectWord (s : State) : Host.Outcome State Fault Refusal := .next (s.takeError ⟨.illegalCommand, none⟩)

end Sys2Proof.Machine
end

