-- ==== Sys2Proof/Machine/Operands.lean ====
section
/-! DEFINITION. The data operand: the kind each command requires (30_encoding.md R82, R85), the bit-vector input of
format S (R77), BITREV's width (R79), and the field triple (20_memory.md R51). -/

namespace Sys2Proof.Machine

/-- DIN must be NONE (30_encoding.md R85). -/
def needNone (s : State) : Attempt Unit :=
  match s.din with
  | .none => .ok ()
  | .val _ | .bits _ | .bytes _ | .tree _ | .stamp .. | .bytesStamp .. => raise .illegalCommand

/-- DIN must be VAL (30_encoding.md R85). -/
def needVal (s : State) : Attempt Nat :=
  match s.din with
  | .val v => .ok v
  | .none | .bits _ | .bytes _ | .tree _ | .stamp .. | .bytesStamp .. => raise .illegalCommand

/-- DIN must be BITS (30_encoding.md R85). -/
def needBits (s : State) : Attempt (List Bit) :=
  match s.din with
  | .bits x => .ok x
  | .none | .val _ | .bytes _ | .tree _ | .stamp .. | .bytesStamp .. => raise .illegalCommand

/-- DIN must be BYTES (30_encoding.md R85). -/
def needBytes (s : State) : Attempt (List Byte) :=
  match s.din with
  | .bytes x => .ok x
  | .none | .val _ | .bits _ | .tree _ | .stamp .. | .bytesStamp .. => raise .illegalCommand

/-- DIN must be TREE (30_encoding.md R85). -/
def needTree (s : State) : Attempt RegisterTree :=
  match s.din with
  | .tree t => .ok t
  | .none | .val _ | .bits _ | .bytes _ | .stamp .. | .bytesStamp .. => raise .illegalCommand

/-- DIN must be META (30_encoding.md R85). -/
def needStamp (s : State) : Attempt (Nat × Time) :=
  match s.din with
  | .stamp seq t => .ok (seq, t)
  | .none | .val _ | .bits _ | .bytes _ | .tree _ | .bytesStamp .. => raise .illegalCommand

/-- DIN must be BYTES_META (30_encoding.md R85). -/
def needBytesStamp (s : State) : Attempt (List Byte × Nat × Time) :=
  match s.din with
  | .bytesStamp x seq t => .ok (x, seq, t)
  | .none | .val _ | .bits _ | .bytes _ | .tree _ | .stamp .. => raise .illegalCommand

/-- The bit-vector input of format S (30_encoding.md R77): with SRC = 0 from DIN, with SRC = 1 from VEC. -/
def needSource (s : State) (src : Bool) : Attempt (List Bit) :=
  if src then do
    needNone s
    need s.vec
  else needBits s

/-- BITREV's width is in 1..64, else IllegalCommand (30_encoding.md R79); checked after the kind of DIN (R87). -/
def needWidth (w : BitVec 8) : Attempt Nat :=
  if 1 ≤ w.toNat ∧ w.toNat ≤ 64 then .ok w.toNat else raise .illegalCommand

/-- An assigned control-register number, else IllegalCommand (40_register_model.md R108, R111). -/
def needCreg (crn : BitVec 8) : Attempt Creg :=
  match Creg.ofNumber crn with
  | some r => .ok r
  | none => raise .illegalCommand

/-- Chip `c`'s group `g`, where `c < len(CFG)` and `g < len(GROUP_ORDER)` (20_memory.md R51). -/
def groupAt (P : Params) (cfg : Chain) (c g : Nat) : Option (ChipConfig × RegisterGroup) :=
  if g < P.groupOrder.length then
    match cfg[c]? with
    | some chip =>
      match chip.groups[g]? with
      | some grp => some (chip, grp)
      | none => none
    | none => none
  else none

/-- The field a triple names, none where it names none (20_memory.md R51). -/
def fieldAt (P : Params) (cfg : Chain) (a : FieldAddr) : Option RegisterField :=
  match groupAt P cfg a.chip a.grp with
  | some (_, grp) => grp.fields[a.fld]?
  | none => none

/-- The triple in the word of format F (30_encoding.md R73). -/
def fieldAddr (c : BitVec 5) (g : BitVec 3) (f : BitVec 16) : FieldAddr := ⟨c.toNat, g.toNat, f.toNat⟩

/-- An operand of the kind the instruction requires (30_encoding.md R82). `State.withFetchWord` hands it over with the
word it places, since a command is a pair (R70); log entry 2. -/
def sampleOperand : Instr → Din
  | .nop | .reset | .fieldRd .. | .cregWr .. | .cregRd .. | .buildVec | .buildRow .. | .hdrInit => .none
  | .cfgLoad => .tree []
  | .fieldWr .. | .bitrev .. | .grayDec => .val 0
  | .srPattern src _ | .srRbPattern src | .srWrite src _ | .srRbWrite src => if src then .none else .bits []
  | .addrFrame .. | .prefilter | .scan | .decodeB => .bytes []
  | .decodeA | .acquire => .bytesStamp [] 0 .time0
  | .acquireRx _ => .stamp 0 .time0

end Sys2Proof.Machine
end

