-- ==== Sys2Proof/Machine/HitDecoder.lean ====
section
/-! DEFINITION. The hit decoder: Layout A, Layout B, and the commands DECODE_A, DECODE_B (44_decoder.md sections 1 and
2). -/

namespace Sys2Proof.Machine

/-- `decA(f, seq, t)` with SAMPLE_PERIOD, none for SKIP (44_decoder.md R241 to R245). -/
def decodeFrameA (period : Nat) (f : List Byte) (seq : Nat) (t : Time) : Option RecordA :=
  match f with
  | [f0, f1, f2, f3, f4] =>
    let totMsb := bitField f3.toNat 3 0
    let totLsb := f4.toNat
    let totTotal := (totMsb <<< 8) + totLsb
    some
      { readout := seq
        id := bitField f0.toNat 7 3
        payload := bitField f0.toNat 2 0
        location := bitField f1.toNat 5 0
        isColumn := bitAt f1.toNat 7
        timestamp := f2.toNat
        totMsb := totMsb
        totLsb := totLsb
        totTotal := totTotal
        totUs := (totTotal : Rat) * (period : Rat) / 1000
        hittime := t }
  | _ => none

/-- A LAYOUT_B range's bits of `X` (44_decoder.md R248). -/
def rangeBits (r : BitRange) (x : Nat) : Nat := bitField x r.hi r.lo

/-- Layout B's `tot_us` (44_decoder.md R250), an exact rational (00_scope.md R14). -/
def totUsB (P : Params) (ch1 ch2 : Nat) : Rat :=
  if ch1 ≤ ch2 then ((ch2 : Rat) - (ch1 : Rat)) / (P.totDiv : Rat)
  else ((P.totWrap : Rat) - (ch1 : Rat) + (ch2 : Rat)) / (P.totDiv : Rat)

/-- The 46-bit field `X` of bytes 2 to 7 (44_decoder.md R248). -/
def timestampBits (f2 f3 f4 f5 f6 f7 : Byte) : Nat :=
  ((f2.toNat &&& 0x3F) <<< 40) ||| (f3.toNat <<< 32) ||| (f4.toNat <<< 24) ||| (f5.toNat <<< 16)
    ||| (f6.toNat <<< 8) ||| f7.toNat

/-- `decB(f)`, none for SKIP (44_decoder.md R247 to R252). -/
def decodeFrameB (P : Params) (f : List Byte) : Option RecordB :=
  match f with
  | [f0, f1, f2, f3, f4, f5, f6, f7] =>
    let x := timestampBits f2 f3 f4 f5 f6 f7
    let L := P.layoutB
    let tsDec1 := grayDec ((rangeBits L.ts1 x <<< 3) ||| rangeBits L.tsfine1 x)
    let tsDec2 := grayDec ((rangeBits L.ts2 x <<< 3) ||| rangeBits L.tsfine2 x)
    some
      { id := bitField f0.toNat 7 3
        payload := bitField f0.toNat 2 0
        row := bitField f1.toNat 7 3
        col := (bitField f1.toNat 2 0 <<< 2) ||| bitField f2.toNat 7 6
        ts1 := rangeBits L.ts1 x
        tsfine1 := rangeBits L.tsfine1 x
        ts2 := rangeBits L.ts2 x
        tsfine2 := rangeBits L.tsfine2 x
        tsneg1 := rangeBits L.tsneg1 x = 1
        tsneg2 := rangeBits L.tsneg2 x = 1
        tstdc1 := rangeBits L.tstdc1 x
        tstdc2 := rangeBits L.tstdc2 x
        tsDec1 := tsDec1
        tsDec2 := tsDec2
        totUs := totUsB P tsDec1 tsDec2 }
  | _ => none

/-- A decode attempt's response: the record, or SKIP (44_decoder.md R244, R252, R257). -/
def recordOrSkip (r : Option HitRecord) : Response :=
  match r with
  | some h => .record h
  | none => .skip

/-- DECODE_A (44_decoder.md R246). -/
def execDecodeA (s : State) : Host.Outcome State Fault Refusal :=
  finish s do
    let (f, seq, t) ← needBytesStamp s
    let period ← need s.samplePeriod
    .ok (s, recordOrSkip ((decodeFrameA period.toNat f seq t).map .layoutA))

/-- DECODE_B (44_decoder.md R253). -/
def execDecodeB (s : State) : Host.Outcome State Fault Refusal :=
  finish s do
    let f ← needBytes s
    .ok (s, recordOrSkip ((decodeFrameB params f).map .layoutB))

end Sys2Proof.Machine
end

