-- ==== Sys2Proof/Machine/Locator.lean ====
section
/-! DEFINITION. The hit-frame locator: header set, pre-filter, scanner in both its forms, and the commands HDR_INIT,
PREFILTER, SCAN (43_locator.md). -/

namespace Sys2Proof.Machine

/-- `hb(i, b)` (43_locator.md R200). -/
def headerByte (i b : Nat) : Byte := BitVec.ofNat 8 ((i <<< 3) ||| (b - 1))

/-- `HS(n, b, rev)` (43_locator.md R201). -/
def headerSet (n b : Nat) (rev : Bool) : List Byte :=
  (List.range n).map fun i => if rev then bitrev8 (headerByte i b) else headerByte i b

/-- A leading run put in front of the segments after it, if it has a byte. -/
def closeRun (p : List Byte × List (List Byte)) : List (List Byte) :=
  match p with
  | ([], segs) => segs
  | (y :: ys, segs) => (y :: ys) :: segs

/-- The run of non-marker bytes at the front, and the segments after it (43_locator.md R204). -/
def splitRuns (markers : List Byte) : List Byte → List Byte × List (List Byte)
  | [] => ([], [])
  | y :: ys =>
    let (run, segs) := splitRuns markers ys
    if y ∈ markers then ([], closeRun (run, segs)) else (y :: run, segs)

/-- `segments(x)`: the maximal non-empty runs of non-marker bytes (43_locator.md R204). -/
def segments (markers : List Byte) (x : List Byte) : List (List Byte) := closeRun (splitRuns markers x)

/-- `prefilter(x)`, none for DecodeFault (43_locator.md R205, R206). -/
def prefilter (P : Params) (x : List Byte) : Option (List Byte) :=
  if (segments P.markers x).all (fun seg => seg.head? == some P.startMarker) then some (segments P.markers x).flatten
  else none

/-- A located frame as it is returned (43_locator.md R210). -/
def orientFrame (rev : Bool) (fr : List Byte) : List Byte := if rev then fr.map bitrev8 else fr

/-- The loop of `scan(x)` (43_locator.md R209, R211) with at most `fuel` iterations; the list is `x[p ..]`. -/
def scanLoop (hdrs : List Byte) (b : Nat) (rev : Bool) : Nat → List Byte → List (List Byte)
  | 0, _ => []
  | _, [] => []
  | fuel + 1, y :: ys =>
    if y ∈ hdrs then
      if b ≤ (y :: ys).length then
        orientFrame rev ((y :: ys).take b) :: scanLoop hdrs b rev fuel ((y :: ys).drop b)
      else []
    else scanLoop hdrs b rev fuel ys

/-- `scan(x)` (43_locator.md R209). Each iteration takes at least one byte, so `len(x)` iterations are enough. -/
def scanFrames (hdrs : List Byte) (b : Nat) (rev : Bool) (x : List Byte) : List (List Byte) :=
  scanLoop hdrs b rev x.length x

/-- The scanner's state machine (10_state.md R44, 43_locator.md R214). -/
inductive ScanState where
  | seek
  | capture (buf : List Byte)
deriving DecidableEq, Repr

/-- One byte into the state machine: the next state and the frame output, if any (43_locator.md R214). -/
def scanByte (hdrs : List Byte) (b : Nat) (rev : Bool) : ScanState → Byte → ScanState × List (List Byte)
  | .seek, y => if y ∈ hdrs then (.capture [y], []) else (.seek, [])
  | .capture buf, y =>
    if buf.length + 1 < b then (.capture (buf ++ [y]), []) else (.seek, [orientFrame rev (buf ++ [y])])

/-- The state machine over a byte string, from a given state; at the end of input a partial frame is dropped
(43_locator.md R214). -/
def scanMachine (hdrs : List Byte) (b : Nat) (rev : Bool) : ScanState → List Byte → List (List Byte)
  | _, [] => []
  | st, y :: ys => (scanByte hdrs b rev st y).2 ++ scanMachine hdrs b rev (scanByte hdrs b rev st y).1 ys

/-- HDR_INIT (43_locator.md R202). -/
def execHdrInit (s : State) : Host.Outcome State Fault Refusal :=
  finish s do
    needNone s
    let n ← need s.chipCount
    let b ← need s.frameLen
    let hs := headerSet n.toNat b.toNat s.wireRev
    .ok ({ s with hdrset := some hs }, .bytes hs)

/-- PREFILTER (43_locator.md R207, R208). -/
def execPrefilter (s : State) : Host.Outcome State Fault Refusal :=
  finish s do
    let x ← needBytes s
    match prefilter params x with
    | some y => .ok ({ s with faultCnt := 0x0000#16 }, .bytes y)
    | none => raise .decodeFault

/-- SCAN (43_locator.md R216). -/
def execScan (s : State) : Host.Outcome State Fault Refusal :=
  finish s do
    let x ← needBytes s
    let hdrs ← need s.hdrset
    let b ← need s.frameLen
    .ok (s, .frames (scanFrames hdrs b.toNat s.wireRev x))

end Sys2Proof.Machine
end

