-- ==== Sys2Proof/Machine/Acquisition.lean ====
section
/-! DEFINITION. Acquisition: the commands ACQUIRE and ACQUIRE_RX (44_decoder.md section 3). -/

namespace Sys2Proof.Machine

/-- The registers acquisition reads: the header set, the frame length and, for Layout A only, the sample period
(44_decoder.md R254, R255). For Layout B the period is not read and 0 stands in its place. -/
def needAcquisition (s : State) : Attempt (List Byte × Nat × Nat) := do
  let hdrs ← need s.hdrset
  let b ← need s.frameLen
  if b = 5#16 then
    let period ← need s.samplePeriod
    .ok (hdrs, b.toNat, period.toNat)
  else .ok (hdrs, b.toNat, 0)

/-- Decode one located frame by the layout FRAME_LEN selects, none for SKIP (44_decoder.md R254, R255). -/
def decodeHit (P : Params) (b period seq : Nat) (t : Time) (fr : List Byte) : Option HitRecord :=
  if b = 5 then (decodeFrameA period fr seq t).map .layoutA else (decodeFrameB P fr).map .layoutB

/-- The records of a pre-filtered readout, SKIPs left out (44_decoder.md R255). -/
def hitsOf (P : Params) (hdrs : List Byte) (b period : Nat) (rev : Bool) (seq : Nat) (t : Time) (y : List Byte) :
    List HitRecord :=
  (scanFrames hdrs b rev y).filterMap (decodeHit P b period seq t)

/-- The pre-filter where CTRL.PREFILTER_EN is 1, none for DecodeFault (44_decoder.md R255). -/
def filtered (P : Params) (enabled : Bool) (x : List Byte) : Option (List Byte) :=
  if enabled then prefilter P x else some x

/-- ACQUIRE's rule from "y <- ..." on (44_decoder.md R255), for the readout `x`. -/
def acquireFrom (s : State) (hdrs : List Byte) (b period : Nat) (x : List Byte) (seq : Nat) (t : Time) :
    Attempt (State × Response) :=
  match filtered params s.prefilterEn x with
  | none => raise .decodeFault
  | some y => .ok ({ s with faultCnt := 0x0000#16 }, .records (hitsOf params hdrs b period s.wireRev seq t y))

/-- ACQUIRE (44_decoder.md R255). -/
def execAcquire (s : State) : Host.Outcome State Fault Refusal :=
  finish s do
    let (x, seq, t) ← needBytesStamp s
    let (hdrs, b, period) ← needAcquisition s
    acquireFrom s hdrs b period x seq t

/-- What ACQUIRE_RX checks before it calls the transport (44_decoder.md R256). -/
def planAcquireRx (s : State) : Attempt ((Nat × Time) × List Byte × Nat × Nat) := do
  let stamp ← needStamp s
  let regs ← needAcquisition s
  .ok (stamp, regs)

/-- ACQUIRE_RX (44_decoder.md R256). -/
def execAcquireRx (n : BitVec 16) (s : State) : Host.Outcome State Fault Refusal :=
  match planAcquireRx s with
  | .error e => .next (s.takeError e)
  | .ok ((seq, t), hdrs, b, period) =>
    match s.drawRead n.toNat with
    | (.bytes x, u) => finish u (acquireFrom u hdrs b period x seq t)
    | (.fail, u) => .next (u.takeError ⟨.transportError, none⟩)
    | (.never, _) => .fault .transportNeverReturns

end Sys2Proof.Machine
end

