-- ==== Sys2Proof/Machine/BitUtilities.lean ====
section
/-! DEFINITION. The bit-utility commands: BITREV and GRAY_DEC (41_serializer.md section 3). -/

namespace Sys2Proof.Machine

/-- BITREV (41_serializer.md R140; the width check is 30_encoding.md R79, after the kind of DIN, R87). -/
def execBitrev (width : BitVec 8) (s : State) : Host.Outcome State Fault Refusal :=
  finish s do
    let v ← needVal s
    let w ← needWidth width
    if v < 2 ^ w then .ok (s, .value (bitrev v w)) else raise .outOfRange

/-- GRAY_DEC (41_serializer.md R143). -/
def execGrayDec (s : State) : Host.Outcome State Fault Refusal :=
  finish s do
    let g ← needVal s
    .ok (s, .value (grayDec g))

end Sys2Proof.Machine
end

