-- ==== Sys2Proof/Machine/Framing.lean ====
section
/-! DEFINITION. The framing engine: the shift-register waveform, its readback variant, addressed frames, chunked
writes, and the commands SR_PATTERN, SR_RB_PATTERN, ADDR_FRAME, SR_WRITE, SR_RB_WRITE (42_framing.md). -/

namespace Sys2Proof.Machine

/-- The data line's level for a bit (42_framing.md R160). -/
def dataLine (P : Params) (d : Bit) : Byte := if d then P.pinSin else 0x00#8

/-- `idle(d)` (42_framing.md R160, R161). -/
def idleStep (P : Params) (d : Bit) : Byte := if P.idleHoldsSin then dataLine P d else 0x00#8

/-- `wave(d)`, five bytes (42_framing.md R160). -/
def wave (P : Params) (d : Bit) : List Byte :=
  [idleStep P d, dataLine P d ||| P.pinCk1, idleStep P d, dataLine P d ||| P.pinCk2, idleStep P d]

/-- `data(bits)` with CLKDIV = k (42_framing.md R162). -/
def dataPart (P : Params) (k : Nat) (bits : List Bit) : List Byte := rep (bits.flatMap (wave P)) k

/-- The load strobe (42_framing.md R163). -/
def strobe (P : Params) (k : Nat) : List Byte := rep [0x00#8, P.pinLd, 0x00#8] (k * P.nLoad)

/-- `gen_pattern(bits, load)` (42_framing.md R164). -/
def genPattern (P : Params) (k : Nat) (bits : List Bit) (load : Bool) : List Byte :=
  dataPart P k bits ++ if load then strobe P k else []

/-- `wave_rb(d)` (42_framing.md R166). -/
def waveRb (P : Params) (d : Bit) : List Byte := (wave P d).map fun x => x ||| P.pinRb

/-- `gen_rb(bits)` (42_framing.md R167). -/
def genRb (P : Params) (k : Nat) (bits : List Bit) : List Byte := P.rbPreamble ++ rep (bits.flatMap (waveRb P)) k

/-- `frame(opc, addr, p)` (42_framing.md R168): a big-endian 16-bit payload length. -/
def frame (opc addr : Byte) (p : List Byte) : List Byte :=
  [opc, addr, BitVec.ofNat 8 (p.length >>> 8), BitVec.ofNat 8 (p.length &&& 0xFF)] ++ p

/-- `extra` of an SR_WRITE (42_framing.md R173): the bytes of the strobe. -/
def extraWrite (P : Params) (k : Nat) (load : Bool) : Nat := if load then 3 * k * P.nLoad else 0

/-- `extra` of an SR_RB_WRITE (42_framing.md R173): the bytes of the preamble. -/
def extraRb (P : Params) : Nat := P.rbPreamble.length

/-- The chunk size `K` (42_framing.md R173). Natural subtraction gives 0 where `extra > MAX_FRAME_LEN`. -/
def chunkSize (P : Params) (k extra : Nat) : Nat := (P.maxFrameLen - extra) / (5 * k)

/-- The write is impossible (42_framing.md R173). -/
def writeImpossible (P : Params) (k extra : Nat) (bits : List Bit) : Bool :=
  decide (extra > P.maxFrameLen) || (decide (chunkSize P k extra = 0) && !bits.isEmpty)

/-- The chunk list with at most `fuel` cuts (42_framing.md R174). -/
def cutChunks (size : Nat) : Nat → List Bit → List (List Bit)
  | 0, bits => [bits]
  | fuel + 1, bits => if bits.length ≤ size then [bits] else bits.take size :: cutChunks size fuel (bits.drop size)

/-- `chunks(bits)` (42_framing.md R174). The empty vector is one empty chunk. -/
def chunks (size : Nat) (bits : List Bit) : List (List Bit) := cutChunks size bits.length bits

/-- The payloads of SR_WRITE: the strobe is in the last one only (42_framing.md R175). -/
def writePayloads (P : Params) (k : Nat) (load : Bool) : List (List Bit) → List (List Byte)
  | [] => []
  | [c] => [genPattern P k c load]
  | c :: cs => genPattern P k c false :: writePayloads P k load cs

/-- The frames of an SR_WRITE of `bits` (42_framing.md R173 to R176). -/
def writeFrames (P : Params) (k : Nat) (opc addr : Byte) (bits : List Bit) (load : Bool) : List (List Byte) :=
  (writePayloads P k load (chunks (chunkSize P k (extraWrite P k load)) bits)).map (frame opc addr)

/-- The frames of an SR_RB_WRITE of `bits` (42_framing.md R173, R174, R177). -/
def rbFrames (P : Params) (k : Nat) (opc addr : Byte) (bits : List Bit) : List (List Byte) :=
  ((chunks (chunkSize P k (extraRb P)) bits).map (genRb P k)).map (frame opc addr)

/-- SR_PATTERN (42_framing.md R170). -/
def execSrPattern (src load : Bool) (s : State) : Host.Outcome State Fault Refusal :=
  finish s do
    let bits ← needSource s src
    let k ← need s.clkdiv
    .ok (s, .bytes (genPattern params k.toNat bits load))

/-- SR_RB_PATTERN (42_framing.md R171). -/
def execSrRbPattern (src : Bool) (s : State) : Host.Outcome State Fault Refusal :=
  finish s do
    let bits ← needSource s src
    let k ← need s.clkdiv
    .ok (s, .bytes (genRb params k.toNat bits))

/-- ADDR_FRAME (42_framing.md R172). -/
def execAddrFrame (fopc faddr : BitVec 8) (s : State) : Host.Outcome State Fault Refusal :=
  finish s do
    let p ← needBytes s
    if p.length ≤ params.maxFrameLen then .ok (s, .bytes (frame fopc faddr p)) else raise .outOfRange

/-- The registers a framed write reads: CLKDIV, FRAME_OPC and SR_ADDR, the last two as bytes (42_framing.md R176,
10_state.md R35, R36). -/
def needWriteRegs (s : State) : Attempt (Nat × Byte × Byte) := do
  let k ← need s.clkdiv
  let opc ← need s.frameOpc
  let addr ← need s.srAddr
  .ok (k.toNat, opc.setWidth 8, addr.setWidth 8)

/-- What SR_WRITE does before its first transport call: the frames it sends, or an error (42_framing.md R176). -/
def planWrite (src load : Bool) (s : State) : Attempt (List (List Byte)) := do
  let bits ← needSource s src
  let (k, opc, addr) ← needWriteRegs s
  if writeImpossible params k (extraWrite params k load) bits then raise .outOfRange
  else .ok (writeFrames params k opc addr bits load)

/-- What SR_RB_WRITE does before its first transport call (42_framing.md R177). -/
def planRbWrite (src : Bool) (s : State) : Attempt (List (List Byte)) := do
  let bits ← needSource s src
  let (k, opc, addr) ← needWriteRegs s
  if writeImpossible params k (extraRb params) bits then raise .outOfRange
  else .ok (rbFrames params k opc addr bits)

/-- SR_WRITE (42_framing.md R176, R178). -/
def execSrWrite (src load : Bool) (s : State) : Host.Outcome State Fault Refusal :=
  match planWrite src load s with
  | .error e => .next (s.takeError e)
  | .ok frames => transmit frames s

/-- SR_RB_WRITE (42_framing.md R177, R178). -/
def execSrRbWrite (src : Bool) (s : State) : Host.Outcome State Fault Refusal :=
  match planRbWrite src s with
  | .error e => .next (s.takeError e)
  | .ok frames => transmit frames s

end Sys2Proof.Machine
end

