-- ==== Sys2Proof/Machine/RegisterStore.lean ====
section
/-! DEFINITION. The register-model commands: CFG_LOAD, FIELD_WR, FIELD_RD (40_register_model.md section 2). -/

namespace Sys2Proof.Machine

/-- 40_register_model.md R104 item 2: distinct group names, each in GROUP_ORDER, every name of it present. -/
def treeGroupsOk (P : Params) (chip : TreeChip) : Bool :=
  decide ((chip.groups.map TreeGroup.name).Nodup)
    && chip.groups.all (fun g => P.groupOrder.contains g.name)
    && P.groupOrder.all (fun n => (chip.groups.map TreeGroup.name).contains n)

/-- 40_register_model.md R104 item 3: at most 65536 fields, with distinct names. -/
def treeFieldsOk (g : TreeGroup) : Bool :=
  decide (g.fields.length ≤ 65536) && decide ((g.fields.map TreeField.name).Nodup)

/-- 40_register_model.md R104 item 4: every width is at least 1. -/
def treeWidthsOk (g : TreeGroup) : Bool := g.fields.all fun f => decide (1 ≤ f.bitWidth)

/-- The structural items 1 to 4 of 40_register_model.md R104. -/
def treeShapeOk (P : Params) (t : RegisterTree) : Bool :=
  decide (1 ≤ t.length ∧ t.length ≤ P.maxChips)
    && t.all (treeGroupsOk P)
    && t.all (fun chip => chip.groups.all treeFieldsOk)
    && t.all (fun chip => chip.groups.all treeWidthsOk)

/-- A leaf of the tree as a field, its value unchecked (40_register_model.md R105). -/
def fieldOfLeaf (f : TreeField) : RegisterField := ⟨f.name, f.bitWidth, f.value⟩

/-- The group of the chip with a given name, its fields in declared order (40_register_model.md R105). -/
def loadGroup (chip : TreeChip) (name : String) : RegisterGroup :=
  match chip.groups.find? (fun g => g.name == name) with
  | some g => ⟨name, g.fields.map fieldOfLeaf⟩
  | none => ⟨name, []⟩

/-- One chip of the loaded chain, its groups in GROUP_ORDER order (40_register_model.md R105, 10_state.md R24). -/
def loadChip (P : Params) (chip : TreeChip) : ChipConfig :=
  ⟨chip.version, chip.rows, chip.cols, P.groupOrder.map (loadGroup chip)⟩

/-- The chain CFG_LOAD stores (40_register_model.md R105). -/
def loadTree (P : Params) (t : RegisterTree) : Chain := t.map (loadChip P)

/-- `valid(t)` (40_register_model.md R104): the structural items, then CFG_EXTRA_CHECK, a predicate on the chain the tree
loads to (00_scope.md R8), in which the order of the tree's groups is gone (R103). Every failure raises the same
cause, so the order of the items shows in nothing. -/
def treeValid (P : Params) (t : RegisterTree) : Bool := treeShapeOk P t && P.cfgExtraCheck (loadTree P t)

/-- CFG_LOAD (40_register_model.md R103 to R105). -/
def execCfgLoad (s : State) : Host.Outcome State Fault Refusal :=
  finish s do
    let t ← needTree s
    if treeValid params t then .ok ({ s with cfg := some (loadTree params t), vec := none }, .nothing)
    else raise .configError

/-- `CFG.chip[c].group[g].field[f].value <- v` (40_register_model.md R106): one value and nothing else. -/
def setField (cfg : Chain) (a : FieldAddr) (v : Nat) : Chain :=
  cfg.modify a.chip fun chip =>
    { chip with groups := chip.groups.modify a.grp fun grp =>
        { grp with fields := grp.fields.modify a.fld fun fld => { fld with value := v } } }

/-- The register model and the field a triple names: ConfigNotInitialized where CFG = ⊥, then ConfigError with the
triple in ERRLOC where it names no field (40_register_model.md R106, R107). -/
def needField (s : State) (a : FieldAddr) : Attempt (Chain × RegisterField) := do
  let cfg ← need s.cfg
  match fieldAt params cfg a with
  | some fld => .ok (cfg, fld)
  | none => raiseAt .configError a

/-- FIELD_WR (40_register_model.md R106). The value is not range-checked. -/
def execFieldWr (c : BitVec 5) (g : BitVec 3) (f : BitVec 16) (s : State) : Host.Outcome State Fault Refusal :=
  finish s do
    let v ← needVal s
    let (cfg, _) ← needField s (fieldAddr c g f)
    .ok ({ s with cfg := some (setField cfg (fieldAddr c g f) v), vec := none }, .nothing)

/-- FIELD_RD (40_register_model.md R107). -/
def execFieldRd (c : BitVec 5) (g : BitVec 3) (f : BitVec 16) (s : State) : Host.Outcome State Fault Refusal :=
  finish s do
    needNone s
    let (_, fld) ← needField s (fieldAddr c g f)
    .ok (s, .value fld.value)

end Sys2Proof.Machine
end

