-- ==== Sys2Proof/Machine/Sequencer.lean ====
section
/-! DEFINITION. The sequencer's commands: NOP, RESET, CREG_WR, CREG_RD (40_register_model.md sections 1 and 3). -/

namespace Sys2Proof.Machine

/-- NOP (40_register_model.md R101). -/
def execNop (s : State) : Host.Outcome State Fault Refusal :=
  finish s do
    needNone s
    .ok (s, .nothing)

/-- The state writes of RESET (40_register_model.md R102): every element of 10_state.md R20 but TXLOG. -/
def State.resetCore (s : State) : State :=
  { s with
    cfg := none
    vec := none
    hdrset := none
    ctrl := 0x0000#16
    clkdiv := none
    chipCount := none
    frameLen := none
    samplePeriod := none
    frameOpc := none
    srAddr := none
    errlocCg := 0x0000#16
    errlocF := 0x0000#16
    faultCnt := 0x0000#16 }

/-- RESET (40_register_model.md R102, 70_reset_and_hazards.md R310). -/
def execReset (s : State) : Host.Outcome State Fault Refusal :=
  finish s do
    needNone s
    .ok (s.resetCore, .nothing)

/-- CREG_WR (40_register_model.md R108 to R110). -/
def execCregWr (crn : BitVec 8) (imm : BitVec 16) (s : State) : Host.Outcome State Fault Refusal :=
  finish s do
    needNone s
    match ← needCreg crn with
    | .ro _ => raise .illegalCommand
    | .rw r =>
      if cregLegal params r imm then .ok ((s.writeCreg r (cregStored r imm)).invalidate r, .nothing)
      else raise .configError

/-- CREG_RD (40_register_model.md R111). STATUS reads as it was before this command's own STATUS write. -/
def execCregRd (crn : BitVec 8) (s : State) : Host.Outcome State Fault Refusal :=
  finish s do
    needNone s
    let r ← needCreg crn
    let v ← need (s.readCreg r)
    .ok (s, .value v.toNat)

end Sys2Proof.Machine
end

