-- ==== Sys2Proof/Machine/Serializer.lean ====
section
/-! DEFINITION. The serializer: the configuration-vector builder, its inverse layout, BUILD_VEC and BUILD_ROW
(41_serializer.md sections 1 and 2). -/

namespace Sys2Proof.Machine

/-- The slice of a field in a group of the given name: LSB first in a reversed group, else MSB first
(41_serializer.md R130). The same step undoes itself on the way back (R138). -/
def orient (P : Params) (group : String) (s : List Bit) : List Bit :=
  if P.reversedGroups.contains group then s.reverse else s

/-- `fieldbits(G, fld)` (41_serializer.md R130); OutOfRange at the field where the value does not fit (R134). -/
def fieldBits (P : Params) (group : String) (a : FieldAddr) (fld : RegisterField) : Attempt (List Bit) :=
  if fld.value < 2 ^ fld.width then .ok (orient P group (slice fld.value fld.width))
  else raiseAt .outOfRange a

/-- The bits of a group's fields in declared order, the first of them at index `f` (41_serializer.md R131). -/
def fieldsBits (P : Params) (group : String) (c g : Nat) : Nat → List RegisterField → Attempt (List Bit)
  | _, [] => .ok []
  | f, fld :: rest => do
    let x ← fieldBits P group ⟨c, g, f⟩ fld
    let y ← fieldsBits P group c g (f + 1) rest
    .ok (x ++ y)

/-- The bits of a chip's groups in stored order, the first of them at index `g` (41_serializer.md R131). -/
def groupsBits (P : Params) (c : Nat) : Nat → List RegisterGroup → Attempt (List Bit)
  | _, [] => .ok []
  | g, grp :: rest => do
    let x ← fieldsBits P grp.name c g 0 grp.fields
    let y ← groupsBits P c (g + 1) rest
    .ok (x ++ y)

/-- `chipbits(ch)` for chip `c` (41_serializer.md R131). -/
def chipBits (P : Params) (c : Nat) (chip : ChipConfig) : Attempt (List Bit) := groupsBits P c 0 chip.groups

/-- The MSB-first flag's effect on a chip's sequence (41_serializer.md R132). -/
def msbOrder (msb : Bool) (s : List Bit) : List Bit := if msb then s else s.reverse

/-- `chipvec(ch)` for chip `c` (41_serializer.md R132). -/
def chipVec (P : Params) (msb : Bool) (c : Nat) (chip : ChipConfig) : Attempt (List Bit) := do
  let x ← chipBits P c chip
  .ok (msbOrder msb x)

/-- The chain's chips from index `c` on, the highest index first (41_serializer.md R133, and R134 for which error is
reported). -/
def chainVecFrom (P : Params) (msb : Bool) : Nat → Chain → Attempt (List Bit)
  | _, [] => .ok []
  | c, chip :: rest => do
    let high ← chainVecFrom P msb (c + 1) rest
    let low ← chipVec P msb c chip
    .ok (high ++ low)

/-- `chainvec(CFG)` (41_serializer.md R133). -/
def chainVec (P : Params) (msb : Bool) (cfg : Chain) : Attempt (List Bit) := chainVecFrom P msb 0 cfg

/-- The per-row trim vector of group `g` of chip `c` (41_serializer.md R137). -/
def rowVec (P : Params) (msb : Bool) (c g : Nat) (grp : RegisterGroup) : Attempt (List Bit) := do
  let r ← fieldsBits P grp.name c g 0 grp.fields
  .ok (msbOrder msb r)

/-- BUILD_VEC (41_serializer.md R134 to R136). -/
def execBuildVec (s : State) : Host.Outcome State Fault Refusal :=
  finish s do
    needNone s
    let cfg ← need s.cfg
    let v ← chainVec params s.msbFirst cfg
    .ok ({ s with vec := some v }, .bits v)

/-- The chip and group BUILD_ROW names, or ConfigError located at `(c, g, 0)`, then ROW_TRIM_OK (41_serializer.md
R137). -/
def needRow (cfg : Chain) (c g : Nat) : Attempt RegisterGroup :=
  match groupAt params cfg c g with
  | none => raiseAt .configError ⟨c, g, 0⟩
  | some (chip, grp) => if params.rowTrimOk chip then .ok grp else raise .configError

/-- BUILD_ROW (41_serializer.md R137). -/
def execBuildRow (c : BitVec 5) (g : BitVec 3) (s : State) : Host.Outcome State Fault Refusal :=
  finish s do
    needNone s
    let cfg ← need s.cfg
    let grp ← needRow cfg c.toNat g.toNat
    let v ← rowVec params s.msbFirst c.toNat g.toNat grp
    .ok ({ s with vec := some v }, .bits v)

/-! ## The inverse layout (41_serializer.md R138), which no command runs -/

/-- The number of bits of a field list. -/
def fieldsWidth (fs : List RegisterField) : Nat := (fs.map RegisterField.width).sum

/-- `Σ width` over the fields of a chip's groups (41_serializer.md R138). -/
def groupsWidth (gs : List RegisterGroup) : Nat := (gs.map fun g => fieldsWidth g.fields).sum

/-- What `parse` is given besides the vector: the chain's groups, names and widths, with every value 0
(41_serializer.md R138). -/
def eraseValues (cfg : Chain) : Chain :=
  cfg.map fun chip =>
    { chip with groups := chip.groups.map fun grp =>
        { grp with fields := grp.fields.map fun fld => { fld with value := 0 } } }

/-- Read the fields of one group back from the bits at the front (41_serializer.md R138). -/
def parseFields (P : Params) (group : String) : List RegisterField → List Bit → List RegisterField
  | [], _ => []
  | fld :: rest, s =>
    { fld with value := unslice (orient P group (s.take fld.width)) } :: parseFields P group rest (s.drop fld.width)

/-- Read the groups of one chip back (41_serializer.md R138). -/
def parseGroups (P : Params) : List RegisterGroup → List Bit → List RegisterGroup
  | [], _ => []
  | grp :: rest, s =>
    { grp with fields := parseFields P grp.name grp.fields s } :: parseGroups P rest (s.drop (fieldsWidth grp.fields))

/-- Read the chips back; the chip at the front of the list is the last in the vector (41_serializer.md R138). -/
def parseChain (P : Params) (msb : Bool) : Chain → List Bit → Chain
  | [], _ => []
  | chip :: rest, v =>
    let above := (rest.map fun ch => groupsWidth ch.groups).sum
    { chip with groups := parseGroups P chip.groups (msbOrder msb ((v.drop above).take (groupsWidth chip.groups))) }
      :: parseChain P msb rest (v.take above)

end Sys2Proof.Machine
end

