-- ==== Sys2Proof/Machine/Dispatch.lean ====
section
/-! DEFINITION. One arm per constructor of Instr, each one direct call of the instruction's meaning. -/

namespace Sys2Proof.Machine

def exec (i : Instr) (s : State) : Host.Outcome State Fault Refusal :=
  match i with
  | .nop => Sys2Proof.Machine.execNop s
  | .reset => Sys2Proof.Machine.execReset s
  | .cfgLoad => Sys2Proof.Machine.execCfgLoad s
  | .fieldWr chip grp fld => Sys2Proof.Machine.execFieldWr chip grp fld s
  | .fieldRd chip grp fld => Sys2Proof.Machine.execFieldRd chip grp fld s
  | .cregWr crn imm => Sys2Proof.Machine.execCregWr crn imm s
  | .cregRd crn => Sys2Proof.Machine.execCregRd crn s
  | .buildVec => Sys2Proof.Machine.execBuildVec s
  | .buildRow chip grp => Sys2Proof.Machine.execBuildRow chip grp s
  | .bitrev width => Sys2Proof.Machine.execBitrev width s
  | .grayDec => Sys2Proof.Machine.execGrayDec s
  | .srPattern src load => Sys2Proof.Machine.execSrPattern src load s
  | .srRbPattern src => Sys2Proof.Machine.execSrRbPattern src s
  | .addrFrame fopc faddr => Sys2Proof.Machine.execAddrFrame fopc faddr s
  | .srWrite src load => Sys2Proof.Machine.execSrWrite src load s
  | .srRbWrite src => Sys2Proof.Machine.execSrRbWrite src s
  | .hdrInit => Sys2Proof.Machine.execHdrInit s
  | .prefilter => Sys2Proof.Machine.execPrefilter s
  | .scan => Sys2Proof.Machine.execScan s
  | .decodeA => Sys2Proof.Machine.execDecodeA s
  | .decodeB => Sys2Proof.Machine.execDecodeB s
  | .acquire => Sys2Proof.Machine.execAcquire s
  | .acquireRx nread => Sys2Proof.Machine.execAcquireRx nread s

end Sys2Proof.Machine
end

