-- ==== Sys2Proof/Machine/Step.lean ====
section
/-! DEFINITION. One step of the core: take the host's next command, decode its word, run it (00_scope.md R7,
20_memory.md R63). -/

namespace Sys2Proof.Machine

/-- One command runs from its start to its completion (00_scope.md R7). A word that does not decode raises
IllegalCommand (30_encoding.md R87). Where the host has issued no command the core is idle and nothing changes (log
entry 1). -/
def step (s : State) : Host.Outcome State Fault Refusal :=
  match fetch s with
  | none => .next s
  | some (w, t) =>
    match decode w with
    | .ok i => exec i t
    | .error _ => rejectWord t

/-- The command `(W, DIN)` at the front of what the host has issued, `W` the `nbits` bits of `w` and DIN an operand of
the kind the word requires (30_encoding.md R70, R82), so that the next step runs it (log entries 1 and 2). -/
def State.withFetchWord (s : State) (nbits w : Nat) : State :=
  let word : Word := BitVec.ofNat 32 (w % 2 ^ nbits)
  let din : Din :=
    match decode word with
    | .ok i => sampleOperand i
    | .error _ => .none
  { s with host := ⟨word, din⟩ :: s.host }

end Sys2Proof.Machine
end

