-- ==== Sys2Proof/Safety.lean ====
section
/-! DEFINITION. The terms the statements use: the state after an error, the table of operand kinds and the table of
causes, what a legal register source tree is, and the invariants of a good state. -/

namespace Sys2Proof.Machine

/-! ## Outcomes of a command -/

/-- The state after an error that locates no field and is no DecodeFault: STATUS.CAUSE, and no response
(60_exceptions.md R284, R285). -/
def State.failed (s : State) (c : Cause) : State := { s with cause := c, resp := .nothing }

/-- The state after an error located at a field: ERRLOC_CG and ERRLOC_F are written too (60_exceptions.md R286). -/
def State.failedAt (s : State) (c : Cause) (chip grp fld : Nat) : State :=
  { s with
    cause := c
    resp := .nothing
    errlocCg := BitVec.ofNat 16 (chip % 32 * 8 + grp % 8)
    errlocF := BitVec.ofNat 16 fld }

/-- A field's value fits its width (10_state.md R22). -/
def RegisterField.Fits (f : RegisterField) : Prop := f.value < 2 ^ f.width

/-- The chain has a field at `a`, and its value does not fit its width. -/
def Misfit (cfg : Chain) (a : FieldAddr) : Prop :=
  ∃ chip grp fld, cfg[a.chip]? = some chip ∧ chip.groups[a.grp]? = some grp ∧ grp.fields[a.fld]? = some fld ∧ ¬ fld.Fits

/-- When an error records its field (60_exceptions.md R286): `i`, run from `s` and ending with cause `c`, names at `a` a
field or a group that is not there, or stops at `a` on a field whose value does not fit its width. -/
def ErrorAt (i : Instr) (s : State) (c : Cause) (a : FieldAddr) : Prop :=
  ∃ cfg, s.cfg = some cfg ∧
    ((c = .configError ∧
        ((∃ ch g f, (i = .fieldWr ch g f ∨ i = .fieldRd ch g f) ∧ a = ⟨ch.toNat, g.toNat, f.toNat⟩ ∧
            fieldAt params cfg a = none) ∨
          ∃ ch g, i = .buildRow ch g ∧ a = ⟨ch.toNat, g.toNat, 0⟩ ∧ groupAt params cfg ch.toNat g.toNat = none)) ∨
      (c = .outOfRange ∧ (i = .buildVec ∨ ∃ ch g, i = .buildRow ch g ∧ a.chip = ch.toNat ∧ a.grp = g.toNat) ∧
        Misfit cfg a))

/-! ## The tables of the spec -/

/-- The kind of DIN each command requires (30_encoding.md R82, and R77 for format S). -/
def dinKindOk : Instr → Din → Bool
  | .nop, .none | .reset, .none | .fieldRd .., .none | .cregWr .., .none | .cregRd _, .none | .buildVec, .none
  | .buildRow .., .none | .hdrInit, .none => true
  | .cfgLoad, .tree _ => true
  | .fieldWr .., .val _ | .bitrev _, .val _ | .grayDec, .val _ => true
  | .srPattern false _, .bits _ | .srRbPattern false, .bits _ | .srWrite false _, .bits _
  | .srRbWrite false, .bits _ => true
  | .srPattern true _, .none | .srRbPattern true, .none | .srWrite true _, .none | .srRbWrite true, .none => true
  | .addrFrame .., .bytes _ | .prefilter, .bytes _ | .scan, .bytes _ | .decodeB, .bytes _ => true
  | .decodeA, .bytesStamp .. | .acquire, .bytesStamp .. => true
  | .acquireRx _, .stamp .. => true
  | _, _ => false

/-- Which command may end with which cause (60_exceptions.md R282); NONE and IllegalCommand are open to every one. -/
def mayEndWith : Instr → List Cause
  | .nop | .reset | .grayDec | .decodeB => [.none, .illegalCommand]
  | .cfgLoad => [.none, .configError, .illegalCommand]
  | .fieldWr .. | .fieldRd .. => [.none, .configError, .configNotInitialized, .illegalCommand]
  | .cregWr .. => [.none, .configError, .illegalCommand]
  | .cregRd _ => [.none, .configNotInitialized, .illegalCommand]
  | .buildVec => [.none, .configNotInitialized, .outOfRange, .illegalCommand]
  | .buildRow .. => [.none, .configError, .configNotInitialized, .outOfRange, .illegalCommand]
  | .bitrev _ | .addrFrame .. => [.none, .outOfRange, .illegalCommand]
  | .srPattern .. | .srRbPattern _ | .hdrInit | .scan | .decodeA => [.none, .configNotInitialized, .illegalCommand]
  | .srWrite .. | .srRbWrite _ => [.none, .configNotInitialized, .outOfRange, .transportError, .illegalCommand]
  | .prefilter => [.none, .decodeFault, .illegalCommand]
  | .acquire => [.none, .configNotInitialized, .decodeFault, .illegalCommand]
  | .acquireRx _ => [.none, .configNotInitialized, .transportError, .decodeFault, .illegalCommand]

/-- The bit-vector input of a format S command is `bits` (30_encoding.md R77). -/
def SourceIs (s : State) (src : Bool) (bits : List Bit) : Prop :=
  (src = false ∧ s.din = .bits bits) ∨ (src = true ∧ s.din = .none ∧ s.vec = some bits)

/-- Items 1 to 4 of 40_register_model.md R104, as it words them. -/
structure TreeShape (P : Params) (t : RegisterTree) : Prop where
  chips : 1 ≤ t.length ∧ t.length ≤ P.maxChips
  namesDistinct : ∀ chip ∈ t, (chip.groups.map TreeGroup.name).Nodup
  namesKnown : ∀ chip ∈ t, ∀ g ∈ chip.groups, g.name ∈ P.groupOrder
  namesPresent : ∀ chip ∈ t, ∀ n ∈ P.groupOrder, ∃ g ∈ chip.groups, g.name = n
  fieldCount : ∀ chip ∈ t, ∀ g ∈ chip.groups, g.fields.length ≤ 65536
  fieldNames : ∀ chip ∈ t, ∀ g ∈ chip.groups, (g.fields.map TreeField.name).Nodup
  widths : ∀ chip ∈ t, ∀ g ∈ chip.groups, ∀ f ∈ g.fields, 1 ≤ f.bitWidth

/-! ## Invariants -/

/-- Every written control register holds a value CREG_WR may store, and reserved bits read 0 (10_state.md R30 to R36,
R38). -/
structure RegistersLegal (s : State) : Prop where
  ctrl : s.ctrl &&& 0xFFF8#16 = 0#16
  clkdiv : ∀ v, s.clkdiv = some v → 1 ≤ v.toNat
  chipCount : ∀ v, s.chipCount = some v → 1 ≤ v.toNat ∧ v.toNat ≤ 32
  frameLen : ∀ v, s.frameLen = some v → v = 5#16 ∨ v = 8#16
  samplePeriod : ∀ v, s.samplePeriod = some v → 1 ≤ v.toNat
  frameOpc : ∀ v, s.frameOpc = some v → v.toNat ≤ 0xFF
  srAddr : ∀ v, s.srAddr = some v → v.toNat ≤ 0xFF
  errlocCg : s.errlocCg &&& 0xFF00#16 = 0#16

/-- The shape of a loaded chain (10_state.md R22 to R25). -/
structure ChainShape (P : Params) (cfg : Chain) : Prop where
  chips : 1 ≤ cfg.length ∧ cfg.length ≤ P.maxChips
  groups : ∀ chip ∈ cfg, chip.groups.map RegisterGroup.name = P.groupOrder
  fieldCount : ∀ chip ∈ cfg, ∀ g ∈ chip.groups, g.fields.length ≤ 65536
  fieldNames : ∀ chip ∈ cfg, ∀ g ∈ chip.groups, (g.fields.map RegisterField.name).Nodup
  widths : ∀ chip ∈ cfg, ∀ g ∈ chip.groups, ∀ f ∈ g.fields, 1 ≤ f.width

/-- The register model, where there is one, has the shape CFG_LOAD checks. -/
def CfgShaped (s : State) : Prop := ∀ cfg, s.cfg = some cfg → ChainShape params cfg

/-- HDRSET, where valid, is the header set of the current CHIP_COUNT, FRAME_LEN and CTRL.WIRE_REV (10_state.md R42,
20_memory.md R68). -/
def HdrsetCurrent (s : State) : Prop :=
  ∀ hs, s.hdrset = some hs →
    ∃ n b, s.chipCount = some n ∧ s.frameLen = some b ∧ hs = headerSet n.toNat b.toNat s.wireRev

/-- VEC, where valid, is a vector of the current CFG and CTRL.MSBFIRST: the chain's, or one group's row vector
(10_state.md R43, 70_reset_and_hazards.md R315). -/
def VecCurrent (s : State) : Prop :=
  ∀ v, s.vec = some v → ∃ cfg, s.cfg = some cfg ∧
    (chainVec params s.msbFirst cfg = .ok v ∨
      ∃ c g chip grp, groupAt params cfg c g = some (chip, grp) ∧ rowVec params s.msbFirst c g grp = .ok v)

/-- The derived buffers are never stale (20_memory.md R68). -/
structure BuffersCurrent (s : State) : Prop where
  cfgShaped : CfgShaped s
  hdrset : HdrsetCurrent s
  vec : VecCurrent s

end Sys2Proof.Machine
end

