-- ==== Sys2Proof/Certificates/Slice0/Obligations.lean ====
section
/-! DEFINITION. The statements for the provers, from the numbered rules of spec/. In the equations `{ s with … }`, `resp`
is what the command responds (00_scope.md R13; nothing where it does not, 40_register_model.md R100), `din` its operand
DIN and `host` the command list of 20_memory.md R63: State holds them as log entries 1 to 3 say. -/

open Sys2Proof Sys2Proof.Machine

/-! ## Command words (30_encoding.md) -/

/-- R71, R91: every instruction, with every value of every field, is what its word decodes to. -/
def Obligations.EncodedCommandsDecodeBack : Prop := ∀ i : Instr, decode (encode i) = .ok i

/-- R91: every word that decodes is the word of the instruction it decodes to, so no bit of it is dropped. -/
def Obligations.DecodedWordsEncodeBack : Prop := ∀ (w : Word) (i : Instr), decode w = .ok i → encode i = w

/-- R91: a word is command X iff `W & mask(X) = match(X)`; a command is told by its row of R91. -/
def Obligations.WordIsCommandIffMatchMask : Prop :=
  ∀ (w : Word) (i : Instr),
    (∃ j, decode w = .ok j ∧ matchMask j = matchMask i) ↔ w &&& (matchMask i).2 = (matchMask i).1

/-- R83, R84: a word whose opcode is outside the map, or that has an assigned opcode and a reserved bit set (a bit of
`mask` of R91, LOAD of the readback commands and IMM16 of CREG_RD among them), raises IllegalCommand with no other
effect. -/
def Obligations.ReservedWordsRaiseIllegalCommand : Prop :=
  ∀ (s : State) (c : Command) (rest : List Command), s.host = c :: rest →
    (∀ i : Instr, c.word.extractLsb' 24 8 = (matchMask i).1.extractLsb' 24 8 →
      c.word &&& (matchMask i).2 ≠ (matchMask i).1) →
    step s = .next { s with host := rest, din := c.din, cause := .illegalCommand, resp := .nothing }

/-- Words written out from R71 and R91 (the encodings of 95_test_vectors.md). -/
def Obligations.WrittenOutWordsDecode : Prop :=
  decode 0x03030000#32 = .ok (.fieldWr 0 3 0) ∧ decode 0x03080000#32 = .ok (.fieldWr 1 0 0) ∧
  decode 0x05010010#32 = .ok (.cregWr 1 16) ∧ decode 0x06100000#32 = .ok (.cregRd 0x10) ∧
  decode 0x11040000#32 = .ok (.buildRow 0 4) ∧ decode 0x12000011#32 = .ok (.bitrev 17) ∧
  decode 0x22123400#32 = .ok (.addrFrame 0x12 0x34) ∧ decode 0x23030000#32 = .ok (.srWrite true true) ∧
  decode 0x24000000#32 = .ok (.srRbWrite false) ∧ decode 0x36000010#32 = .ok (.acquireRx 16) ∧
  decode 0x07000000#32 = .error (.reservedOpcode 0x07) ∧ decode 0x21010000#32 = .error (.reservedBits 0x21010000) ∧
  decode 0x06100001#32 = .error (.reservedBits 0x06100001) ∧ decode 0x11000001#32 = .error (.reservedBits 0x11000001)

/-! ## One step -/

/-- Where the host's next command decodes, the step runs exactly that instruction, with the command's operand as DIN and
the command taken off what the host has issued (log entry 1). -/
def Obligations.StepRunsTheDecodedCommand : Prop :=
  ∀ (s : State) (c : Command) (rest : List Command) (i : Instr), s.host = c :: rest → decode c.word = .ok i →
    step s = exec i { s with host := rest, din := c.din }

/-- R85: an operand of the wrong kind raises IllegalCommand, whatever the command. -/
def Obligations.WrongOperandKindRaisesIllegalCommand : Prop :=
  ∀ (i : Instr) (s : State), dinKindOk i s.din = false → exec i s = .next (s.failed .illegalCommand)

/-- R280: no error stops the core. A step is never refused, and it faults only where a transport call is scheduled never
to return (R325; the fault is the model's, log entry 5). -/
def Obligations.OnlyAHangingTransportStopsTheCore : Prop :=
  ∀ s : State, (∀ r, step s ≠ .refused r) ∧
    (∀ f, step s = .fault f → WriteAnswer.never ∈ s.writeAnswers ∨ ReadAnswer.never ∈ s.readAnswers)

/-! ## Whole-machine rules -/

/-- R284: a command that raises changes nothing but STATUS, ERRLOC_CG and ERRLOC_F (where R286 has the error located, and
there with the triple), FAULTCNT (on DecodeFault), and TXLOG by the frames SR_WRITE or SR_RB_WRITE sent before the one
that failed. -/
def Obligations.ErrorsArePrecise : Prop :=
  ∀ (i : Instr) (s t : State), exec i s = .next t → t.cause ≠ .none →
    (t.cfg = s.cfg ∧ t.vec = s.vec ∧ t.hdrset = s.hdrset) ∧
    (t.ctrl = s.ctrl ∧ t.clkdiv = s.clkdiv ∧ t.chipCount = s.chipCount ∧ t.frameLen = s.frameLen ∧
      t.samplePeriod = s.samplePeriod ∧ t.frameOpc = s.frameOpc ∧ t.srAddr = s.srAddr) ∧
    (t.faultCnt = if t.cause = .decodeFault then faultCntSucc s.faultCnt else s.faultCnt) ∧
    ((∃ a, ErrorAt i s t.cause a) → ∃ a, ErrorAt i s t.cause a ∧
      t.errlocCg = BitVec.ofNat 16 (a.chip % 32 * 8 + a.grp % 8) ∧ t.errlocF = BitVec.ofNat 16 a.fld) ∧
    ((¬ ∃ a, ErrorAt i s t.cause a) → t.errlocCg = s.errlocCg ∧ t.errlocF = s.errlocF) ∧
    (t.txlog ≠ s.txlog → t.cause = .transportError ∧ ∃ src load frames j,
      ((i = .srWrite src load ∧ planWrite src load s = .ok frames) ∨
        (i = .srRbWrite src ∧ planRbWrite src s = .ok frames)) ∧
      j < frames.length ∧ t.txlog = s.txlog ++ frames.take j) ∧
    t.resp = .nothing

/-- R40, R208: FAULTCNT counts, saturating, each PREFILTER, ACQUIRE and ACQUIRE_RX that ends with DecodeFault, is cleared
by each that ends without error and kept by each that ends with another; RESET apart, no other command changes it. -/
def Obligations.FaultcntCountsConsecutiveFaults : Prop :=
  ∀ (i : Instr) (s t : State), exec i s = .next t →
    (i = .prefilter ∨ i = .acquire ∨ (∃ n, i = .acquireRx n) → t.faultCnt =
      if t.cause = .decodeFault then BitVec.ofNat 16 (min (s.faultCnt.toNat + 1) 0xFFFF)
      else if t.cause = .none then 0x0000#16
      else s.faultCnt) ∧
    (i ≠ .prefilter → i ≠ .acquire → (∀ n, i ≠ .acquireRx n) → i ≠ .reset → t.faultCnt = s.faultCnt)

/-- R282 ("[derived: from the command rules of files 40 to 44]"): which command may end with which cause; a cause the table
does not mark for a command never ends it. -/
def Obligations.CausesFollowTheTable : Prop :=
  ∀ (i : Instr) (s t : State), exec i s = .next t → t.cause ∈ mayEndWith i

/-- The frame of every command: each element of R20 is changed only by the commands whose rules name it under "State
written", and TXLOG only grows. That the transport's answers and draws change only in the commands that call it (log
entry 4), and that DIN and the commands still to run stay (log entries 1 and 2), RESET among them (log entry 17), is
said of the model's own fields. -/
def Obligations.EachElementHasItsWriters : Prop :=
  ∀ (i : Instr) (s t : State), exec i s = .next t →
    (t.cfg ≠ s.cfg → i = .reset ∨ i = .cfgLoad ∨ ∃ c g f, i = .fieldWr c g f) ∧
    (t.vec ≠ s.vec → i = .reset ∨ i = .cfgLoad ∨ i = .buildVec ∨ (∃ c g, i = .buildRow c g) ∨
      (∃ c g f, i = .fieldWr c g f) ∨ ∃ imm, i = .cregWr 0x00 imm) ∧
    (t.hdrset ≠ s.hdrset → i = .reset ∨ i = .hdrInit ∨
      ∃ crn imm, i = .cregWr crn imm ∧ (crn = 0x00#8 ∨ crn = 0x02#8 ∨ crn = 0x03#8)) ∧
    (t.ctrl ≠ s.ctrl → i = .reset ∨ ∃ imm, i = .cregWr 0x00 imm) ∧
    (t.clkdiv ≠ s.clkdiv → i = .reset ∨ ∃ imm, i = .cregWr 0x01 imm) ∧
    (t.chipCount ≠ s.chipCount → i = .reset ∨ ∃ imm, i = .cregWr 0x02 imm) ∧
    (t.frameLen ≠ s.frameLen → i = .reset ∨ ∃ imm, i = .cregWr 0x03 imm) ∧
    (t.samplePeriod ≠ s.samplePeriod → i = .reset ∨ ∃ imm, i = .cregWr 0x04 imm) ∧
    (t.frameOpc ≠ s.frameOpc → i = .reset ∨ ∃ imm, i = .cregWr 0x05 imm) ∧
    (t.srAddr ≠ s.srAddr → i = .reset ∨ ∃ imm, i = .cregWr 0x06 imm) ∧
    (t.errlocCg ≠ s.errlocCg ∨ t.errlocF ≠ s.errlocF → i = .reset ∨ i = .buildVec ∨ (∃ c g, i = .buildRow c g) ∨
      ∃ c g f, i = .fieldWr c g f ∨ i = .fieldRd c g f) ∧
    (t.faultCnt ≠ s.faultCnt → i = .reset ∨ i = .prefilter ∨ i = .acquire ∨ ∃ n, i = .acquireRx n) ∧
    (t.txlog ≠ s.txlog → (∃ src load, i = .srWrite src load) ∨ ∃ src, i = .srRbWrite src) ∧
    (t.writeAnswers ≠ s.writeAnswers → (∃ src load, i = .srWrite src load) ∨ ∃ src, i = .srRbWrite src) ∧
    (t.readAnswers ≠ s.readAnswers → ∃ n, i = .acquireRx n) ∧
    (t.draws ≠ s.draws → (∃ src load, i = .srWrite src load) ∨ (∃ src, i = .srRbWrite src) ∨ ∃ n, i = .acquireRx n) ∧
    s.txlog <+: t.txlog ∧ t.din = s.din ∧ t.host = s.host

/-- An invariant from R30 to R36, R38, R109: a step leaves every written control register at a legal value and every
reserved bit 0. -/
def Obligations.RegistersStayLegal : Prop :=
  ∀ s t : State, RegistersLegal s → step s = .next t → RegistersLegal t

/-- An invariant from R24, R42, R43, R68 and R315 (which the spec derives): after a step the register model has the shape
CFG_LOAD checks, HDRSET is the header set of the current registers, and VEC is a vector of the current CFG and MSBFIRST. -/
def Obligations.BuffersStayCurrent : Prop := ∀ s t : State, BuffersCurrent s → step s = .next t → BuffersCurrent t

/-- The two invariants hold at power-on. -/
def Obligations.PowerOnMeetsTheInvariants : Prop := RegistersLegal State.reset ∧ BuffersCurrent State.reset

/-- R311: the power-on value of every piece of state the rule lists, and TXLOG unchanged by RESET. -/
def Obligations.PowerOnValues : Prop :=
  State.reset.cfg = none ∧ State.reset.vec = none ∧ State.reset.hdrset = none ∧ State.reset.ctrl = 0x0000#16 ∧
  State.reset.msbFirst = false ∧ State.reset.wireRev = false ∧ State.reset.prefilterEn = false ∧
  State.reset.clkdiv = none ∧ State.reset.chipCount = none ∧ State.reset.frameLen = none ∧
  State.reset.samplePeriod = none ∧ State.reset.frameOpc = none ∧ State.reset.srAddr = none ∧
  State.reset.status = 0x0000#16 ∧ State.reset.errlocCg = 0x0000#16 ∧ State.reset.errlocF = 0x0000#16 ∧
  State.reset.faultCnt = 0x0000#16 ∧ State.reset.txlog = [] ∧
  ∀ s t : State, exec .reset s = .next t → t.txlog = s.txlog

/-- R37: STATUS is CAUSE in bits 7:0 and the three validity views in bits 8, 9 and 10; bits 15:11 are 0. R281: the codes
of the causes are 0 to 6 in the order of its table. -/
def Obligations.StatusShowsCauseAndValidity : Prop :=
  (∀ s : State, s.status.toNat = s.cause.code.toNat + (if s.cfg = none then 0 else 256) +
    (if s.vec = none then 0 else 512) + (if s.hdrset = none then 0 else 1024)) ∧
  Cause.none.code = 0#8 ∧ Cause.configError.code = 1#8 ∧ Cause.configNotInitialized.code = 2#8 ∧
  Cause.outOfRange.code = 3#8 ∧ Cause.transportError.code = 4#8 ∧ Cause.decodeFault.code = 5#8 ∧
  Cause.illegalCommand.code = 6#8

/-- R69, R240: what an ACQUIRE, SCAN or PREFILTER answers depends on its own operand, HDRSET, FRAME_LEN, SAMPLE_PERIOD and
CTRL alone: nothing of an earlier readout is retained. -/
def Obligations.ReadoutsAreNotRetained : Prop :=
  ∀ (i : Instr) (s₁ s₂ t₁ t₂ : State), i = .acquire ∨ i = .scan ∨ i = .prefilter →
    s₁.din = s₂.din → s₁.hdrset = s₂.hdrset → s₁.frameLen = s₂.frameLen → s₁.samplePeriod = s₂.samplePeriod →
    s₁.ctrl = s₂.ctrl → exec i s₁ = .next t₁ → exec i s₂ = .next t₂ → t₁.resp = t₂.resp ∧ t₁.cause = t₂.cause

/-! ## Sequencer and register model (40_register_model.md) -/

/-- R101: NOP is the zero word and writes STATUS only; its one error is the decoding error of an operand. -/
def Obligations.NopWritesStatusOnly : Prop :=
  encode .nop = 0x00000000#32 ∧
  ∀ s : State,
    (s.din = .none → exec .nop s = .next { s with cause := .none, resp := .nothing }) ∧
    (s.din ≠ .none → exec .nop s = .next (s.failed .illegalCommand))

/-- R102: RESET puts every element of R20 but TXLOG to its reset value, leaves STATUS 0 and does not call the transport;
its one error is the decoding error of an operand. That it calls no transport is said through the answers and draws State
holds (log entry 4), which the model has RESET leave alone (log entry 17). -/
def Obligations.ResetRestoresPowerOnState : Prop :=
  encode .reset = 0x01000000#32 ∧
  ∀ s : State,
    (s.din = .none → ∃ t : State, exec .reset s = .next t ∧
      t.cfg = none ∧ t.vec = none ∧ t.hdrset = none ∧ t.ctrl = 0x0000#16 ∧ t.clkdiv = none ∧ t.chipCount = none ∧
      t.frameLen = none ∧ t.samplePeriod = none ∧ t.frameOpc = none ∧ t.srAddr = none ∧ t.errlocCg = 0x0000#16 ∧
      t.errlocF = 0x0000#16 ∧ t.faultCnt = 0x0000#16 ∧ t.status = 0x0000#16 ∧ t.txlog = s.txlog ∧
      t.writeAnswers = s.writeAnswers ∧ t.readAnswers = s.readAnswers ∧ t.draws = s.draws ∧ t.resp = .nothing) ∧
    (s.din ≠ .none → exec .reset s = .next (s.failed .illegalCommand))

/-- R104, R105: a tree with the shape of R104 items 1 to 4 becomes the register model, its groups in GROUP_ORDER order and
their fields in declared order, where CFG_EXTRA_CHECK holds too: of the chain loaded, as R8 types it, where item 5 of
R104 writes the tree (log entry 9). Any other tree raises ConfigError and the previous model is kept. -/
def Obligations.CfgLoadPopulatesTheModel : Prop :=
  ∀ (s : State) (t : RegisterTree), s.din = .tree t →
    (TreeShape params t → ∃ cfg : Chain,
      exec .cfgLoad s = .next (if params.cfgExtraCheck cfg
        then { s with cfg := some cfg, vec := none, cause := .none, resp := .nothing }
        else s.failed .configError) ∧
      cfg.length = t.length ∧
      ∀ (c : Nat) (chip : TreeChip), t[c]? = some chip → ∃ ch : ChipConfig, cfg[c]? = some ch ∧
        ch.version = chip.version ∧ ch.rows = chip.rows ∧ ch.cols = chip.cols ∧
        ch.groups.map RegisterGroup.name = ["digital", "bias", "idac", "vdac", "recconfig"] ∧
        ∀ g ∈ chip.groups, ∀ grp ∈ ch.groups, g.name = grp.name →
          grp.fields = g.fields.map fun f => ⟨f.name, f.bitWidth, f.value⟩) ∧
    (¬ TreeShape params t → exec .cfgLoad s = .next (s.failed .configError))

/-- R103: the order of the groups in the tree carries no meaning. Two trees that differ in it alone are both loaded, to the
same register model, or both refused, and CFG_LOAD leaves the same state but for the operand itself. -/
def Obligations.GroupOrderCarriesNoMeaning : Prop :=
  ∀ (s : State) (t t' : RegisterTree), s.din = .tree t →
    List.Forall₂ (fun a b : TreeChip => a.version = b.version ∧ a.rows = b.rows ∧ a.cols = b.cols ∧
      a.groups.Perm b.groups) t t' →
    ∃ u : State, exec .cfgLoad s = .next u ∧
      exec .cfgLoad { s with din := .tree t' } = .next { u with din := .tree t' }

/-- R106: FIELD_WR sets one field's value, whatever the value, and clears VEC; every other field, and every name, width
and position, stays. With no register model it raises ConfigNotInitialized, and for a triple that names no field
ConfigError with the triple in ERRLOC. -/
def Obligations.FieldWriteSetsOneValue : Prop :=
  ∀ (s : State) (c : BitVec 5) (g : BitVec 3) (f : BitVec 16) (v : Nat), s.din = .val v →
    (s.cfg = none → exec (.fieldWr c g f) s = .next (s.failed .configNotInitialized)) ∧
    ∀ cfg : Chain, s.cfg = some cfg →
      (∀ fld : RegisterField, fieldAt params cfg ⟨c.toNat, g.toNat, f.toNat⟩ = some fld →
        ∃ cfg' : Chain,
          exec (.fieldWr c g f) s = .next { s with cfg := some cfg', vec := none, cause := .none, resp := .nothing } ∧
          fieldAt params cfg' ⟨c.toNat, g.toNat, f.toNat⟩ = some { fld with value := v } ∧
          (∀ a : FieldAddr, a ≠ ⟨c.toNat, g.toNat, f.toNat⟩ → fieldAt params cfg' a = fieldAt params cfg a) ∧
          eraseValues cfg' = eraseValues cfg) ∧
      ((∀ chip grp fld, cfg[c.toNat]? = some chip → g.toNat < 5 → chip.groups[g.toNat]? = some grp →
          grp.fields[f.toNat]? ≠ some fld) →
        exec (.fieldWr c g f) s = .next (s.failedAt .configError c.toNat g.toNat f.toNat))

/-- R107: FIELD_RD responds the stored value; its errors are those of FIELD_WR. -/
def Obligations.FieldReadResponds : Prop :=
  ∀ (s : State) (c : BitVec 5) (g : BitVec 3) (f : BitVec 16), s.din = .none →
    (s.cfg = none → exec (.fieldRd c g f) s = .next (s.failed .configNotInitialized)) ∧
    ∀ cfg : Chain, s.cfg = some cfg →
      (∀ chip grp fld, cfg[c.toNat]? = some chip → g.toNat < 5 → chip.groups[g.toNat]? = some grp →
        grp.fields[f.toNat]? = some fld →
        exec (.fieldRd c g f) s = .next { s with cause := .none, resp := .value fld.value }) ∧
      ((∀ chip grp fld, cfg[c.toNat]? = some chip → g.toNat < 5 → chip.groups[g.toNat]? = some grp →
          grp.fields[f.toNat]? ≠ some fld) →
        exec (.fieldRd c g f) s = .next (s.failedAt .configError c.toNat g.toNat f.toNat))

/-- R108 to R110: CREG_WR of a legal value stores the register, CTRL's reserved bits dropped, and invalidates what the
register feeds; an illegal value raises ConfigError, an unassigned or read-only number IllegalCommand. -/
def Obligations.CregWriteStoresAndInvalidates : Prop :=
  ∀ (s : State) (imm : BitVec 16), s.din = .none →
    (exec (.cregWr 0x00 imm) s = .next
      { s with ctrl := imm &&& 0x0007#16, vec := none, hdrset := none, cause := .none, resp := .nothing }) ∧
    (exec (.cregWr 0x01 imm) s = .next (if 1 ≤ imm.toNat
      then { s with clkdiv := some imm, cause := .none, resp := .nothing }
      else s.failed .configError)) ∧
    (exec (.cregWr 0x02 imm) s = .next (if 1 ≤ imm.toNat ∧ imm.toNat ≤ 32
      then { s with chipCount := some imm, hdrset := none, cause := .none, resp := .nothing }
      else s.failed .configError)) ∧
    (exec (.cregWr 0x03 imm) s = .next (if imm.toNat = 5 ∨ imm.toNat = 8
      then { s with frameLen := some imm, hdrset := none, cause := .none, resp := .nothing }
      else s.failed .configError)) ∧
    (exec (.cregWr 0x04 imm) s = .next (if 1 ≤ imm.toNat
      then { s with samplePeriod := some imm, cause := .none, resp := .nothing }
      else s.failed .configError)) ∧
    (exec (.cregWr 0x05 imm) s = .next (if imm.toNat ≤ 0xFF
      then { s with frameOpc := some imm, cause := .none, resp := .nothing }
      else s.failed .configError)) ∧
    (exec (.cregWr 0x06 imm) s = .next (if imm.toNat ≤ 0xFF
      then { s with srAddr := some imm, cause := .none, resp := .nothing }
      else s.failed .configError)) ∧
    ∀ crn : BitVec 8, 7 ≤ crn.toNat → exec (.cregWr crn imm) s = .next (s.failed .illegalCommand)

/-- R111: CREG_RD responds the register, STATUS as the command before left it; an unwritten register raises
ConfigNotInitialized and an unassigned number IllegalCommand. -/
def Obligations.CregReadRespondsOrRaises : Prop :=
  ∀ s : State, s.din = .none →
    let answers (crn : BitVec 8) (v : Half) : Prop :=
      exec (.cregRd crn) s = .next { s with cause := .none, resp := .value v.toNat }
    let reads (crn : BitVec 8) (r : Option Half) : Prop :=
      (∀ v, r = some v → answers crn v) ∧
      (r = none → exec (.cregRd crn) s = .next (s.failed .configNotInitialized))
    answers 0x00 s.ctrl ∧ reads 0x01 s.clkdiv ∧ reads 0x02 s.chipCount ∧ reads 0x03 s.frameLen ∧
    reads 0x04 s.samplePeriod ∧ reads 0x05 s.frameOpc ∧ reads 0x06 s.srAddr ∧ answers 0x10 s.status ∧
    answers 0x11 s.errlocCg ∧ answers 0x12 s.errlocF ∧ answers 0x13 s.faultCnt ∧
    ∀ crn : BitVec 8, (7 ≤ crn.toNat ∧ crn.toNat ≤ 15) ∨ 20 ≤ crn.toNat →
      exec (.cregRd crn) s = .next (s.failed .illegalCommand)

/-! ## Serializer and bit utilities (41_serializer.md) -/

/-- R130 to R133, R136: BUILD_VEC stores and responds the chain vector: fields MSB first but vdac's LSB first, groups and
fields in order, each chip reversed unless MSBFIRST, the highest chip index first. -/
def Obligations.BuildVecStoresTheChainVector : Prop :=
  ∀ (s : State) (cfg : Chain) (v : List Bit), s.din = .none → s.cfg = some cfg →
    (∀ chip ∈ cfg, ∀ grp ∈ chip.groups, ∀ fld ∈ grp.fields, fld.Fits) →
    v = (cfg.reverse.flatMap fun chip =>
      let bits := chip.groups.flatMap fun grp => grp.fields.flatMap fun fld =>
        let msbFirst := (List.range fld.width).map fun i => fld.value.testBit (fld.width - 1 - i)
        if grp.name = "vdac" then msbFirst.reverse else msbFirst
      if s.ctrl.getLsbD 0 then bits else bits.reverse) →
    exec .buildVec s = .next { s with vec := some v, cause := .none, resp := .bits v }

/-- R134, R135, R286: BUILD_VEC before the register model is populated raises ConfigNotInitialized; the OutOfRange
reported is the first in processing order: chips from the highest index down, then groups, then fields; VEC stays. -/
def Obligations.BuildVecReportsTheFirstMisfit : Prop :=
  ∀ s : State, s.din = .none →
    (s.cfg = none → exec .buildVec s = .next (s.failed .configNotInitialized)) ∧
    ∀ (cfg : Chain) (c g f : Nat) (chip : ChipConfig) (grp : RegisterGroup) (fld : RegisterField),
      s.cfg = some cfg → cfg[c]? = some chip → chip.groups[g]? = some grp → grp.fields[f]? = some fld → ¬ fld.Fits →
      (∀ c' chip', c < c' → cfg[c']? = some chip' → ∀ grp' ∈ chip'.groups, ∀ fld' ∈ grp'.fields, fld'.Fits) →
      (∀ g' grp', g' < g → chip.groups[g']? = some grp' → ∀ fld' ∈ grp'.fields, fld'.Fits) →
      (∀ f' fld', f' < f → grp.fields[f']? = some fld' → fld'.Fits) →
      exec .buildVec s = .next (s.failedAt .outOfRange c g f)

/-- R137: BUILD_ROW stores and responds the vector of one group, where ROW_TRIM_OK holds of the chip; it raises
ConfigNotInitialized with no register model, ConfigError for no such chip or group, located at `(c, g, 0)`, and for
ROW_TRIM_OK false, and then OutOfRange at the first field that does not fit. -/
def Obligations.BuildRowStoresTheRowVector : Prop :=
  ∀ (s : State) (c : BitVec 5) (g : BitVec 3), s.din = .none →
    (s.cfg = none → exec (.buildRow c g) s = .next (s.failed .configNotInitialized)) ∧
    ∀ cfg : Chain, s.cfg = some cfg →
      (cfg.length ≤ c.toNat ∨ 5 ≤ g.toNat →
        exec (.buildRow c g) s = .next (s.failedAt .configError c.toNat g.toNat 0)) ∧
      ∀ (chip : ChipConfig) (grp : RegisterGroup), cfg[c.toNat]? = some chip → g.toNat < 5 →
        chip.groups[g.toNat]? = some grp →
        (∀ v : List Bit, (∀ fld ∈ grp.fields, fld.Fits) →
          v = (let bits := grp.fields.flatMap fun fld =>
                let msbFirst := (List.range fld.width).map fun i => fld.value.testBit (fld.width - 1 - i)
                if grp.name = "vdac" then msbFirst.reverse else msbFirst
              if s.ctrl.getLsbD 0 then bits else bits.reverse) →
          exec (.buildRow c g) s = .next (if params.rowTrimOk chip
            then { s with vec := some v, cause := .none, resp := .bits v }
            else s.failed .configError)) ∧
        ∀ (f : Nat) (fld : RegisterField), grp.fields[f]? = some fld → ¬ fld.Fits →
          (∀ f' fld', f' < f → grp.fields[f']? = some fld' → fld'.Fits) →
          exec (.buildRow c g) s = .next (if params.rowTrimOk chip
            then s.failedAt .outOfRange c.toNat g.toNat f
            else s.failed .configError)

/-- R138 ("[derived: from rules R130 to R133]"): `parse`, given the widths and names alone, recovers every field value from
the chain vector, for both values of MSBFIRST and every parameter set; and the vector has `Σ width` bits (R136). -/
def Obligations.ParseRecoversEveryValue : Prop :=
  ∀ (P : Params) (msb : Bool) (cfg : Chain) (v : List Bit), chainVec P msb cfg = .ok v →
    parseChain P msb (eraseValues cfg) v = cfg ∧ v.length = (cfg.map fun chip => groupsWidth chip.groups).sum

/-- R79, R140: BITREV responds the value with its low `w` bits reversed; a width outside 1..64 is IllegalCommand, a
value of more than `w` bits OutOfRange. -/
def Obligations.BitrevRespondsTheReversal : Prop :=
  ∀ (s : State) (w : BitVec 8) (v : Nat), s.din = .val v →
    (1 ≤ w.toNat → w.toNat ≤ 64 → v < 2 ^ w.toNat →
      ∃ r : Nat, exec (.bitrev w) s = .next { s with cause := .none, resp := .value r } ∧ r < 2 ^ w.toNat ∧
        ∀ i < w.toNat, r.testBit i = v.testBit (w.toNat - 1 - i)) ∧
    (w.toNat = 0 ∨ 64 < w.toNat → exec (.bitrev w) s = .next (s.failed .illegalCommand)) ∧
    (1 ≤ w.toNat → w.toNat ≤ 64 → 2 ^ w.toNat ≤ v → exec (.bitrev w) s = .next (s.failed .outOfRange))

/-- R141 ("[derived: from 00_scope.md rule R12]"): bit reversal is an involution below `2^w`, and whole-byte reversal, which
puts bit `7 - i` at bit `i` (R12), is a bijection on bytes. -/
def Obligations.BitReversalIsAnInvolution : Prop :=
  (∀ v w : Nat, v < 2 ^ w → bitrev (bitrev v w) w = v) ∧
  (∀ (x : Byte) (i : Nat), i < 8 → (bitrev8 x).getLsbD i = x.getLsbD (7 - i)) ∧ Function.Bijective bitrev8

/-- R143, by the reading of R142 that the spec derives from its loop: GRAY_DEC responds the Gray-decoded value: bit `i` is
the parity of `g >> i`, and no bit is added. -/
def Obligations.GrayDecRespondsTheDecodedValue : Prop :=
  ∀ (s : State) (g : Nat), s.din = .val g →
    ∃ r : Nat, exec .grayDec s = .next { s with cause := .none, resp := .value r } ∧
      (∀ i, r.testBit i = decide ((((List.range (g.log2 + 1)).filter fun k => (g >>> i).testBit k).length) % 2 = 1)) ∧
      ∀ k, g < 2 ^ k → r < 2 ^ k

/-- R144: Gray decoding undoes Gray encoding, for every natural. The encoder is the spec's "from general knowledge"; log
entry 18. -/
def Obligations.GrayDecodeInvertsEncode : Prop := ∀ x : Nat, grayDec (grayEnc x) = x

/-! ## Framing engine (42_framing.md) -/

/-- R170, by R160 to R164: SR_PATTERN responds the waveform, with the strobe after it where LOAD is 1; SRC = 1 with
VEC = ⊥, and CLKDIV unwritten, raise ConfigNotInitialized. -/
def Obligations.SrPatternRespondsTheWaveform : Prop :=
  ∀ (s : State) (src load : Bool),
    (src = true → s.din = .none → s.vec = none →
      exec (.srPattern src load) s = .next (s.failed .configNotInitialized)) ∧
    ∀ bits : List Bit, SourceIs s src bits →
      (s.clkdiv = none → exec (.srPattern src load) s = .next (s.failed .configNotInitialized)) ∧
      ∀ k : Half, s.clkdiv = some k →
        exec (.srPattern src load) s = .next { s with
          cause := .none
          resp := .bytes
            (((bits.flatMap fun d =>
                let line := if d then params.pinSin else 0x00#8
                [line, line ||| params.pinCk1, line, line ||| params.pinCk2, line]).flatMap (List.replicate k.toNat)) ++
              if load then List.replicate (k.toNat * 10) 0x00#8 ++ List.replicate (k.toNat * 10) params.pinLd ++
                List.replicate (k.toNat * 10) 0x00#8
              else []) }

/-- R171, by R166 and R167: SR_RB_PATTERN responds the preamble, unstretched, then the waveform with PIN_RB in every byte;
SRC = 1 with VEC = ⊥, and CLKDIV unwritten, raise ConfigNotInitialized. -/
def Obligations.SrRbPatternRespondsTheReadbackWaveform : Prop :=
  ∀ (s : State) (src : Bool),
    (src = true → s.din = .none → s.vec = none →
      exec (.srRbPattern src) s = .next (s.failed .configNotInitialized)) ∧
    ∀ bits : List Bit, SourceIs s src bits →
      (s.clkdiv = none → exec (.srRbPattern src) s = .next (s.failed .configNotInitialized)) ∧
      ∀ k : Half, s.clkdiv = some k →
        exec (.srRbPattern src) s = .next { s with
          cause := .none
          resp := .bytes (params.rbPreamble ++
            (bits.flatMap fun d =>
              let line := (if d then params.pinSin else 0x00#8)
              [line ||| params.pinRb, line ||| params.pinCk1 ||| params.pinRb, line ||| params.pinRb,
                line ||| params.pinCk2 ||| params.pinRb, line ||| params.pinRb]).flatMap (List.replicate k.toNat)) }

/-- R165 and the length of R167 (both "[derived]" in the spec): the lengths of both patterns, for every parameter set. -/
def Obligations.PatternLengths : Prop :=
  ∀ (P : Params) (k : Nat) (bits : List Bit) (load : Bool),
    (genPattern P k bits load).length = 5 * bits.length * k + (if load then 3 * k * P.nLoad else 0) ∧
    (genRb P k bits).length = P.rbPreamble.length + 5 * bits.length * k

/-- R168, R172: ADDR_FRAME responds the header, with the payload length high byte first, then the payload; a payload of
more than 65535 bytes raises OutOfRange. -/
def Obligations.AddrFrameRespondsTheFrame : Prop :=
  ∀ (s : State) (fopc faddr : BitVec 8) (p : List Byte), s.din = .bytes p →
    (p.length ≤ 65535 → ∃ hi lo : Byte, hi.toNat * 256 + lo.toNat = p.length ∧
      exec (.addrFrame fopc faddr) s = .next { s with cause := .none, resp := .bytes (fopc :: faddr :: hi :: lo :: p) }) ∧
    (65535 < p.length → exec (.addrFrame fopc faddr) s = .next (s.failed .outOfRange))

/-- R173 to R176: where the write is possible and the transport takes every frame, SR_WRITE cuts the vector into chunks of
K bits, appends one frame for each to TXLOG in order and responds their number (StrobeRidesInTheLastChunk says what each
payload is, ChunksPartitionTheVector what the chunks are). The transport's answers stand in State as log entry 4 says. -/
def Obligations.SrWriteSendsEveryFrame : Prop :=
  ∀ (s : State) (src load : Bool) (bits : List Bit) (k opc addr : Half) (frames : List (List Byte))
    (rest : List WriteAnswer),
    SourceIs s src bits → s.clkdiv = some k → s.frameOpc = some opc → s.srAddr = some addr →
    (if load then 30 * k.toNat else 0) ≤ 65535 →
    (bits = [] ∨ 1 ≤ (65535 - (if load then 30 * k.toNat else 0)) / (5 * k.toNat)) →
    frames = (writePayloads params k.toNat load
      (chunks ((65535 - (if load then 30 * k.toNat else 0)) / (5 * k.toNat)) bits)).map
        (frame (opc.setWidth 8) (addr.setWidth 8)) →
    s.writeAnswers = List.replicate frames.length .ok ++ rest →
    exec (.srWrite src load) s = .next
      { s with txlog := s.txlog ++ frames, writeAnswers := rest, cause := .none, resp := .value frames.length }

/-- R177: SR_RB_WRITE does the same with readback payloads, every chunk opened by the preamble. Its preamble is OPEN, so
the next state is written with an `if`: OutOfRange where the preamble leaves no room for a bit, or does not fit itself
(whatever the transport would answer: WritesCheckBeforeSending). The transport's answers are those of log entry 4. -/
def Obligations.SrRbWriteSendsEveryFrame : Prop :=
  ∀ (s : State) (src : Bool) (bits : List Bit) (k opc addr : Half) (frames : List (List Byte))
    (rest : List WriteAnswer),
    SourceIs s src bits → s.clkdiv = some k → s.frameOpc = some opc → s.srAddr = some addr →
    frames = (chunks ((65535 - params.rbPreamble.length) / (5 * k.toNat)) bits).map
      (fun c => frame (opc.setWidth 8) (addr.setWidth 8) (genRb params k.toNat c)) →
    s.writeAnswers = List.replicate frames.length .ok ++ rest →
    exec (.srRbWrite src) s = .next
      (if 65535 < params.rbPreamble.length ∨ (bits ≠ [] ∧ (65535 - params.rbPreamble.length) / (5 * k.toNat) = 0)
        then s.failed .outOfRange
        else { s with txlog := s.txlog ++ frames, writeAnswers := rest, cause := .none, resp := .value frames.length })

/-- R173, R176, R177: what the write commands check before they call the transport, whatever it would answer: VEC for
SRC = 1, then CLKDIV, FRAME_OPC and SR_ADDR, then that the strobe or the preamble fits and every chunk has room. -/
def Obligations.WritesCheckBeforeSending : Prop :=
  ∀ (s : State) (load : Bool),
    (s.din = .none → s.vec = none →
      exec (.srWrite true load) s = .next (s.failed .configNotInitialized) ∧
      exec (.srRbWrite true) s = .next (s.failed .configNotInitialized)) ∧
    (∀ src bits, SourceIs s src bits →
      (s.clkdiv = none ∨ s.frameOpc = none ∨ s.srAddr = none →
        exec (.srWrite src load) s = .next (s.failed .configNotInitialized) ∧
        exec (.srRbWrite src) s = .next (s.failed .configNotInitialized)) ∧
      (∀ k opc addr : Half, s.clkdiv = some k → s.frameOpc = some opc → s.srAddr = some addr →
        (65535 < (if load then 30 * k.toNat else 0) ∨
            (bits ≠ [] ∧ (65535 - (if load then 30 * k.toNat else 0)) / (5 * k.toNat) = 0) →
          exec (.srWrite src load) s = .next (s.failed .outOfRange)) ∧
        (65535 < params.rbPreamble.length ∨
            (bits ≠ [] ∧ (65535 - params.rbPreamble.length) / (5 * k.toNat) = 0) →
          exec (.srRbWrite src) s = .next (s.failed .outOfRange))))

/-- R178: when the transport fails a frame, the frames before it stay in TXLOG, that frame and the later ones are not
sent, nothing is retried, and the command raises TransportError. The transport's answers are those of log entry 4. -/
def Obligations.FailedWriteKeepsTheFramesSent : Prop :=
  ∀ (i : Instr) (s : State) (src load : Bool) (frames : List (List Byte)) (j : Nat) (rest : List WriteAnswer),
    (i = .srWrite src load ∧ planWrite src load s = .ok frames) ∨
      (i = .srRbWrite src ∧ planRbWrite src s = .ok frames) →
    j < frames.length → s.writeAnswers = List.replicate j .ok ++ .fail :: rest →
    exec i s = .next { s with
      txlog := s.txlog ++ frames.take j
      writeAnswers := rest
      cause := .transportError
      resp := .nothing }

/-- R297, R325: a command whose transport call never returns does not complete: the model's fault of log entry 5. -/
def Obligations.HangingTransportNeverCompletes : Prop :=
  (∀ (i : Instr) (s : State) (src load : Bool) (frames : List (List Byte)) (j : Nat) (rest : List WriteAnswer),
    (i = .srWrite src load ∧ planWrite src load s = .ok frames) ∨
      (i = .srRbWrite src ∧ planRbWrite src s = .ok frames) →
    j < frames.length → s.writeAnswers = List.replicate j .ok ++ .never :: rest →
    exec i s = .fault .transportNeverReturns) ∧
  ∀ (s : State) (n : BitVec 16) (seq : Nat) (t : Time) (hs : List Byte) (b : Half) (rest : List ReadAnswer),
    s.din = .stamp seq t → s.hdrset = some hs → s.frameLen = some b → (b = 5#16 → s.samplePeriod ≠ none) →
    s.readAnswers = .never :: rest → exec (.acquireRx n) s = .fault .transportNeverReturns

/-- R174: the chunks are the vector, in order; every chunk but the last has exactly K bits and the last has 1 to K. The
empty vector is one empty chunk, whatever K. -/
def Obligations.ChunksPartitionTheVector : Prop :=
  ∀ (K : Nat) (bits : List Bit), chunks K [] = [[]] ∧
    (1 ≤ K →
      (chunks K bits).flatten = bits ∧ (∀ c ∈ (chunks K bits).dropLast, c.length = K) ∧
      ∃ last, (chunks K bits).getLast? = some last ∧ last.length ≤ K ∧ (last = [] ↔ bits = []))

/-- R169, R176, R177: every frame of a possible SR_WRITE or SR_RB_WRITE carries the length of its own payload, at most
MAX_FRAME_LEN. -/
def Obligations.FramesStayWithinTheLimit : Prop :=
  ∀ (P : Params) (k : Nat) (opc addr : Byte) (bits : List Bit), P.maxFrameLen ≤ 65535 →
    let fits (f : List Byte) : Prop := ∃ (hi lo : Byte) (p : List Byte),
      f = opc :: addr :: hi :: lo :: p ∧ hi.toNat * 256 + lo.toNat = p.length ∧ p.length ≤ P.maxFrameLen
    (∀ load, writeImpossible P k (extraWrite P k load) bits = false →
      ∀ f ∈ writeFrames P k opc addr bits load, fits f) ∧
    (writeImpossible P k (extraRb P) bits = false → ∀ f ∈ rbFrames P k opc addr bits, fits f)

/-- R175: chunk `j` of `m` has payload `gen_pattern(chunk_j, load ∧ j = m−1)`: the strobe is in the last frame only. -/
def Obligations.StrobeRidesInTheLastChunk : Prop :=
  ∀ (P : Params) (k : Nat) (load : Bool) (cs : List (List Bit)) (j : Nat) (c : List Bit), cs[j]? = some c →
    (writePayloads P k load cs).length = cs.length ∧
    (writePayloads P k load cs)[j]? = some (genPattern P k c (load && decide (j = cs.length - 1)))

/-! ## Hit-frame locator (43_locator.md) -/

/-- R201, R202: HDR_INIT stores and responds the header set; without CHIP_COUNT or FRAME_LEN it raises
ConfigNotInitialized. -/
def Obligations.HdrInitComputesTheHeaderSet : Prop :=
  ∀ s : State, s.din = .none →
    (∀ (n b : Half) (hs : List Byte), s.chipCount = some n → s.frameLen = some b →
      hs = ((List.range n.toNat).map fun i =>
        let h : Byte := BitVec.ofNat 8 ((i <<< 3) ||| (b.toNat - 1))
        if s.ctrl.getLsbD 1 then bitrev8 h else h) →
      exec .hdrInit s = .next { s with hdrset := some hs, cause := .none, resp := .bytes hs }) ∧
    (s.chipCount = none ∨ s.frameLen = none → exec .hdrInit s = .next (s.failed .configNotInitialized))

/-- R203: the header set of n chips has exactly n distinct values. -/
def Obligations.HeaderSetIsDistinct : Prop :=
  ∀ (n b : Nat) (rev : Bool), n ≤ 32 → b = 5 ∨ b = 8 → (headerSet n b rev).length = n ∧ (headerSet n b rev).Nodup

/-- R205 to R208: PREFILTER responds the readout without its marker bytes and clears FAULTCNT, where every segment
begins with the start marker; otherwise it raises DecodeFault and counts it. -/
def Obligations.PrefilterRespondsOrCountsAFault : Prop :=
  ∀ (s : State) (x : List Byte), s.din = .bytes x →
    exec .prefilter s = .next
      (if ∀ seg ∈ segments params.markers x, seg.head? = some params.startMarker
        then { s with
          faultCnt := 0x0000#16
          cause := .none
          resp := .bytes (x.filter fun y => decide (y ∉ params.markers)) }
        else { s with
          cause := .decodeFault
          resp := .nothing
          faultCnt := BitVec.ofNat 16 (min (s.faultCnt.toNat + 1) 0xFFFF) })

/-- R204: the segments are the maximal non-empty runs of non-marker bytes, in order: what is left of the pieces between
marker bytes when the empty pieces are dropped. -/
def Obligations.SegmentsAreTheMaximalRuns : Prop :=
  ∀ markers x : List Byte,
    segments markers x = (x.splitOnP fun y => decide (y ∈ markers)).filter fun seg => !seg.isEmpty

/-- R216: SCAN responds the frames; it needs HDRSET. -/
def Obligations.ScanRespondsTheFrames : Prop :=
  ∀ (s : State) (x : List Byte), s.din = .bytes x →
    (∀ (hs : List Byte) (b : Half), s.hdrset = some hs → s.frameLen = some b →
      exec .scan s = .next
        { s with cause := .none, resp := .frames (scanFrames hs b.toNat (s.ctrl.getLsbD 1) x) }) ∧
    (s.hdrset = none → exec .scan s = .next (s.failed .configNotInitialized))

/-- R209 to R212: the scan loop, one position at a time. -/
def Obligations.ScanFollowsTheLoop : Prop :=
  ∀ (hs : List Byte) (b : Nat) (rev : Bool), 1 ≤ b →
    scanFrames hs b rev [] = [] ∧
    ∀ (y : Byte) (ys : List Byte), scanFrames hs b rev (y :: ys) =
      if y ∈ hs then
        if b ≤ ys.length + 1 then
          (if rev then ((y :: ys).take b).map bitrev8 else (y :: ys).take b) ::
            scanFrames hs b rev ((y :: ys).drop b)
        else []
      else scanFrames hs b rev ys

/-- R214, R215 ("[derived: from rules R209 and R214]"): the state machine, started in SEEK, outputs exactly the frames of
`scan(x)`, at most `len(x) / b`. -/
def Obligations.ScannerMachineAgreesWithScan : Prop :=
  ∀ (hs : List Byte) (b : Nat) (rev : Bool) (x : List Byte), 2 ≤ b →
    scanMachine hs b rev .seek x = scanFrames hs b rev x ∧ (scanFrames hs b rev x).length ≤ x.length / b

/-! ## Hit decoder and acquisition (44_decoder.md) -/

/-- R241 to R246: DECODE_A's record, field by field, for five bytes; SKIP for another length; ConfigNotInitialized for
SAMPLE_PERIOD unwritten. -/
def Obligations.DecodeARespondsTheRecord : Prop :=
  ∀ (s : State) (f : List Byte) (seq : Nat) (t : Time), s.din = .bytesStamp f seq t →
    (s.samplePeriod = none → exec .decodeA s = .next (s.failed .configNotInitialized)) ∧
    ∀ period : Half, s.samplePeriod = some period →
      (f.length ≠ 5 → exec .decodeA s = .next { s with cause := .none, resp := .skip }) ∧
      ∀ f0 f1 f2 f3 f4 : Byte, f = [f0, f1, f2, f3, f4] →
        exec .decodeA s = .next { s with
          cause := .none
          resp := .record (.layoutA
            { readout := seq
              id := f0.toNat / 8
              payload := f0.toNat % 8
              location := f1.toNat % 64
              isColumn := f1.getLsbD 7
              timestamp := f2.toNat
              totMsb := f3.toNat % 16
              totLsb := f4.toNat
              totTotal := f3.toNat % 16 * 256 + f4.toNat
              totUs := ((f3.toNat % 16 * 256 + f4.toNat : Nat) : Rat) * (period.toNat : Rat) / 1000
              hittime := t }) }

/-- R247 to R253: DECODE_B's record, field by field from the "bytes" column of R248, for eight bytes; SKIP for another
length. -/
def Obligations.DecodeBRespondsTheRecord : Prop :=
  ∀ (s : State) (f : List Byte), s.din = .bytes f →
    (f.length ≠ 8 → exec .decodeB s = .next { s with cause := .none, resp := .skip }) ∧
    ∀ f0 f1 f2 f3 f4 f5 f6 f7 : Byte, f = [f0, f1, f2, f3, f4, f5, f6, f7] →
      let ts1 := f2.toNat % 32 * 512 + f3.toNat * 2 + f4.toNat / 128
      let tsfine1 := f4.toNat / 16 % 8
      let ts2 := f5.toNat % 64 * 256 + f6.toNat
      let tsfine2 := f7.toNat / 32
      let d1 := grayDec (ts1 * 8 + tsfine1)
      let d2 := grayDec (ts2 * 8 + tsfine2)
      exec .decodeB s = .next { s with
        cause := .none
        resp := .record (.layoutB
          { id := f0.toNat / 8
            payload := f0.toNat % 8
            row := f1.toNat / 8
            col := f1.toNat % 8 * 4 + f2.toNat / 64
            ts1 := ts1
            tsfine1 := tsfine1
            ts2 := ts2
            tsfine2 := tsfine2
            tsneg1 := f2.getLsbD 5
            tsneg2 := f5.getLsbD 6
            tstdc1 := f4.toNat % 16 * 2 + f5.toNat / 128
            tstdc2 := f7.toNat % 32
            tsDec1 := d1
            tsDec2 := d2
            totUs := if d1 ≤ d2 then ((d2 : Rat) - d1) / 20 else (131072 - (d1 : Rat) + d2) / 20 }) }

/-- R249, R250 (its "[derived: from this rule]" sentence): for every eight-byte frame the decoded counters are below 2^17,
and `tot_us` is their difference modulo 2^17 over 20. -/
def Obligations.LayoutBTotIsModular : Prop :=
  ∀ (f : List Byte) (r : RecordB), decodeFrameB params f = some r →
    r.tsDec1 < 131072 ∧ r.tsDec2 < 131072 ∧
    r.totUs = (((r.tsDec2 + 131072 - r.tsDec1) % 131072 : Nat) : Rat) / 20

/-- R254, R255: ACQUIRE filters where PREFILTER_EN is 1, scans, decodes by FRAME_LEN, clears FAULTCNT and responds the
records; a readout that fails the pre-filter is a counted DecodeFault. With no header set or, for Layout A, no sample
period, it raises ConfigNotInitialized. -/
def Obligations.AcquireRespondsTheRecords : Prop :=
  ∀ (s : State) (x : List Byte) (seq : Nat) (t : Time), s.din = .bytesStamp x seq t →
    (s.hdrset = none ∨ (s.frameLen = some 5#16 ∧ s.samplePeriod = none) →
      exec .acquire s = .next (s.failed .configNotInitialized)) ∧
    ∀ (hs : List Byte) (b period : Half), s.hdrset = some hs → s.frameLen = some b →
      (b = 5#16 → s.samplePeriod = some period) →
      exec .acquire s = .next
        (match if s.ctrl.getLsbD 2 then prefilter params x else some x with
        | none => { s with cause := .decodeFault, resp := .nothing, faultCnt := faultCntSucc s.faultCnt }
        | some y => { s with
            faultCnt := 0x0000#16
            cause := .none
            resp := .records ((scanFrames hs b.toNat (s.ctrl.getLsbD 1) y).filterMap fun fr =>
              if b = 5#16 then (decodeFrameA period.toNat fr seq t).map .layoutA
              else (decodeFrameB params fr).map .layoutB) })

/-- R256, R297, with the transport's answers as in log entries 4 and 6: ACQUIRE_RX is ACQUIRE of the at most `n` bytes
the transport answers; a failed read raises TransportError with FAULTCNT unchanged. With no header set or, for Layout A,
no sample period, it raises ConfigNotInitialized and consumes no answer. -/
def Obligations.AcquireRxAcquiresWhatIsRead : Prop :=
  ∀ (s : State) (n : BitVec 16) (seq : Nat) (t : Time), s.din = .stamp seq t →
    (s.hdrset = none ∨ (s.frameLen = some 5#16 ∧ s.samplePeriod = none) →
      exec (.acquireRx n) s = .next (s.failed .configNotInitialized)) ∧
    ∀ (hs : List Byte) (b : Half) (rest : List ReadAnswer), s.hdrset = some hs → s.frameLen = some b →
      (b = 5#16 → s.samplePeriod ≠ none) →
      (∀ x : List Byte, s.readAnswers = .bytes x :: rest →
        ∃ u : State, exec .acquire { s with din := .bytesStamp (x.take n.toNat) seq t } = .next u ∧
          exec (.acquireRx n) s = .next { u with din := s.din, readAnswers := rest }) ∧
      (s.readAnswers = .fail :: rest →
        exec (.acquireRx n) s = .next { s with readAnswers := rest, cause := .transportError, resp := .nothing })
end

