-- ==== Sys2Proof/Laws/Decode.lean ====
section
/-! SUPPORT. What a word that decodes looks like: its row of the opcode map, its opcode, its reserved bits. -/

namespace Sys2Proof

/-- A word that decodes has the opcode of a row of the map, no bit of that row's reserved bits, and the row's fields. -/
theorem decode_eq_ok {w : Word} {i : Instr} (h : decode w = .ok i) :
    ∃ r ∈ decodeRows, opcode w = r.opc ∧ w &&& r.reserved = 0#32 ∧ i = r.build w := by
  unfold decode at h
  split at h
  · cases h
  · next r hr =>
    split at h
    · next hz =>
      have ho : r.opc = opcode w := by simpa using List.find?_some hr
      exact ⟨r, List.mem_of_find?_eq_some hr, ho.symm, hz, (Except.ok.inj h).symm⟩
    · cases h

/-- The opcode is the top byte of the word, bit by bit. -/
theorem opcode_getLsbD {w : Word} {o : BitVec 8} (h : opcode w = o) (k : Nat) (hk : k < 8) :
    w.getLsbD (24 + k) = o.getLsbD k := by
  rw [← h]; simp [opcode, hk]

/-- A bit of a mask that a word meets nowhere is 0 in the word. -/
theorem getLsbD_of_and_eq_zero {w m : Word} (h : w &&& m = 0#32) (k : Nat) (hm : m.getLsbD k = true) :
    w.getLsbD k = false := by
  have := congrArg (·.getLsbD k) h
  simpa [hm] using this

/-- Two words of one row are equal where their field bits are. -/
theorem word_eq_of_fields {w w' m : Word} {o : BitVec 8} (h : opcode w = o) (hz : w &&& m = 0#32) (h' : opcode w' = o)
    (hz' : w' &&& m = 0#32) (hf : ∀ k, k < 24 → m.getLsbD k = false → w'.getLsbD k = w.getLsbD k) : w' = w := by
  apply BitVec.eq_of_getLsbD_eq
  intro k _
  by_cases h24 : k < 24
  · cases hm : m.getLsbD k
    · exact hf k h24 hm
    · rw [getLsbD_of_and_eq_zero hz k hm, getLsbD_of_and_eq_zero hz' k hm]
  · have e := opcode_getLsbD h (k - 24) (by omega)
    have e' := opcode_getLsbD h' (k - 24) (by omega)
    rw [show 24 + (k - 24) = k by omega] at e e'
    rw [e, e']

end Sys2Proof
end

