-- ==== Sys2Proof/Laws/State.lean ====
section
/-! SUPPORT. One lemma per field per update of State: what each named update leaves in each field. -/

namespace Sys2Proof.Machine

variable (s : State)

/-! ## The end of a completed command -/

@[simp] theorem State.complete_cfg (v : Response) : (s.complete v).cfg = s.cfg := rfl
@[simp] theorem State.complete_ctrl (v : Response) : (s.complete v).ctrl = s.ctrl := rfl
@[simp] theorem State.complete_clkdiv (v : Response) : (s.complete v).clkdiv = s.clkdiv := rfl
@[simp] theorem State.complete_chipCount (v : Response) : (s.complete v).chipCount = s.chipCount := rfl
@[simp] theorem State.complete_frameLen (v : Response) : (s.complete v).frameLen = s.frameLen := rfl
@[simp] theorem State.complete_samplePeriod (v : Response) : (s.complete v).samplePeriod = s.samplePeriod := rfl
@[simp] theorem State.complete_frameOpc (v : Response) : (s.complete v).frameOpc = s.frameOpc := rfl
@[simp] theorem State.complete_srAddr (v : Response) : (s.complete v).srAddr = s.srAddr := rfl
@[simp] theorem State.complete_cause (v : Response) : (s.complete v).cause = Cause.none := rfl
@[simp] theorem State.complete_errlocCg (v : Response) : (s.complete v).errlocCg = s.errlocCg := rfl
@[simp] theorem State.complete_errlocF (v : Response) : (s.complete v).errlocF = s.errlocF := rfl
@[simp] theorem State.complete_faultCnt (v : Response) : (s.complete v).faultCnt = s.faultCnt := rfl
@[simp] theorem State.complete_hdrset (v : Response) : (s.complete v).hdrset = s.hdrset := rfl
@[simp] theorem State.complete_vec (v : Response) : (s.complete v).vec = s.vec := rfl
@[simp] theorem State.complete_txlog (v : Response) : (s.complete v).txlog = s.txlog := rfl
@[simp] theorem State.complete_din (v : Response) : (s.complete v).din = s.din := rfl
@[simp] theorem State.complete_resp (v : Response) : (s.complete v).resp = v := rfl
@[simp] theorem State.complete_host (v : Response) : (s.complete v).host = s.host := rfl
@[simp] theorem State.complete_writeAnswers (v : Response) : (s.complete v).writeAnswers = s.writeAnswers := rfl
@[simp] theorem State.complete_readAnswers (v : Response) : (s.complete v).readAnswers = s.readAnswers := rfl
@[simp] theorem State.complete_draws (v : Response) : (s.complete v).draws = s.draws := rfl

/-! ## Taking an error -/

@[simp] theorem State.takeError_cfg (e : Raise) : (s.takeError e).cfg = s.cfg := rfl
@[simp] theorem State.takeError_ctrl (e : Raise) : (s.takeError e).ctrl = s.ctrl := rfl
@[simp] theorem State.takeError_clkdiv (e : Raise) : (s.takeError e).clkdiv = s.clkdiv := rfl
@[simp] theorem State.takeError_chipCount (e : Raise) : (s.takeError e).chipCount = s.chipCount := rfl
@[simp] theorem State.takeError_frameLen (e : Raise) : (s.takeError e).frameLen = s.frameLen := rfl
@[simp] theorem State.takeError_samplePeriod (e : Raise) : (s.takeError e).samplePeriod = s.samplePeriod := rfl
@[simp] theorem State.takeError_frameOpc (e : Raise) : (s.takeError e).frameOpc = s.frameOpc := rfl
@[simp] theorem State.takeError_srAddr (e : Raise) : (s.takeError e).srAddr = s.srAddr := rfl
@[simp] theorem State.takeError_cause (e : Raise) : (s.takeError e).cause = e.cause := rfl
@[simp] theorem State.takeError_hdrset (e : Raise) : (s.takeError e).hdrset = s.hdrset := rfl
@[simp] theorem State.takeError_vec (e : Raise) : (s.takeError e).vec = s.vec := rfl
@[simp] theorem State.takeError_txlog (e : Raise) : (s.takeError e).txlog = s.txlog := rfl
@[simp] theorem State.takeError_din (e : Raise) : (s.takeError e).din = s.din := rfl
@[simp] theorem State.takeError_resp (e : Raise) : (s.takeError e).resp = Response.nothing := rfl
@[simp] theorem State.takeError_host (e : Raise) : (s.takeError e).host = s.host := rfl
@[simp] theorem State.takeError_writeAnswers (e : Raise) : (s.takeError e).writeAnswers = s.writeAnswers := rfl
@[simp] theorem State.takeError_readAnswers (e : Raise) : (s.takeError e).readAnswers = s.readAnswers := rfl
@[simp] theorem State.takeError_draws (e : Raise) : (s.takeError e).draws = s.draws := rfl

@[simp] theorem State.takeError_errlocCg_none (c : Cause) : (s.takeError ⟨c, none⟩).errlocCg = s.errlocCg := rfl
@[simp] theorem State.takeError_errlocCg_some (c : Cause) (a : FieldAddr) :
    (s.takeError ⟨c, some a⟩).errlocCg = errlocCgOf a := rfl
@[simp] theorem State.takeError_errlocF_none (c : Cause) : (s.takeError ⟨c, none⟩).errlocF = s.errlocF := rfl
@[simp] theorem State.takeError_errlocF_some (c : Cause) (a : FieldAddr) :
    (s.takeError ⟨c, some a⟩).errlocF = errlocFOf a := rfl
theorem State.takeError_faultCnt (e : Raise) :
    (s.takeError e).faultCnt = if e.cause = .decodeFault then faultCntSucc s.faultCnt else s.faultCnt := rfl

/-! ## RESET -/

@[simp] theorem State.resetCore_cfg : s.resetCore.cfg = none := rfl
@[simp] theorem State.resetCore_ctrl : s.resetCore.ctrl = 0x0000#16 := rfl
@[simp] theorem State.resetCore_clkdiv : s.resetCore.clkdiv = none := rfl
@[simp] theorem State.resetCore_chipCount : s.resetCore.chipCount = none := rfl
@[simp] theorem State.resetCore_frameLen : s.resetCore.frameLen = none := rfl
@[simp] theorem State.resetCore_samplePeriod : s.resetCore.samplePeriod = none := rfl
@[simp] theorem State.resetCore_frameOpc : s.resetCore.frameOpc = none := rfl
@[simp] theorem State.resetCore_srAddr : s.resetCore.srAddr = none := rfl
@[simp] theorem State.resetCore_cause : s.resetCore.cause = s.cause := rfl
@[simp] theorem State.resetCore_errlocCg : s.resetCore.errlocCg = 0x0000#16 := rfl
@[simp] theorem State.resetCore_errlocF : s.resetCore.errlocF = 0x0000#16 := rfl
@[simp] theorem State.resetCore_faultCnt : s.resetCore.faultCnt = 0x0000#16 := rfl
@[simp] theorem State.resetCore_hdrset : s.resetCore.hdrset = none := rfl
@[simp] theorem State.resetCore_vec : s.resetCore.vec = none := rfl
@[simp] theorem State.resetCore_txlog : s.resetCore.txlog = s.txlog := rfl
@[simp] theorem State.resetCore_din : s.resetCore.din = s.din := rfl
@[simp] theorem State.resetCore_resp : s.resetCore.resp = s.resp := rfl
@[simp] theorem State.resetCore_host : s.resetCore.host = s.host := rfl
@[simp] theorem State.resetCore_writeAnswers : s.resetCore.writeAnswers = s.writeAnswers := rfl
@[simp] theorem State.resetCore_readAnswers : s.resetCore.readAnswers = s.readAnswers := rfl
@[simp] theorem State.resetCore_draws : s.resetCore.draws = s.draws := rfl

/-! ## Control-register writes -/

@[simp] theorem State.writeCreg_ctrl_self (v : Half) : (s.writeCreg .ctrl v).ctrl = v := rfl
@[simp] theorem State.writeCreg_clkdiv_self (v : Half) : (s.writeCreg .clkdiv v).clkdiv = some v := rfl
@[simp] theorem State.writeCreg_chipCount_self (v : Half) : (s.writeCreg .chipCount v).chipCount = some v := rfl
@[simp] theorem State.writeCreg_frameLen_self (v : Half) : (s.writeCreg .frameLen v).frameLen = some v := rfl
@[simp] theorem State.writeCreg_samplePeriod_self (v : Half) : (s.writeCreg .samplePeriod v).samplePeriod = some v := rfl
@[simp] theorem State.writeCreg_frameOpc_self (v : Half) : (s.writeCreg .frameOpc v).frameOpc = some v := rfl
@[simp] theorem State.writeCreg_srAddr_self (v : Half) : (s.writeCreg .srAddr v).srAddr = some v := rfl
@[simp] theorem State.writeCreg_cfg (r : RwReg) (v : Half) : (s.writeCreg r v).cfg = s.cfg := by cases r <;> rfl
@[simp] theorem State.writeCreg_cause (r : RwReg) (v : Half) : (s.writeCreg r v).cause = s.cause := by cases r <;> rfl
@[simp] theorem State.writeCreg_errlocCg (r : RwReg) (v : Half) : (s.writeCreg r v).errlocCg = s.errlocCg := by cases r <;> rfl
@[simp] theorem State.writeCreg_errlocF (r : RwReg) (v : Half) : (s.writeCreg r v).errlocF = s.errlocF := by cases r <;> rfl
@[simp] theorem State.writeCreg_faultCnt (r : RwReg) (v : Half) : (s.writeCreg r v).faultCnt = s.faultCnt := by cases r <;> rfl
@[simp] theorem State.writeCreg_hdrset (r : RwReg) (v : Half) : (s.writeCreg r v).hdrset = s.hdrset := by cases r <;> rfl
@[simp] theorem State.writeCreg_vec (r : RwReg) (v : Half) : (s.writeCreg r v).vec = s.vec := by cases r <;> rfl
@[simp] theorem State.writeCreg_txlog (r : RwReg) (v : Half) : (s.writeCreg r v).txlog = s.txlog := by cases r <;> rfl
@[simp] theorem State.writeCreg_din (r : RwReg) (v : Half) : (s.writeCreg r v).din = s.din := by cases r <;> rfl
@[simp] theorem State.writeCreg_resp (r : RwReg) (v : Half) : (s.writeCreg r v).resp = s.resp := by cases r <;> rfl
@[simp] theorem State.writeCreg_host (r : RwReg) (v : Half) : (s.writeCreg r v).host = s.host := by cases r <;> rfl
@[simp] theorem State.writeCreg_writeAnswers (r : RwReg) (v : Half) : (s.writeCreg r v).writeAnswers = s.writeAnswers := by cases r <;> rfl
@[simp] theorem State.writeCreg_readAnswers (r : RwReg) (v : Half) : (s.writeCreg r v).readAnswers = s.readAnswers := by cases r <;> rfl
@[simp] theorem State.writeCreg_draws (r : RwReg) (v : Half) : (s.writeCreg r v).draws = s.draws := by cases r <;> rfl
theorem State.writeCreg_ctrl_other (r : RwReg) (v : Half) (h : r ≠ .ctrl) : (s.writeCreg r v).ctrl = s.ctrl := by
  cases r <;> first | rfl | exact absurd rfl h
theorem State.writeCreg_clkdiv_other (r : RwReg) (v : Half) (h : r ≠ .clkdiv) : (s.writeCreg r v).clkdiv = s.clkdiv := by
  cases r <;> first | rfl | exact absurd rfl h
theorem State.writeCreg_chipCount_other (r : RwReg) (v : Half) (h : r ≠ .chipCount) : (s.writeCreg r v).chipCount = s.chipCount := by
  cases r <;> first | rfl | exact absurd rfl h
theorem State.writeCreg_frameLen_other (r : RwReg) (v : Half) (h : r ≠ .frameLen) : (s.writeCreg r v).frameLen = s.frameLen := by
  cases r <;> first | rfl | exact absurd rfl h
theorem State.writeCreg_samplePeriod_other (r : RwReg) (v : Half) (h : r ≠ .samplePeriod) : (s.writeCreg r v).samplePeriod = s.samplePeriod := by
  cases r <;> first | rfl | exact absurd rfl h
theorem State.writeCreg_frameOpc_other (r : RwReg) (v : Half) (h : r ≠ .frameOpc) : (s.writeCreg r v).frameOpc = s.frameOpc := by
  cases r <;> first | rfl | exact absurd rfl h
theorem State.writeCreg_srAddr_other (r : RwReg) (v : Half) (h : r ≠ .srAddr) : (s.writeCreg r v).srAddr = s.srAddr := by
  cases r <;> first | rfl | exact absurd rfl h

/-! ## Invalidation -/

@[simp] theorem State.invalidate_cfg (r : RwReg) : (s.invalidate r).cfg = s.cfg := by cases r <;> rfl
@[simp] theorem State.invalidate_ctrl (r : RwReg) : (s.invalidate r).ctrl = s.ctrl := by cases r <;> rfl
@[simp] theorem State.invalidate_clkdiv (r : RwReg) : (s.invalidate r).clkdiv = s.clkdiv := by cases r <;> rfl
@[simp] theorem State.invalidate_chipCount (r : RwReg) : (s.invalidate r).chipCount = s.chipCount := by cases r <;> rfl
@[simp] theorem State.invalidate_frameLen (r : RwReg) : (s.invalidate r).frameLen = s.frameLen := by cases r <;> rfl
@[simp] theorem State.invalidate_samplePeriod (r : RwReg) : (s.invalidate r).samplePeriod = s.samplePeriod := by cases r <;> rfl
@[simp] theorem State.invalidate_frameOpc (r : RwReg) : (s.invalidate r).frameOpc = s.frameOpc := by cases r <;> rfl
@[simp] theorem State.invalidate_srAddr (r : RwReg) : (s.invalidate r).srAddr = s.srAddr := by cases r <;> rfl
@[simp] theorem State.invalidate_cause (r : RwReg) : (s.invalidate r).cause = s.cause := by cases r <;> rfl
@[simp] theorem State.invalidate_errlocCg (r : RwReg) : (s.invalidate r).errlocCg = s.errlocCg := by cases r <;> rfl
@[simp] theorem State.invalidate_errlocF (r : RwReg) : (s.invalidate r).errlocF = s.errlocF := by cases r <;> rfl
@[simp] theorem State.invalidate_faultCnt (r : RwReg) : (s.invalidate r).faultCnt = s.faultCnt := by cases r <;> rfl
@[simp] theorem State.invalidate_txlog (r : RwReg) : (s.invalidate r).txlog = s.txlog := by cases r <;> rfl
@[simp] theorem State.invalidate_din (r : RwReg) : (s.invalidate r).din = s.din := by cases r <;> rfl
@[simp] theorem State.invalidate_resp (r : RwReg) : (s.invalidate r).resp = s.resp := by cases r <;> rfl
@[simp] theorem State.invalidate_host (r : RwReg) : (s.invalidate r).host = s.host := by cases r <;> rfl
@[simp] theorem State.invalidate_writeAnswers (r : RwReg) : (s.invalidate r).writeAnswers = s.writeAnswers := by cases r <;> rfl
@[simp] theorem State.invalidate_readAnswers (r : RwReg) : (s.invalidate r).readAnswers = s.readAnswers := by cases r <;> rfl
@[simp] theorem State.invalidate_draws (r : RwReg) : (s.invalidate r).draws = s.draws := by cases r <;> rfl

theorem State.invalidate_vec (r : RwReg) : (s.invalidate r).vec = if r = .ctrl then none else s.vec := by
  cases r <;> rfl
theorem State.invalidate_hdrset (r : RwReg) :
    (s.invalidate r).hdrset = if r = .ctrl ∨ r = .chipCount ∨ r = .frameLen then none else s.hdrset := by
  cases r <;> simp [State.invalidate]

end Sys2Proof.Machine
end

