-- ==== Sys2Proof/Laws/Ops.lean ====
section
/-! SUPPORT. What each shared operation can do: ending a command, operand checks, the transport. -/

namespace Sys2Proof.Machine

/-! ## Attempts -/

@[simp] theorem attempt_bind_ok {α β : Type} (a : α) (f : α → Attempt β) : ((.ok a : Attempt α) >>= f) = f a := rfl

@[simp] theorem attempt_bind_error {α β : Type} (e : Raise) (f : α → Attempt β) :
    ((.error e : Attempt α) >>= f) = .error e := rfl

theorem attempt_bind_eq_ok {α β : Type} {x : Attempt α} {f : α → Attempt β} {b : β} :
    (x >>= f) = .ok b ↔ ∃ a, x = .ok a ∧ f a = .ok b := by
  cases x <;> simp

theorem attempt_bind_eq_error {α β : Type} {x : Attempt α} {f : α → Attempt β} {e : Raise} :
    (x >>= f) = .error e ↔ x = .error e ∨ ∃ a, x = .ok a ∧ f a = .error e := by
  cases x <;> simp

@[simp] theorem need_some {α : Type} (a : α) : need (some a) = .ok a := rfl

@[simp] theorem need_none {α : Type} : need (none : Option α) = .error ⟨.configNotInitialized, none⟩ := rfl

theorem need_eq_ok {α : Type} {o : Option α} {a : α} : need o = .ok a ↔ o = some a := by
  cases o <;> simp

/-- `need` raises ConfigNotInitialized and nothing else. -/
theorem need_eq_error {α : Type} {o : Option α} {e : Raise} :
    need o = .error e ↔ o = none ∧ e = ⟨.configNotInitialized, none⟩ := by
  cases o <;> simp [eq_comm]

/-! ## Ending a command -/

@[simp] theorem finish_ok (s t : State) (v : Response) : finish s (.ok (t, v)) = .next (t.complete v) := rfl

@[simp] theorem finish_error (s : State) (e : Raise) : finish s (.error e) = .next (s.takeError e) := rfl

/-- `finish` always answers a next state: the completed one or the one with the error taken. -/
theorem finish_eq_next {s t : State} {a : Attempt (State × Response)} :
    finish s a = .next t ↔
      (∃ u v, a = .ok (u, v) ∧ t = u.complete v) ∨ (∃ e, a = .error e ∧ t = s.takeError e) := by
  rcases a with e | ⟨u, v⟩ <;> simp [eq_comm]

theorem finish_next (s : State) (a : Attempt (State × Response)) : ∃ t, finish s a = .next t := by
  rcases a with e | ⟨u, v⟩ <;> simp

/-- An error that locates no field and is no DecodeFault. -/
theorem takeError_plain (s : State) {c : Cause} (h : c ≠ .decodeFault) : s.takeError ⟨c, none⟩ = s.failed c := by
  simp [State.takeError, State.failed, h]

/-- ERRLOC_CG holds the chip in bits 7:3 and the group in bits 2:0. -/
theorem errlocCgOf_eq (a : FieldAddr) : errlocCgOf a = BitVec.ofNat 16 (a.chip % 32 * 8 + a.grp % 8) := by
  have h : ∀ (c : BitVec 5) (g : BitVec 3),
      c.setWidth 16 <<< 3 ||| g.setWidth 16 = BitVec.ofNat 16 (c.toNat * 8 + g.toNat) := by decide
  simpa [errlocCgOf] using h (BitVec.ofNat 5 a.chip) (BitVec.ofNat 3 a.grp)

/-- An error located at a field. -/
theorem takeError_located (s : State) {c : Cause} (a : FieldAddr) (h : c ≠ .decodeFault) :
    s.takeError ⟨c, some a⟩ = s.failedAt c a.chip a.grp a.fld := by
  simp [State.takeError, State.failedAt, errlocCgOf_eq, errlocFOf, h]

/-- A DecodeFault. -/
theorem takeError_decodeFault (s : State) :
    s.takeError ⟨.decodeFault, none⟩ =
      { s with cause := .decodeFault, resp := .nothing, faultCnt := faultCntSucc s.faultCnt } := by
  simp [State.takeError]

/-- FAULTCNT saturates at 0xFFFF. -/
theorem faultCntSucc_eq (n : Half) : faultCntSucc n = BitVec.ofNat 16 (min (n.toNat + 1) 0xFFFF) := by
  unfold faultCntSucc
  split
  · next h => subst h; rfl
  · next h =>
    have : n.toNat ≠ 65535 := fun e => h (BitVec.eq_of_toNat_eq e)
    apply BitVec.eq_of_toNat_eq
    have := n.isLt
    rw [BitVec.toNat_ofNat, Nat.min_eq_left (by omega), BitVec.toNat_add]
    simp

/-! ## Operand kinds -/

theorem needNone_eq_ok {s : State} {u : Unit} : needNone s = .ok u ↔ s.din = .none := by
  unfold needNone; split <;> simp_all [raise]

theorem needVal_eq_ok {s : State} {v : Nat} : needVal s = .ok v ↔ s.din = .val v := by
  unfold needVal; split <;> simp_all [raise]

theorem needBits_eq_ok {s : State} {x : List Bit} : needBits s = .ok x ↔ s.din = .bits x := by
  unfold needBits; split <;> simp_all [raise]

theorem needBytes_eq_ok {s : State} {x : List Byte} : needBytes s = .ok x ↔ s.din = .bytes x := by
  unfold needBytes; split <;> simp_all [raise]

theorem needTree_eq_ok {s : State} {t : RegisterTree} : needTree s = .ok t ↔ s.din = .tree t := by
  unfold needTree; split <;> simp_all [raise]

theorem needStamp_eq_ok {s : State} {p : Nat × Time} : needStamp s = .ok p ↔ s.din = .stamp p.1 p.2 := by
  unfold needStamp; split <;> simp_all [raise, Prod.ext_iff]

theorem needBytesStamp_eq_ok {s : State} {p : List Byte × Nat × Time} :
    needBytesStamp s = .ok p ↔ s.din = .bytesStamp p.1 p.2.1 p.2.2 := by
  unfold needBytesStamp; split <;> simp_all [raise, Prod.ext_iff]

theorem needSource_eq_ok {s : State} {src : Bool} {x : List Bit} :
    needSource s src = .ok x ↔ SourceIs s src x := by
  cases src <;> simp [needSource, SourceIs, needBits_eq_ok, attempt_bind_eq_ok, needNone_eq_ok, need_eq_ok]

/-- The checks of the operand's kind and of BITREV's width raise IllegalCommand and nothing else. -/
theorem needNone_error {s : State} {e : Raise} (h : needNone s = .error e) : e = ⟨.illegalCommand, none⟩ := by
  unfold needNone at h; split at h <;> simp_all [raise]

theorem needVal_error {s : State} {e : Raise} (h : needVal s = .error e) : e = ⟨.illegalCommand, none⟩ := by
  unfold needVal at h; split at h <;> simp_all [raise]

theorem needBits_error {s : State} {e : Raise} (h : needBits s = .error e) : e = ⟨.illegalCommand, none⟩ := by
  unfold needBits at h; split at h <;> simp_all [raise]

theorem needBytes_error {s : State} {e : Raise} (h : needBytes s = .error e) : e = ⟨.illegalCommand, none⟩ := by
  unfold needBytes at h; split at h <;> simp_all [raise]

theorem needTree_error {s : State} {e : Raise} (h : needTree s = .error e) : e = ⟨.illegalCommand, none⟩ := by
  unfold needTree at h; split at h <;> simp_all [raise]

theorem needStamp_error {s : State} {e : Raise} (h : needStamp s = .error e) : e = ⟨.illegalCommand, none⟩ := by
  unfold needStamp at h; split at h <;> simp_all [raise]

theorem needBytesStamp_error {s : State} {e : Raise} (h : needBytesStamp s = .error e) :
    e = ⟨.illegalCommand, none⟩ := by
  unfold needBytesStamp at h; split at h <;> simp_all [raise]

theorem needWidth_error {w : BitVec 8} {e : Raise} (h : needWidth w = .error e) : e = ⟨.illegalCommand, none⟩ := by
  unfold needWidth at h; split at h <;> simp_all [raise]

theorem needCreg_error {crn : BitVec 8} {e : Raise} (h : needCreg crn = .error e) : e = ⟨.illegalCommand, none⟩ := by
  unfold needCreg at h; split at h <;> simp_all [raise]

theorem needSource_error {s : State} {src : Bool} {e : Raise} (h : needSource s src = .error e) :
    e = ⟨.illegalCommand, none⟩ ∨ e = ⟨.configNotInitialized, none⟩ := by
  cases src
  · exact .inl (needBits_error h)
  · rcases attempt_bind_eq_error.mp h with h | ⟨_, _, h⟩
    · exact .inl (needNone_error h)
    · exact .inr (need_eq_error.mp h).2

/-! ## The transport -/

theorem drawWrite_scheduled {s : State} {a : WriteAnswer} {rest : List WriteAnswer} (h : s.writeAnswers = a :: rest) :
    s.drawWrite = (a, { s with writeAnswers := rest }) := by
  simp [State.drawWrite, h]

/-- What a `TxWrite` leaves: only the answers and the draw counter move, and it never hangs unscheduled. -/
theorem drawWrite_frame (s : State) :
    (∃ w n, s.drawWrite.2 = { s with writeAnswers := w, draws := n } ∧ w <:+ s.writeAnswers) ∧
      (s.drawWrite.1 = .never → WriteAnswer.never ∈ s.writeAnswers) := by
  unfold State.drawWrite
  split
  · next a rest h => exact ⟨⟨rest, s.draws, rfl, by simp [h]⟩, fun e => by simp_all⟩
  · next h => exact ⟨⟨[], s.draws + 1, by simp [h], by simp⟩, fun e => by dsimp at e; split at e <;> simp at e⟩

/-- What a `TxRead` leaves, and that it answers at most `n` bytes. -/
theorem drawRead_frame (s : State) (n : Nat) :
    (∃ r k, (s.drawRead n).2 = { s with readAnswers := r, draws := k }) ∧
      ((s.drawRead n).1 = .never → ReadAnswer.never ∈ s.readAnswers) ∧
      ∀ x, (s.drawRead n).1 = .bytes x → x.length ≤ n := by
  unfold State.drawRead
  split
  · exact ⟨⟨_, s.draws, rfl⟩, by simp, by simp +contextual [eq_comm]⟩
  · exact ⟨⟨_, s.draws, rfl⟩, by simp, by simp⟩
  · next h => exact ⟨⟨_, s.draws, rfl⟩, by simp [h], by simp⟩
  · split
    · exact ⟨⟨s.readAnswers, _, rfl⟩, by simp, by simp +contextual [eq_comm]⟩
    · exact ⟨⟨s.readAnswers, _, rfl⟩, by simp, by simp⟩

/-- A run of writes whose first answers are scheduled to be ok goes on with the frames after them. -/
theorem sendFrames_ok_run (fs gs : List (List Byte)) (s : State) (rest : List WriteAnswer)
    (h : s.writeAnswers = List.replicate fs.length .ok ++ rest) :
    sendFrames (fs ++ gs) s = sendFrames gs { s with txlog := s.txlog ++ fs, writeAnswers := rest } := by
  induction fs generalizing s with
  | nil => simp at h; simp [← h]
  | cons f fs ih =>
    have h' : s.writeAnswers = .ok :: (List.replicate fs.length .ok ++ rest) := by
      simp [h, List.replicate_succ]
    simp only [List.cons_append, sendFrames, drawWrite_scheduled h']
    rw [ih _ rfl]
    simp

/-- Everything a run of writes can do: it moves only TXLOG, by frames from the front of the run, the answers and the
draw counter; it hangs only where a hang is scheduled. -/
theorem sendFrames_cases (fs : List (List Byte)) (s : State) :
    match sendFrames fs s with
    | .all t => ∃ w n, t = { s with txlog := s.txlog ++ fs, writeAnswers := w, draws := n }
    | .failed t => ∃ j w n, j < fs.length ∧ t = { s with txlog := s.txlog ++ fs.take j, writeAnswers := w, draws := n }
    | .never => WriteAnswer.never ∈ s.writeAnswers := by
  induction fs generalizing s with
  | nil => exact ⟨s.writeAnswers, s.draws, by simp⟩
  | cons f fs ih =>
    obtain ⟨⟨w, n, hu, hsuf⟩, hnever⟩ := drawWrite_frame s
    unfold sendFrames
    generalize hd : s.drawWrite = d at hu hnever
    obtain ⟨a, u⟩ := d
    subst hu
    cases a with
    | ok =>
      have := ih { s with txlog := s.txlog ++ [f], writeAnswers := w, draws := n }
      dsimp only at this ⊢
      generalize sendFrames fs _ = r at this ⊢
      cases r with
      | all t => obtain ⟨w', n', rfl⟩ := this; exact ⟨w', n', by simp⟩
      | failed t =>
        obtain ⟨j, w', n', hj, rfl⟩ := this
        exact ⟨j + 1, w', n', by simpa using hj, by simp⟩
      | never => exact hsuf.mem this
    | fail => exact ⟨0, w, n, by simp, by simp⟩
    | never => exact hnever rfl

/-- Everything `transmit` can do. -/
theorem transmit_cases (fs : List (List Byte)) (s : State) :
    (∃ w n, transmit fs s = .next
      (State.complete { s with txlog := s.txlog ++ fs, writeAnswers := w, draws := n } (.value fs.length))) ∨
    (∃ j w n, j < fs.length ∧ transmit fs s = .next
      (State.takeError { s with txlog := s.txlog ++ fs.take j, writeAnswers := w, draws := n }
        ⟨.transportError, none⟩)) ∨
    (transmit fs s = .fault .transportNeverReturns ∧ WriteAnswer.never ∈ s.writeAnswers) := by
  have h := sendFrames_cases fs s
  unfold transmit
  cases hr : sendFrames fs s with
  | all t => rw [hr] at h; obtain ⟨w, n, rfl⟩ := h; exact .inl ⟨w, n, rfl⟩
  | failed t => rw [hr] at h; obtain ⟨j, w, n, hj, rfl⟩ := h; exact .inr (.inl ⟨j, w, n, hj, rfl⟩)
  | never => rw [hr] at h; exact .inr (.inr ⟨rfl, h⟩)

end Sys2Proof.Machine
end

