-- ==== Sys2Proof/Laws/RegisterStore.lean ====
section
/-! SUPPORT. The register-model store: what a legal tree is, which field a triple names, what setting one field does. -/

namespace Sys2Proof.Machine

/-- The check of R104 items 1 to 4 decides `TreeShape`. -/
theorem treeShapeOk_iff (P : Params) (t : RegisterTree) : treeShapeOk P t = true ↔ TreeShape P t := by
  simp only [treeShapeOk, treeGroupsOk, treeFieldsOk, treeWidthsOk, Bool.and_eq_true, decide_eq_true_eq,
    List.all_eq_true, List.contains_iff_mem, List.mem_map]
  constructor
  · rintro ⟨⟨⟨h1, h2⟩, h3⟩, h4⟩
    exact ⟨h1, fun c hc => (h2 c hc).1.1, fun c hc => (h2 c hc).1.2, fun c hc => (h2 c hc).2,
      fun c hc g hg => (h3 c hc g hg).1, fun c hc g hg => (h3 c hc g hg).2, h4⟩
  · rintro ⟨h1, h2, h3, h4, h5, h6, h7⟩
    exact ⟨⟨⟨h1, fun c hc => ⟨⟨h2 c hc, h3 c hc⟩, h4 c hc⟩⟩, fun c hc g hg => ⟨h5 c hc g hg, h6 c hc g hg⟩⟩, h7⟩

/-- A chip and group index name a group iff both are in bounds (20_memory.md R51). -/
theorem groupAt_eq_some {P : Params} {cfg : Chain} {c g : Nat} {chip : ChipConfig} {grp : RegisterGroup} :
    groupAt P cfg c g = some (chip, grp) ↔
      g < P.groupOrder.length ∧ cfg[c]? = some chip ∧ chip.groups[g]? = some grp := by
  unfold groupAt
  by_cases hg : g < P.groupOrder.length
  · cases hc : cfg[c]? with
    | none => simp [hg]
    | some ch => cases hgr : ch.groups[g]? <;> simp [hg] <;> grind
  · simp [hg]

/-- A triple names a field iff its three indices are in bounds (20_memory.md R51). -/
theorem fieldAt_eq_some {P : Params} {cfg : Chain} {a : FieldAddr} {fld : RegisterField} :
    fieldAt P cfg a = some fld ↔
      ∃ chip grp, a.grp < P.groupOrder.length ∧ cfg[a.chip]? = some chip ∧ chip.groups[a.grp]? = some grp ∧
        grp.fields[a.fld]? = some fld := by
  unfold fieldAt groupAt
  by_cases hg : a.grp < P.groupOrder.length
  · cases hc : cfg[a.chip]? with
    | none => simp [hg]
    | some chip => cases hgr : chip.groups[a.grp]? <;> simp [hg, hgr]
  · simp [hg]

@[simp] theorem loadGroup_name (chip : TreeChip) (n : String) : (loadGroup chip n).name = n := by
  unfold loadGroup; split <;> rfl

/-- Setting one field changes what that triple names and nothing else. -/
theorem fieldAt_setField (P : Params) (cfg : Chain) (a b : FieldAddr) (v : Nat) :
    fieldAt P (setField cfg a v) b =
      if b = a then (fieldAt P cfg b).map fun f => { f with value := v } else fieldAt P cfg b := by
  obtain ⟨ac, ag, af⟩ := a
  obtain ⟨bc, bg, bf⟩ := b
  unfold fieldAt groupAt setField
  simp only [List.getElem?_modify]
  by_cases hg : bg < P.groupOrder.length
  case neg => simp [hg]
  simp only [hg, if_true]
  by_cases h1 : ac = bc
  case neg => cases cfg[bc]? <;> simp [h1, Ne.symm h1]
  subst h1
  cases cfg[ac]? with
  | none => simp
  | some chip =>
    by_cases h2 : ag = bg
    case neg => cases hb : chip.groups[bg]? <;> simp [h2, Ne.symm h2, hb]
    subst h2
    cases hb : chip.groups[ag]? with
    | none => simp [hb]
    | some grp =>
      by_cases h3 : af = bf
      · subst h3; simp [hb]
      · cases hf : grp.fields[bf]? <;> simp [hb, h3, Ne.symm h3, hf]

end Sys2Proof.Machine
end

