-- ==== Sys2Proof/Laws/Meanings.lean ====
section
/-! SUPPORT. What each meaning can do when it answers a next state: the completed state, or the error taken, with which
raises are open to it. Proofs about a step cite these and do not unfold a meaning. -/

namespace Sys2Proof.Machine

/-- The raises that locate nothing and count nothing. -/
abbrev illegal : Raise := ⟨.illegalCommand, none⟩

/-- ConfigNotInitialized locates nothing. -/
abbrev uninit : Raise := ⟨.configNotInitialized, none⟩

theorem needField_eq_ok {s : State} {a : FieldAddr} {p : Chain × RegisterField} :
    needField s a = .ok p ↔ s.cfg = some p.1 ∧ fieldAt params p.1 a = some p.2 := by
  obtain ⟨cfg, fld⟩ := p
  simp only [needField, attempt_bind_eq_ok, need_eq_ok]
  constructor
  · rintro ⟨c, hc, h⟩
    split at h
    · next hf => cases h; exact ⟨hc, hf⟩
    · cases h
  · rintro ⟨hc, hf⟩
    exact ⟨cfg, hc, by simp [hf]⟩

theorem needField_error {s : State} {a : FieldAddr} {e : Raise} (h : needField s a = .error e) :
    e = uninit ∨ ∃ cfg, s.cfg = some cfg ∧ fieldAt params cfg a = none ∧ e = ⟨.configError, some a⟩ := by
  simp only [needField, attempt_bind_eq_error, need_eq_error, need_eq_ok] at h
  rcases h with ⟨-, rfl⟩ | ⟨c, hc, h⟩
  · exact .inl rfl
  · split at h
    · cases h
    · next hf => cases h; exact .inr ⟨c, hc, hf, rfl⟩

theorem execNop_cases {s t : State} (h : execNop s = .next t) :
    t = s.complete .nothing ∨ t = s.takeError illegal := by
  rcases finish_eq_next.mp h with ⟨u, v, ha, rfl⟩ | ⟨e, he, rfl⟩
  · obtain ⟨_, _, ha⟩ := attempt_bind_eq_ok.mp ha
    cases ha; exact .inl rfl
  · rcases attempt_bind_eq_error.mp he with he | ⟨_, _, he⟩
    · exact .inr (by rw [needNone_error he])
    · cases he

theorem execReset_cases {s t : State} (h : execReset s = .next t) :
    t = s.resetCore.complete .nothing ∨ t = s.takeError illegal := by
  rcases finish_eq_next.mp h with ⟨u, v, ha, rfl⟩ | ⟨e, he, rfl⟩
  · obtain ⟨_, _, ha⟩ := attempt_bind_eq_ok.mp ha
    cases ha; exact .inl rfl
  · rcases attempt_bind_eq_error.mp he with he | ⟨_, _, he⟩
    · exact .inr (by rw [needNone_error he])
    · cases he

theorem execCregWr_cases {crn : BitVec 8} {imm : BitVec 16} {s t : State} (h : execCregWr crn imm s = .next t) :
    (∃ r, Creg.ofNumber crn = some (.rw r) ∧ cregLegal params r imm = true ∧
      t = ((s.writeCreg r (cregStored r imm)).invalidate r).complete .nothing) ∨
    t = s.takeError illegal ∨ t = s.takeError ⟨.configError, none⟩ := by
  rcases finish_eq_next.mp h with ⟨u, v, ha, rfl⟩ | ⟨e, he, rfl⟩
  · obtain ⟨_, _, ha⟩ := attempt_bind_eq_ok.mp ha
    obtain ⟨r, hr, ha⟩ := attempt_bind_eq_ok.mp ha
    have hr' : Creg.ofNumber crn = some r := by
      unfold needCreg at hr; split at hr <;> cases hr; assumption
    cases r with
    | ro _ => cases ha
    | rw r =>
      dsimp only at ha
      split at ha
      · next hl => cases ha; exact .inl ⟨r, hr', hl, rfl⟩
      · cases ha
  · rcases attempt_bind_eq_error.mp he with he | ⟨_, _, he⟩
    · exact .inr (.inl (by rw [needNone_error he]))
    rcases attempt_bind_eq_error.mp he with he | ⟨r, _, he⟩
    · exact .inr (.inl (by rw [needCreg_error he]))
    cases r with
    | ro _ => cases he; exact .inr (.inl rfl)
    | rw r =>
      dsimp only at he
      split at he <;> cases he
      exact .inr (.inr rfl)

theorem execCregRd_cases {crn : BitVec 8} {s t : State} (h : execCregRd crn s = .next t) :
    (∃ v, t = s.complete (.value v)) ∨ t = s.takeError illegal ∨ t = s.takeError uninit := by
  rcases finish_eq_next.mp h with ⟨u, v, ha, rfl⟩ | ⟨e, he, rfl⟩
  · obtain ⟨_, _, ha⟩ := attempt_bind_eq_ok.mp ha
    obtain ⟨r, _, ha⟩ := attempt_bind_eq_ok.mp ha
    obtain ⟨w, _, ha⟩ := attempt_bind_eq_ok.mp ha
    cases ha; exact .inl ⟨_, rfl⟩
  · rcases attempt_bind_eq_error.mp he with he | ⟨_, _, he⟩
    · exact .inr (.inl (by rw [needNone_error he]))
    rcases attempt_bind_eq_error.mp he with he | ⟨r, _, he⟩
    · exact .inr (.inl (by rw [needCreg_error he]))
    rcases attempt_bind_eq_error.mp he with he | ⟨w, _, he⟩
    · exact .inr (.inr (by rw [(need_eq_error.mp he).2]))
    · cases he

theorem execCfgLoad_cases {s t : State} (h : execCfgLoad s = .next t) :
    (∃ tree, s.din = .tree tree ∧ treeValid params tree = true ∧
      t = State.complete { s with cfg := some (loadTree params tree), vec := none } .nothing) ∨
    t = s.takeError illegal ∨ t = s.takeError ⟨.configError, none⟩ := by
  rcases finish_eq_next.mp h with ⟨u, v, ha, rfl⟩ | ⟨e, he, rfl⟩
  · obtain ⟨tree, htr, ha⟩ := attempt_bind_eq_ok.mp ha
    split at ha
    · next hv => cases ha; exact .inl ⟨tree, needTree_eq_ok.mp htr, hv, rfl⟩
    · cases ha
  · rcases attempt_bind_eq_error.mp he with he | ⟨_, _, he⟩
    · exact .inr (.inl (by rw [needTree_error he]))
    · split at he <;> cases he
      exact .inr (.inr rfl)

theorem execFieldWr_cases {c : BitVec 5} {g : BitVec 3} {f : BitVec 16} {s t : State}
    (h : execFieldWr c g f s = .next t) :
    (∃ v cfg fld, s.din = .val v ∧ s.cfg = some cfg ∧ fieldAt params cfg (fieldAddr c g f) = some fld ∧
      t = State.complete { s with cfg := some (setField cfg (fieldAddr c g f) v), vec := none } .nothing) ∨
    t = s.takeError illegal ∨ t = s.takeError uninit ∨
    ∃ cfg, s.cfg = some cfg ∧ fieldAt params cfg (fieldAddr c g f) = none ∧
      t = s.takeError ⟨.configError, some (fieldAddr c g f)⟩ := by
  rcases finish_eq_next.mp h with ⟨u, w, ha, rfl⟩ | ⟨e, he, rfl⟩
  · obtain ⟨v, hv, ha⟩ := attempt_bind_eq_ok.mp ha
    obtain ⟨⟨cfg, fld⟩, hf, ha⟩ := attempt_bind_eq_ok.mp ha
    cases ha
    exact .inl ⟨v, cfg, fld, needVal_eq_ok.mp hv, (needField_eq_ok.mp hf).1, (needField_eq_ok.mp hf).2, rfl⟩
  · rcases attempt_bind_eq_error.mp he with he | ⟨_, _, he⟩
    · exact .inr (.inl (by rw [needVal_error he]))
    rcases attempt_bind_eq_error.mp he with he | ⟨_, _, he⟩
    · rcases needField_error he with rfl | ⟨cfg, hc, hf, rfl⟩
      · exact .inr (.inr (.inl rfl))
      · exact .inr (.inr (.inr ⟨cfg, hc, hf, rfl⟩))
    · cases he

theorem execFieldRd_cases {c : BitVec 5} {g : BitVec 3} {f : BitVec 16} {s t : State}
    (h : execFieldRd c g f s = .next t) :
    (∃ v, t = s.complete (.value v)) ∨
    t = s.takeError illegal ∨ t = s.takeError uninit ∨
    ∃ cfg, s.cfg = some cfg ∧ fieldAt params cfg (fieldAddr c g f) = none ∧
      t = s.takeError ⟨.configError, some (fieldAddr c g f)⟩ := by
  rcases finish_eq_next.mp h with ⟨u, w, ha, rfl⟩ | ⟨e, he, rfl⟩
  · obtain ⟨_, _, ha⟩ := attempt_bind_eq_ok.mp ha
    obtain ⟨_, _, ha⟩ := attempt_bind_eq_ok.mp ha
    cases ha; exact .inl ⟨_, rfl⟩
  · rcases attempt_bind_eq_error.mp he with he | ⟨_, _, he⟩
    · exact .inr (.inl (by rw [needNone_error he]))
    rcases attempt_bind_eq_error.mp he with he | ⟨_, _, he⟩
    · rcases needField_error he with rfl | ⟨cfg, hc, hf, rfl⟩
      · exact .inr (.inr (.inl rfl))
      · exact .inr (.inr (.inr ⟨cfg, hc, hf, rfl⟩))
    · cases he

/-! The builder raises OutOfRange, located at a field that does not fit, and nothing else. -/

theorem fieldsBits_error {P : Params} {n : String} {c g f : Nat} {fs : List RegisterField} {e : Raise}
    (h : fieldsBits P n c g f fs = .error e) :
    ∃ (k : Nat) (fld : RegisterField), fs[k]? = some fld ∧ ¬ fld.Fits ∧ e = ⟨.outOfRange, some ⟨c, g, f + k⟩⟩ := by
  induction fs generalizing f with
  | nil => cases h
  | cons fld rest ih =>
    rcases attempt_bind_eq_error.mp h with h | ⟨_, _, h⟩
    · unfold fieldBits at h; split at h <;> cases h
      next hf => exact ⟨0, fld, rfl, hf, rfl⟩
    rcases attempt_bind_eq_error.mp h with h | ⟨_, _, h⟩
    · obtain ⟨k, fld', hk, hf, rfl⟩ := ih h
      exact ⟨k + 1, fld', hk, hf, by rw [Nat.add_right_comm, Nat.add_assoc]⟩
    · cases h

theorem groupsBits_error {P : Params} {c g : Nat} {gs : List RegisterGroup} {e : Raise}
    (h : groupsBits P c g gs = .error e) :
    ∃ (j k : Nat) (grp : RegisterGroup) (fld : RegisterField), gs[j]? = some grp ∧ grp.fields[k]? = some fld ∧
      ¬ fld.Fits ∧ e = ⟨.outOfRange, some ⟨c, g + j, k⟩⟩ := by
  induction gs generalizing g with
  | nil => cases h
  | cons grp rest ih =>
    rcases attempt_bind_eq_error.mp h with h | ⟨_, _, h⟩
    · obtain ⟨k, fld, hk, hf, rfl⟩ := fieldsBits_error h
      exact ⟨0, k, grp, fld, rfl, hk, hf, by rw [Nat.zero_add]; rfl⟩
    rcases attempt_bind_eq_error.mp h with h | ⟨_, _, h⟩
    · obtain ⟨j, k, grp', fld, hj, hk, hf, rfl⟩ := ih h
      exact ⟨j + 1, k, grp', fld, hj, hk, hf, by rw [Nat.add_right_comm, Nat.add_assoc]⟩
    · cases h

theorem chainVecFrom_error {P : Params} {msb : Bool} {c : Nat} {cfg : Chain} {e : Raise}
    (h : chainVecFrom P msb c cfg = .error e) :
    ∃ i j k, Misfit cfg ⟨i, j, k⟩ ∧ e = ⟨.outOfRange, some ⟨c + i, j, k⟩⟩ := by
  induction cfg generalizing c with
  | nil => cases h
  | cons chip rest ih =>
    rcases attempt_bind_eq_error.mp h with h | ⟨_, _, h⟩
    · obtain ⟨i, j, k, hm, rfl⟩ := ih h
      exact ⟨i + 1, j, k, hm, by rw [Nat.add_right_comm, Nat.add_assoc]⟩
    rcases attempt_bind_eq_error.mp h with h | ⟨_, _, h⟩
    · rcases attempt_bind_eq_error.mp h with h | ⟨_, _, h⟩
      · obtain ⟨j, k, grp, fld, hj, hk, hf, rfl⟩ := groupsBits_error h
        exact ⟨0, j, k, ⟨chip, grp, fld, rfl, hj, hk, hf⟩, by rw [Nat.zero_add]; rfl⟩
      · cases h
    · cases h

theorem execBuildVec_cases {s t : State} (h : execBuildVec s = .next t) :
    (∃ cfg v, s.cfg = some cfg ∧ chainVec params s.msbFirst cfg = .ok v ∧
      t = State.complete { s with vec := some v } (.bits v)) ∨
    t = s.takeError illegal ∨ t = s.takeError uninit ∨
    ∃ cfg a, s.cfg = some cfg ∧ Misfit cfg a ∧ t = s.takeError ⟨.outOfRange, some a⟩ := by
  rcases finish_eq_next.mp h with ⟨u, w, ha, rfl⟩ | ⟨e, he, rfl⟩
  · obtain ⟨_, _, ha⟩ := attempt_bind_eq_ok.mp ha
    obtain ⟨cfg, hc, ha⟩ := attempt_bind_eq_ok.mp ha
    obtain ⟨v, hv, ha⟩ := attempt_bind_eq_ok.mp ha
    cases ha; exact .inl ⟨cfg, v, need_eq_ok.mp hc, hv, rfl⟩
  · rcases attempt_bind_eq_error.mp he with he | ⟨_, _, he⟩
    · exact .inr (.inl (by rw [needNone_error he]))
    rcases attempt_bind_eq_error.mp he with he | ⟨cfg, hc, he⟩
    · exact .inr (.inr (.inl (by rw [(need_eq_error.mp he).2])))
    rcases attempt_bind_eq_error.mp he with he | ⟨_, _, he⟩
    · obtain ⟨i, j, k, hm, rfl⟩ := chainVecFrom_error he
      exact .inr (.inr (.inr ⟨cfg, ⟨i, j, k⟩, need_eq_ok.mp hc, hm, by rw [Nat.zero_add]⟩))
    · cases he

theorem execBuildRow_cases {c : BitVec 5} {g : BitVec 3} {s t : State} (h : execBuildRow c g s = .next t) :
    (∃ cfg chip grp v, s.cfg = some cfg ∧ groupAt params cfg c.toNat g.toNat = some (chip, grp) ∧
      rowVec params s.msbFirst c.toNat g.toNat grp = .ok v ∧
      t = State.complete { s with vec := some v } (.bits v)) ∨
    t = s.takeError illegal ∨ t = s.takeError uninit ∨ ∃ cfg, s.cfg = some cfg ∧
      (((∃ p, groupAt params cfg c.toNat g.toNat = some p) ∧ t = s.takeError ⟨.configError, none⟩) ∨
        (groupAt params cfg c.toNat g.toNat = none ∧
          t = s.takeError ⟨.configError, some ⟨c.toNat, g.toNat, 0⟩⟩) ∨
        ∃ f, Misfit cfg ⟨c.toNat, g.toNat, f⟩ ∧ t = s.takeError ⟨.outOfRange, some ⟨c.toNat, g.toNat, f⟩⟩) := by
  rcases finish_eq_next.mp h with ⟨u, w, ha, rfl⟩ | ⟨e, he, rfl⟩
  · obtain ⟨_, _, ha⟩ := attempt_bind_eq_ok.mp ha
    obtain ⟨cfg, hc, ha⟩ := attempt_bind_eq_ok.mp ha
    obtain ⟨grp, hg, ha⟩ := attempt_bind_eq_ok.mp ha
    obtain ⟨v, hv, ha⟩ := attempt_bind_eq_ok.mp ha
    cases ha
    unfold needRow at hg
    split at hg
    · cases hg
    · next chip grp' hga =>
      split at hg <;> cases hg
      exact .inl ⟨cfg, chip, grp, v, need_eq_ok.mp hc, hga, hv, rfl⟩
  · rcases attempt_bind_eq_error.mp he with he | ⟨_, _, he⟩
    · exact .inr (.inl (by rw [needNone_error he]))
    rcases attempt_bind_eq_error.mp he with he | ⟨cfg, hc, he⟩
    · exact .inr (.inr (.inl (by rw [(need_eq_error.mp he).2])))
    refine .inr (.inr (.inr ⟨cfg, need_eq_ok.mp hc, ?_⟩))
    rcases attempt_bind_eq_error.mp he with he | ⟨grp, hg, he⟩
    · unfold needRow at he
      split at he
      · next hn => cases he; exact .inr (.inl ⟨hn, rfl⟩)
      · next hp => split at he <;> cases he; exact .inl ⟨⟨_, hp⟩, rfl⟩
    rcases attempt_bind_eq_error.mp he with he | ⟨_, _, he⟩
    · rcases attempt_bind_eq_error.mp he with he | ⟨_, _, he⟩
      · obtain ⟨f, fld, hf, hm, rfl⟩ := fieldsBits_error he
        unfold needRow at hg
        split at hg
        · cases hg
        · next chip grp' hp =>
          split at hg <;> cases hg
          obtain ⟨-, h1, h2⟩ := groupAt_eq_some.mp hp
          exact .inr (.inr ⟨f, ⟨chip, grp, fld, h1, h2, hf, hm⟩, by rw [Nat.zero_add]⟩)
      · cases he
    · cases he

theorem execBitrev_cases {w : BitVec 8} {s t : State} (h : execBitrev w s = .next t) :
    (∃ v, t = s.complete (.value v)) ∨ t = s.takeError illegal ∨ t = s.takeError ⟨.outOfRange, none⟩ := by
  rcases finish_eq_next.mp h with ⟨u, r, ha, rfl⟩ | ⟨e, he, rfl⟩
  · obtain ⟨v, _, ha⟩ := attempt_bind_eq_ok.mp ha
    obtain ⟨_, _, ha⟩ := attempt_bind_eq_ok.mp ha
    split at ha <;> cases ha
    exact .inl ⟨_, rfl⟩
  · rcases attempt_bind_eq_error.mp he with he | ⟨_, _, he⟩
    · exact .inr (.inl (by rw [needVal_error he]))
    rcases attempt_bind_eq_error.mp he with he | ⟨_, _, he⟩
    · exact .inr (.inl (by rw [needWidth_error he]))
    · split at he <;> cases he
      exact .inr (.inr rfl)

theorem execGrayDec_cases {s t : State} (h : execGrayDec s = .next t) :
    (∃ v, t = s.complete (.value v)) ∨ t = s.takeError illegal := by
  rcases finish_eq_next.mp h with ⟨u, r, ha, rfl⟩ | ⟨e, he, rfl⟩
  · obtain ⟨v, _, ha⟩ := attempt_bind_eq_ok.mp ha
    cases ha; exact .inl ⟨_, rfl⟩
  · rcases attempt_bind_eq_error.mp he with he | ⟨_, _, he⟩
    · exact .inr (by rw [needVal_error he])
    · cases he

theorem execSrPattern_cases {src load : Bool} {s t : State} (h : execSrPattern src load s = .next t) :
    (∃ x, t = s.complete (.bytes x)) ∨ t = s.takeError illegal ∨ t = s.takeError uninit := by
  rcases finish_eq_next.mp h with ⟨u, r, ha, rfl⟩ | ⟨e, he, rfl⟩
  · obtain ⟨_, _, ha⟩ := attempt_bind_eq_ok.mp ha
    obtain ⟨_, _, ha⟩ := attempt_bind_eq_ok.mp ha
    cases ha; exact .inl ⟨_, rfl⟩
  · rcases attempt_bind_eq_error.mp he with he | ⟨_, _, he⟩
    · rcases needSource_error he with rfl | rfl
      · exact .inr (.inl rfl)
      · exact .inr (.inr rfl)
    rcases attempt_bind_eq_error.mp he with he | ⟨_, _, he⟩
    · exact .inr (.inr (by rw [(need_eq_error.mp he).2]))
    · cases he

theorem execSrRbPattern_cases {src : Bool} {s t : State} (h : execSrRbPattern src s = .next t) :
    (∃ x, t = s.complete (.bytes x)) ∨ t = s.takeError illegal ∨ t = s.takeError uninit := by
  rcases finish_eq_next.mp h with ⟨u, r, ha, rfl⟩ | ⟨e, he, rfl⟩
  · obtain ⟨_, _, ha⟩ := attempt_bind_eq_ok.mp ha
    obtain ⟨_, _, ha⟩ := attempt_bind_eq_ok.mp ha
    cases ha; exact .inl ⟨_, rfl⟩
  · rcases attempt_bind_eq_error.mp he with he | ⟨_, _, he⟩
    · rcases needSource_error he with rfl | rfl
      · exact .inr (.inl rfl)
      · exact .inr (.inr rfl)
    rcases attempt_bind_eq_error.mp he with he | ⟨_, _, he⟩
    · exact .inr (.inr (by rw [(need_eq_error.mp he).2]))
    · cases he

theorem execAddrFrame_cases {fopc faddr : BitVec 8} {s t : State} (h : execAddrFrame fopc faddr s = .next t) :
    (∃ x, t = s.complete (.bytes x)) ∨ t = s.takeError illegal ∨ t = s.takeError ⟨.outOfRange, none⟩ := by
  rcases finish_eq_next.mp h with ⟨u, r, ha, rfl⟩ | ⟨e, he, rfl⟩
  · obtain ⟨_, _, ha⟩ := attempt_bind_eq_ok.mp ha
    split at ha <;> cases ha
    exact .inl ⟨_, rfl⟩
  · rcases attempt_bind_eq_error.mp he with he | ⟨_, _, he⟩
    · exact .inr (.inl (by rw [needBytes_error he]))
    · split at he <;> cases he
      exact .inr (.inr rfl)

theorem needWriteRegs_error {s : State} {e : Raise} (h : needWriteRegs s = .error e) : e = uninit := by
  rcases attempt_bind_eq_error.mp h with h | ⟨_, _, h⟩
  · exact (need_eq_error.mp h).2
  rcases attempt_bind_eq_error.mp h with h | ⟨_, _, h⟩
  · exact (need_eq_error.mp h).2
  rcases attempt_bind_eq_error.mp h with h | ⟨_, _, h⟩
  · exact (need_eq_error.mp h).2
  · cases h

theorem planWrite_error {src load : Bool} {s : State} {e : Raise} (h : planWrite src load s = .error e) :
    e = illegal ∨ e = uninit ∨ e = ⟨.outOfRange, none⟩ := by
  rcases attempt_bind_eq_error.mp h with h | ⟨_, _, h⟩
  · rcases needSource_error h with rfl | rfl
    · exact .inl rfl
    · exact .inr (.inl rfl)
  rcases attempt_bind_eq_error.mp h with h | ⟨⟨k, opc, addr⟩, _, h⟩
  · exact .inr (.inl (needWriteRegs_error h))
  · dsimp only at h
    split at h <;> cases h
    exact .inr (.inr rfl)

theorem planRbWrite_error {src : Bool} {s : State} {e : Raise} (h : planRbWrite src s = .error e) :
    e = illegal ∨ e = uninit ∨ e = ⟨.outOfRange, none⟩ := by
  rcases attempt_bind_eq_error.mp h with h | ⟨_, _, h⟩
  · rcases needSource_error h with rfl | rfl
    · exact .inl rfl
    · exact .inr (.inl rfl)
  rcases attempt_bind_eq_error.mp h with h | ⟨⟨k, opc, addr⟩, _, h⟩
  · exact .inr (.inl (needWriteRegs_error h))
  · dsimp only at h
    split at h <;> cases h
    exact .inr (.inr rfl)

/-- What both write commands can do once the frames are planned. -/
def WriteEnds (s t : State) (frames : List (List Byte)) : Prop :=
  (∃ w n, t = State.complete { s with txlog := s.txlog ++ frames, writeAnswers := w, draws := n }
    (.value frames.length)) ∨
  ∃ j w n, j < frames.length ∧
    t = State.takeError { s with txlog := s.txlog ++ frames.take j, writeAnswers := w, draws := n } ⟨.transportError, none⟩

theorem transmit_next {fs : List (List Byte)} {s t : State} (h : transmit fs s = .next t) : WriteEnds s t fs := by
  rcases transmit_cases fs s with ⟨w, n, e⟩ | ⟨j, w, n, hj, e⟩ | ⟨e, -⟩ <;> rw [e] at h <;> cases h
  · exact .inl ⟨w, n, rfl⟩
  · exact .inr ⟨j, w, n, hj, rfl⟩

theorem execSrWrite_cases {src load : Bool} {s t : State} (h : execSrWrite src load s = .next t) :
    (∃ frames, planWrite src load s = .ok frames ∧ WriteEnds s t frames) ∨
    t = s.takeError illegal ∨ t = s.takeError uninit ∨ t = s.takeError ⟨.outOfRange, none⟩ := by
  unfold execSrWrite at h
  split at h
  · next e he =>
    cases h
    rcases planWrite_error he with rfl | rfl | rfl
    · exact .inr (.inl rfl)
    · exact .inr (.inr (.inl rfl))
    · exact .inr (.inr (.inr rfl))
  · next frames hp => exact .inl ⟨frames, hp, transmit_next h⟩

theorem execSrRbWrite_cases {src : Bool} {s t : State} (h : execSrRbWrite src s = .next t) :
    (∃ frames, planRbWrite src s = .ok frames ∧ WriteEnds s t frames) ∨
    t = s.takeError illegal ∨ t = s.takeError uninit ∨ t = s.takeError ⟨.outOfRange, none⟩ := by
  unfold execSrRbWrite at h
  split at h
  · next e he =>
    cases h
    rcases planRbWrite_error he with rfl | rfl | rfl
    · exact .inr (.inl rfl)
    · exact .inr (.inr (.inl rfl))
    · exact .inr (.inr (.inr rfl))
  · next frames hp => exact .inl ⟨frames, hp, transmit_next h⟩

theorem execHdrInit_cases {s t : State} (h : execHdrInit s = .next t) :
    (∃ n b, s.chipCount = some n ∧ s.frameLen = some b ∧
      t = State.complete { s with hdrset := some (headerSet n.toNat b.toNat s.wireRev) }
        (.bytes (headerSet n.toNat b.toNat s.wireRev))) ∨
    t = s.takeError illegal ∨ t = s.takeError uninit := by
  rcases finish_eq_next.mp h with ⟨u, r, ha, rfl⟩ | ⟨e, he, rfl⟩
  · obtain ⟨_, _, ha⟩ := attempt_bind_eq_ok.mp ha
    obtain ⟨n, hn, ha⟩ := attempt_bind_eq_ok.mp ha
    obtain ⟨b, hb, ha⟩ := attempt_bind_eq_ok.mp ha
    cases ha; exact .inl ⟨n, b, need_eq_ok.mp hn, need_eq_ok.mp hb, rfl⟩
  · rcases attempt_bind_eq_error.mp he with he | ⟨_, _, he⟩
    · exact .inr (.inl (by rw [needNone_error he]))
    rcases attempt_bind_eq_error.mp he with he | ⟨_, _, he⟩
    · exact .inr (.inr (by rw [(need_eq_error.mp he).2]))
    rcases attempt_bind_eq_error.mp he with he | ⟨_, _, he⟩
    · exact .inr (.inr (by rw [(need_eq_error.mp he).2]))
    · cases he

theorem execPrefilter_cases {s t : State} (h : execPrefilter s = .next t) :
    (∃ y, t = State.complete { s with faultCnt := 0x0000#16 } (.bytes y)) ∨
    t = s.takeError illegal ∨ t = s.takeError ⟨.decodeFault, none⟩ := by
  rcases finish_eq_next.mp h with ⟨u, r, ha, rfl⟩ | ⟨e, he, rfl⟩
  · obtain ⟨_, _, ha⟩ := attempt_bind_eq_ok.mp ha
    split at ha <;> cases ha
    exact .inl ⟨_, rfl⟩
  · rcases attempt_bind_eq_error.mp he with he | ⟨_, _, he⟩
    · exact .inr (.inl (by rw [needBytes_error he]))
    · split at he <;> cases he
      exact .inr (.inr rfl)

theorem execScan_cases {s t : State} (h : execScan s = .next t) :
    (∃ fs, t = s.complete (.frames fs)) ∨ t = s.takeError illegal ∨ t = s.takeError uninit := by
  rcases finish_eq_next.mp h with ⟨u, r, ha, rfl⟩ | ⟨e, he, rfl⟩
  · obtain ⟨_, _, ha⟩ := attempt_bind_eq_ok.mp ha
    obtain ⟨_, _, ha⟩ := attempt_bind_eq_ok.mp ha
    obtain ⟨_, _, ha⟩ := attempt_bind_eq_ok.mp ha
    cases ha; exact .inl ⟨_, rfl⟩
  · rcases attempt_bind_eq_error.mp he with he | ⟨_, _, he⟩
    · exact .inr (.inl (by rw [needBytes_error he]))
    rcases attempt_bind_eq_error.mp he with he | ⟨_, _, he⟩
    · exact .inr (.inr (by rw [(need_eq_error.mp he).2]))
    rcases attempt_bind_eq_error.mp he with he | ⟨_, _, he⟩
    · exact .inr (.inr (by rw [(need_eq_error.mp he).2]))
    · cases he

theorem execDecodeA_cases {s t : State} (h : execDecodeA s = .next t) :
    (∃ r, t = s.complete (recordOrSkip r)) ∨ t = s.takeError illegal ∨ t = s.takeError uninit := by
  rcases finish_eq_next.mp h with ⟨u, r, ha, rfl⟩ | ⟨e, he, rfl⟩
  · obtain ⟨_, _, ha⟩ := attempt_bind_eq_ok.mp ha
    obtain ⟨_, _, ha⟩ := attempt_bind_eq_ok.mp ha
    cases ha; exact .inl ⟨_, rfl⟩
  · rcases attempt_bind_eq_error.mp he with he | ⟨_, _, he⟩
    · exact .inr (.inl (by rw [needBytesStamp_error he]))
    rcases attempt_bind_eq_error.mp he with he | ⟨_, _, he⟩
    · exact .inr (.inr (by rw [(need_eq_error.mp he).2]))
    · cases he

theorem execDecodeB_cases {s t : State} (h : execDecodeB s = .next t) :
    (∃ r, t = s.complete (recordOrSkip r)) ∨ t = s.takeError illegal := by
  rcases finish_eq_next.mp h with ⟨u, r, ha, rfl⟩ | ⟨e, he, rfl⟩
  · obtain ⟨_, _, ha⟩ := attempt_bind_eq_ok.mp ha
    cases ha; exact .inl ⟨_, rfl⟩
  · rcases attempt_bind_eq_error.mp he with he | ⟨_, _, he⟩
    · exact .inr (by rw [needBytes_error he])
    · cases he

theorem needAcquisition_error {s : State} {e : Raise} (h : needAcquisition s = .error e) : e = uninit := by
  rcases attempt_bind_eq_error.mp h with h | ⟨_, _, h⟩
  · exact (need_eq_error.mp h).2
  rcases attempt_bind_eq_error.mp h with h | ⟨_, _, h⟩
  · exact (need_eq_error.mp h).2
  split at h
  · rcases attempt_bind_eq_error.mp h with h | ⟨_, _, h⟩
    · exact (need_eq_error.mp h).2
    · cases h
  · cases h

/-- What the common end of ACQUIRE and ACQUIRE_RX can do. -/
theorem acquireFrom_cases {s : State} {hdrs : List Byte} {b period : Nat} {x : List Byte} {seq : Nat} {t : Time} :
    (∃ rs, acquireFrom s hdrs b period x seq t = .ok ({ s with faultCnt := 0x0000#16 }, .records rs)) ∨
      acquireFrom s hdrs b period x seq t = .error ⟨.decodeFault, none⟩ := by
  unfold acquireFrom
  split
  · exact .inr rfl
  · exact .inl ⟨_, rfl⟩

theorem execAcquire_cases {s t : State} (h : execAcquire s = .next t) :
    (∃ rs, t = State.complete { s with faultCnt := 0x0000#16 } (.records rs)) ∨
    t = s.takeError illegal ∨ t = s.takeError uninit ∨ t = s.takeError ⟨.decodeFault, none⟩ := by
  rcases finish_eq_next.mp h with ⟨u, r, ha, rfl⟩ | ⟨e, he, rfl⟩
  · obtain ⟨⟨x, seq, time⟩, _, ha⟩ := attempt_bind_eq_ok.mp ha
    obtain ⟨⟨hdrs, b, period⟩, _, ha⟩ := attempt_bind_eq_ok.mp ha
    dsimp only at ha
    rcases acquireFrom_cases (s := s) (hdrs := hdrs) (b := b) (period := period) (x := x) (seq := seq) (t := time)
      with ⟨rs, e⟩ | e <;> rw [e] at ha <;> cases ha
    exact .inl ⟨rs, rfl⟩
  · rcases attempt_bind_eq_error.mp he with he | ⟨⟨x, seq, time⟩, _, he⟩
    · exact .inr (.inl (by rw [needBytesStamp_error he]))
    rcases attempt_bind_eq_error.mp he with he | ⟨⟨hdrs, b, period⟩, _, he⟩
    · exact .inr (.inr (.inl (by rw [needAcquisition_error he])))
    dsimp only at he
    rcases acquireFrom_cases (s := s) (hdrs := hdrs) (b := b) (period := period) (x := x) (seq := seq) (t := time)
      with ⟨rs, e⟩ | e <;> rw [e] at he <;> cases he
    exact .inr (.inr (.inr rfl))

theorem planAcquireRx_error {s : State} {e : Raise} (h : planAcquireRx s = .error e) : e = illegal ∨ e = uninit := by
  rcases attempt_bind_eq_error.mp h with h | ⟨_, _, h⟩
  · exact .inl (needStamp_error h)
  rcases attempt_bind_eq_error.mp h with h | ⟨_, _, h⟩
  · exact .inr (needAcquisition_error h)
  · cases h

theorem execAcquireRx_cases {n : BitVec 16} {s t : State} (h : execAcquireRx n s = .next t) :
    (t = s.takeError illegal ∨ t = s.takeError uninit) ∨
    ∃ r k, (∃ rs, t = State.complete { s with readAnswers := r, draws := k, faultCnt := 0x0000#16 } (.records rs)) ∨
      t = State.takeError { s with readAnswers := r, draws := k } ⟨.transportError, none⟩ ∨
      t = State.takeError { s with readAnswers := r, draws := k } ⟨.decodeFault, none⟩ := by
  unfold execAcquireRx at h
  split at h
  · next e he =>
    cases h
    rcases planAcquireRx_error he with rfl | rfl
    · exact .inl (.inl rfl)
    · exact .inl (.inr rfl)
  · next seq time hdrs b period _ =>
    obtain ⟨⟨r, k, hu⟩, -, -⟩ := drawRead_frame s n.toNat
    generalize s.drawRead n.toNat = d at h hu
    obtain ⟨a, u⟩ := d
    cases hu
    refine .inr ⟨r, k, ?_⟩
    cases a with
    | bytes x =>
      dsimp only at h
      rcases acquireFrom_cases (s := { s with readAnswers := r, draws := k }) (hdrs := hdrs) (b := b)
        (period := period) (x := x) (seq := seq) (t := time) with ⟨rs, e⟩ | e <;> rw [e] at h <;> cases h
      · exact .inl ⟨rs, rfl⟩
      · exact .inr (.inr rfl)
    | fail => cases h; exact .inr (.inl rfl)
    | never => cases h

end Sys2Proof.Machine
end

