-- ==== Sys2Proof/Laws/Params.lean ====
section
/-! SUPPORT. The parameter set is legal for every value of the OPEN constants (00_scope.md R8): the build-time refusal of
an illegal one is this theorem's failure to compile. -/

namespace Sys2Proof.Machine

theorem lineMask_injective : Function.Injective lineMask := by
  intro a b h; revert a b; decide

theorem params_legal : params.Legal where
  oneBit := by
    intro p hp
    simp only [params, List.mem_cons, List.not_mem_nil, or_false] at hp
    rcases hp with rfl | rfl | rfl | rfl | rfl <;> exact ⟨_, rfl⟩
  pinsDistinct := by
    have e : [params.pinSin, params.pinCk1, params.pinCk2, params.pinLd, params.pinRb] =
        [(0 : Fin 8), 1, 2, 3, 4].map fun k => lineMask (Config.busLine k) := rfl
    rw [e]
    exact List.Nodup.map (lineMask_injective.comp Config.busLine.injective) (by decide)
  startNotMarker := by simp [params]
  reversedInOrder := by decide +kernel
  orderNodup := by decide +kernel
  orderLength := by decide +kernel
  nLoadPos := by decide +kernel
  totDivPos := by decide +kernel

end Sys2Proof.Machine
end

