-- ==== Sys2Proof/Laws/PerInstr.lean ====
section
/-! SUPPORT. The statement family FixedBits: the bits outside an instruction's fields are the match value of its row of
30_encoding.md R91. -/

namespace Sys2Proof.Laws.FixedBits

/-- `encode i & mask = match` (30_encoding.md R91). -/
def Statement (i : Instr) : Prop := encode i &&& (matchMask i).2 = (matchMask i).1

theorem nop : Statement .nop := by unfold Statement; decide

theorem reset : Statement .reset := by unfold Statement; decide

theorem cfgLoad : Statement .cfgLoad := by unfold Statement; decide

theorem fieldWr (c : BitVec 5) (g : BitVec 3) (f : BitVec 16) : Statement (.fieldWr c g f) := by
  simp only [Statement, encode, matchMask, place]
  ext k hk
  simp only [BitVec.getElem_and, BitVec.getElem_or]
  interval_cases k <;> simp

theorem fieldRd (c : BitVec 5) (g : BitVec 3) (f : BitVec 16) : Statement (.fieldRd c g f) := by
  simp only [Statement, encode, matchMask, place]
  ext k hk
  simp only [BitVec.getElem_and, BitVec.getElem_or]
  interval_cases k <;> simp

theorem cregWr (crn : BitVec 8) (imm : BitVec 16) : Statement (.cregWr crn imm) := by
  simp only [Statement, encode, matchMask, place]
  ext k hk
  simp only [BitVec.getElem_and, BitVec.getElem_or]
  interval_cases k <;> simp

theorem cregRd (crn : BitVec 8) : Statement (.cregRd crn) := by
  simp only [Statement, encode, matchMask, place]
  ext k hk
  simp only [BitVec.getElem_and, BitVec.getElem_or]
  interval_cases k <;> simp

theorem buildVec : Statement .buildVec := by unfold Statement; decide

theorem buildRow (c : BitVec 5) (g : BitVec 3) : Statement (.buildRow c g) := by
  simp only [Statement, encode, matchMask, place]
  ext k hk
  simp only [BitVec.getElem_and, BitVec.getElem_or]
  interval_cases k <;> simp

theorem bitrev (w : BitVec 8) : Statement (.bitrev w) := by
  simp only [Statement, encode, matchMask, place]
  ext k hk
  simp only [BitVec.getElem_and, BitVec.getElem_or]
  interval_cases k <;> simp

theorem grayDec : Statement .grayDec := by unfold Statement; decide

theorem srPattern (src load : Bool) : Statement (.srPattern src load) := by
  simp only [Statement, encode, matchMask, place]
  ext k hk
  simp only [BitVec.getElem_and, BitVec.getElem_or]
  interval_cases k <;> simp

theorem srRbPattern (src : Bool) : Statement (.srRbPattern src) := by
  simp only [Statement, encode, matchMask, place]
  ext k hk
  simp only [BitVec.getElem_and, BitVec.getElem_or]
  interval_cases k <;> simp

theorem addrFrame (fopc faddr : BitVec 8) : Statement (.addrFrame fopc faddr) := by
  simp only [Statement, encode, matchMask, place]
  ext k hk
  simp only [BitVec.getElem_and, BitVec.getElem_or]
  interval_cases k <;> simp

theorem srWrite (src load : Bool) : Statement (.srWrite src load) := by
  simp only [Statement, encode, matchMask, place]
  ext k hk
  simp only [BitVec.getElem_and, BitVec.getElem_or]
  interval_cases k <;> simp

theorem srRbWrite (src : Bool) : Statement (.srRbWrite src) := by
  simp only [Statement, encode, matchMask, place]
  ext k hk
  simp only [BitVec.getElem_and, BitVec.getElem_or]
  interval_cases k <;> simp

theorem hdrInit : Statement .hdrInit := by unfold Statement; decide

theorem prefilter : Statement .prefilter := by unfold Statement; decide

theorem scan : Statement .scan := by unfold Statement; decide

theorem decodeA : Statement .decodeA := by unfold Statement; decide

theorem decodeB : Statement .decodeB := by unfold Statement; decide

theorem acquire : Statement .acquire := by unfold Statement; decide

theorem acquireRx (n : BitVec 16) : Statement (.acquireRx n) := by
  simp only [Statement, encode, matchMask, place]
  ext k hk
  simp only [BitVec.getElem_and, BitVec.getElem_or]
  interval_cases k <;> simp

end Sys2Proof.Laws.FixedBits
end

