-- ==== Sys2Proof/Laws/Readout.lean ====
section
/-! SUPPORT. The scanner, the pre-filter and the acquisition registers: fuel that is enough, what is left of a
pre-filtered readout, when acquisition has its registers. -/

namespace Sys2Proof.Machine

/-- Any two fuels that reach the end of the input give the same frames. -/
theorem scanLoop_fuel (hdrs : List Byte) (b : Nat) (rev : Bool) (hb : 1 ≤ b) (n m : Nat) (x : List Byte)
    (hn : x.length ≤ n) (hm : x.length ≤ m) : scanLoop hdrs b rev n x = scanLoop hdrs b rev m x := by
  induction n generalizing m x with
  | zero =>
    obtain rfl : x = [] := by simpa using hn
    cases m <;> rfl
  | succ n ih =>
    cases x with
    | nil => cases m <;> rfl
    | cons y ys =>
      cases m with
      | zero => simp at hm
      | succ m =>
        simp only [List.length_cons] at hn hm
        simp only [scanLoop]
        rw [ih m ys (by omega) (by omega), ih m ((y :: ys).drop b) (by simp; omega) (by simp; omega)]

theorem closeRun_flatten (p : List Byte × List (List Byte)) : (closeRun p).flatten = p.1 ++ p.2.flatten := by
  rcases p with ⟨_ | _, _⟩ <;> rfl

/-- The segments, concatenated, are the readout without its marker bytes. -/
theorem segments_flatten (markers x : List Byte) :
    (segments markers x).flatten = x.filter fun y => decide (y ∉ markers) := by
  rw [segments, closeRun_flatten]
  induction x with
  | nil => rfl
  | cons y ys ih =>
    simp only [splitRuns]
    by_cases hy : y ∈ markers
    · simpa [hy, closeRun_flatten] using ih
    · simpa [hy] using ih

/-- Acquisition's registers are all there. -/
theorem needAcquisition_ok {s : State} {hs : List Byte} {b : Half} (h1 : s.hdrset = some hs) (h2 : s.frameLen = some b)
    (h3 : b = 5#16 → s.samplePeriod ≠ none) :
    needAcquisition s = .ok (hs, b.toNat, if b = 5#16 then (s.samplePeriod.getD 0).toNat else 0) := by
  by_cases hb : b = 5#16
  · obtain ⟨p, hp⟩ := Option.ne_none_iff_exists'.1 (h3 hb)
    simp [needAcquisition, h1, h2, hb, hp]
  · simp [needAcquisition, h1, h2, hb]

end Sys2Proof.Machine
end

