-- ==== Sys2Proof/Laws/Serializer.lean ====
section
/-! SUPPORT. The serializer on fields that fit: what it builds, and that orientation and per-chip order undo themselves. -/

namespace Sys2Proof.Machine

@[simp] theorem slice_length (v w : Nat) : (slice v w).length = w := by simp [slice]

@[simp] theorem orient_orient (P : Params) (n : String) (s : List Bit) : orient P n (orient P n s) = s := by
  unfold orient; split <;> simp

@[simp] theorem orient_length (P : Params) (n : String) (s : List Bit) : (orient P n s).length = s.length := by
  unfold orient; split <;> simp

@[simp] theorem msbOrder_msbOrder (msb : Bool) (s : List Bit) : msbOrder msb (msbOrder msb s) = s := by
  unfold msbOrder; split <;> simp

@[simp] theorem msbOrder_length (msb : Bool) (s : List Bit) : (msbOrder msb s).length = s.length := by
  unfold msbOrder; split <;> simp

/-- The bits of a field that fits. -/
def fittingBits (P : Params) (group : String) (fld : RegisterField) : List Bit :=
  orient P group (slice fld.value fld.width)

theorem fieldsBits_ok (P : Params) (group : String) (c g f : Nat) (fs : List RegisterField) (h : ∀ x ∈ fs, x.Fits) :
    fieldsBits P group c g f fs = .ok (fs.flatMap (fittingBits P group)) := by
  induction fs generalizing f with
  | nil => rfl
  | cons x xs ih =>
    have hx : x.value < 2 ^ x.width := h x (by simp)
    simp [fieldsBits, fieldBits, hx, ih (f + 1) (fun y hy => h y (by simp [hy])), fittingBits]

theorem groupsBits_ok (P : Params) (c g : Nat) (gs : List RegisterGroup) (h : ∀ grp ∈ gs, ∀ x ∈ grp.fields, x.Fits) :
    groupsBits P c g gs = .ok (gs.flatMap fun grp => grp.fields.flatMap (fittingBits P grp.name)) := by
  induction gs generalizing g with
  | nil => rfl
  | cons x xs ih =>
    simp [groupsBits, fieldsBits_ok P x.name c g 0 x.fields (h x (by simp)), ih (g + 1) (fun y hy => h y (by simp [hy]))]

theorem chainVecFrom_ok (P : Params) (msb : Bool) (c : Nat) (cfg : Chain)
    (h : ∀ chip ∈ cfg, ∀ grp ∈ chip.groups, ∀ x ∈ grp.fields, x.Fits) :
    chainVecFrom P msb c cfg = .ok (cfg.reverse.flatMap fun chip =>
      msbOrder msb (chip.groups.flatMap fun grp => grp.fields.flatMap (fittingBits P grp.name))) := by
  induction cfg generalizing c with
  | nil => rfl
  | cons x xs ih =>
    simp [chainVecFrom, ih (c + 1) (fun y hy => h y (by simp [hy])), chipVec, chipBits,
      groupsBits_ok P c 0 x.groups (h x (by simp))]

/-- In this machine's parameter set the one reversed group is vdac. -/
theorem orient_params (n : String) (s : List Bit) : orient params n s = if n = "vdac" then s.reverse else s := by
  simp [orient, params]

/-- Where the first field that does not fit is, the error is located (41_serializer.md R134). -/
theorem fieldsBits_misfit (P : Params) (group : String) (c g f₀ f : Nat) (fs : List RegisterField) (fld : RegisterField)
    (hf : fs[f]? = some fld) (hbad : ¬ fld.Fits) (h : ∀ f' x, f' < f → fs[f']? = some x → x.Fits) :
    fieldsBits P group c g f₀ fs = .error ⟨.outOfRange, some ⟨c, g, f₀ + f⟩⟩ := by
  induction fs generalizing f f₀ with
  | nil => simp at hf
  | cons x xs ih =>
    cases f with
    | zero =>
      obtain rfl : x = fld := by simpa using hf
      have : ¬ x.value < 2 ^ x.width := hbad
      simp only [fieldsBits, fieldBits, if_neg this, raiseAt]; rfl
    | succ f =>
      have hx : x.value < 2 ^ x.width := h 0 x (by omega) rfl
      have := ih (f₀ + 1) f (by simpa using hf) (fun f' y hy h' => h (f' + 1) y (by omega) (by simpa using h'))
      simp [fieldsBits, fieldBits, hx, this]; omega

end Sys2Proof.Machine
end

