-- ==== Sys2Proof/Machine/HostSide.lean ====
section
/-! DEFINITION. What the spec gives the host's side of the interface: the pseudo-commands and the printed form of a
command word (30_encoding.md R89, R90), and the pixel-mask update the host composes (40_register_model.md R112). No
command of the core runs any of this. -/

namespace Sys2Proof.Machine

/-- The pseudo-commands of 30_encoding.md R90. -/
inductive Pseudo where
  | configure
  | configureRow (chip : BitVec 5) (grp : BitVec 3)
  | readback
  | set (crn : BitVec 8) (imm : BitVec 16)
  | get (crn : BitVec 8)
deriving DecidableEq, Repr

/-- Their expansions (30_encoding.md R90). The host must not issue the second command if the first raised. -/
def Pseudo.expand : Pseudo → List Command
  | .configure => [⟨encode .buildVec, .none⟩, ⟨encode (.srWrite true true), .none⟩]
  | .configureRow c g => [⟨encode (.buildRow c g), .none⟩, ⟨encode (.srWrite true true), .none⟩]
  | .readback => [⟨encode .buildVec, .none⟩, ⟨encode (.srRbWrite true), .none⟩]
  | .set crn imm => [⟨encode (.cregWr crn imm), .none⟩]
  | .get crn => [⟨encode (.cregRd crn), .none⟩]

/-- "Enable pixel (row r, column k)" as the host composes it from the old mask word (40_register_model.md R112): a
FIELD_WR of field `k` of group "recconfig" with bit `MASK_LAYOUT.comp_en(r)` set. -/
def enablePixel (P : Params) (chip : BitVec 5) (column : BitVec 16) (row oldWord : Nat) : Command :=
  ⟨encode (.fieldWr chip (BitVec.ofNat 3 (P.groupOrder.idxOf "recconfig")) column),
    .val (oldWord ||| 1 <<< P.maskLayout.compEn row)⟩

/-- The mnemonics of 30_encoding.md R82. -/
def mnemonic : Instr → String
  | .nop => "NOP"
  | .reset => "RESET"
  | .cfgLoad => "CFG_LOAD"
  | .fieldWr .. => "FIELD_WR"
  | .fieldRd .. => "FIELD_RD"
  | .cregWr .. => "CREG_WR"
  | .cregRd _ => "CREG_RD"
  | .buildVec => "BUILD_VEC"
  | .buildRow .. => "BUILD_ROW"
  | .bitrev _ => "BITREV"
  | .grayDec => "GRAY_DEC"
  | .srPattern .. => "SR_PATTERN"
  | .srRbPattern _ => "SR_RB_PATTERN"
  | .addrFrame .. => "ADDR_FRAME"
  | .srWrite .. => "SR_WRITE"
  | .srRbWrite _ => "SR_RB_WRITE"
  | .hdrInit => "HDR_INIT"
  | .prefilter => "PREFILTER"
  | .scan => "SCAN"
  | .decodeA => "DECODE_A"
  | .decodeB => "DECODE_B"
  | .acquire => "ACQUIRE"
  | .acquireRx _ => "ACQUIRE_RX"

/-- The register names of 10_state.md R29. -/
def cregName : Creg → String
  | .rw .ctrl => "CTRL"
  | .rw .clkdiv => "CLKDIV"
  | .rw .chipCount => "CHIP_COUNT"
  | .rw .frameLen => "FRAME_LEN"
  | .rw .samplePeriod => "SAMPLE_PERIOD"
  | .rw .frameOpc => "FRAME_OPC"
  | .rw .srAddr => "SR_ADDR"
  | .ro .status => "STATUS"
  | .ro .errlocCg => "ERRLOC_CG"
  | .ro .errlocF => "ERRLOC_F"
  | .ro .faultCnt => "FAULTCNT"

/-- A control-register operand: its name, or its number where none is assigned (30_encoding.md R89). -/
def printCreg (crn : BitVec 8) : String :=
  match Creg.ofNumber crn with
  | some r => cregName r
  | none => toString crn.toNat

/-- A group address operand. DESIGN CHOICE: R89 of 30_encoding.md has the group by index or by name, and the model prints
the index (log entry 19). -/
def printGroup (c : BitVec 5) (g : BitVec 3) : String := "c" ++ toString c.toNat ++ ".g" ++ toString g.toNat

/-- The fields of a command word in the syntax of 30_encoding.md R89, in decimal. Format S names VEC for SRC = 1 and
nothing for SRC = 0, where the bit literal is DIN's; LOAD is `printFlags`'s. -/
def printFields : Instr → List String
  | .nop | .reset | .cfgLoad | .buildVec | .grayDec | .hdrInit | .prefilter | .scan | .decodeA | .decodeB
  | .acquire => []
  | .fieldWr c g f | .fieldRd c g f => [printGroup c g ++ ".f" ++ toString f.toNat]
  | .cregWr crn imm => [printCreg crn, toString imm.toNat]
  | .cregRd crn => [printCreg crn]
  | .buildRow c g => [printGroup c g]
  | .bitrev w => [toString w.toNat]
  | .srPattern src _ | .srWrite src _ | .srRbPattern src | .srRbWrite src => if src then ["VEC"] else []
  | .addrFrame fopc faddr => [toString fopc.toNat, toString faddr.toNat]
  | .acquireRx n => [toString n.toNat]

/-- The LOAD flag, which stands after the bit-vector operand (30_encoding.md R89). -/
def printFlags : Instr → List String
  | .srPattern _ load | .srWrite _ load => if load then ["LOAD"] else []
  | .nop | .reset | .cfgLoad | .fieldWr .. | .fieldRd .. | .cregWr .. | .cregRd _ | .buildVec | .buildRow .. | .bitrev _
  | .grayDec | .srRbPattern _ | .addrFrame .. | .srRbWrite _ | .hdrInit | .prefilter | .scan | .decodeA | .decodeB
  | .acquire | .acquireRx _ => []

/-- Items between brackets (30_encoding.md R89). -/
def printList (items : List String) : String := "[" ++ String.intercalate ", " items ++ "]"

/-- Items between braces (30_encoding.md R89, 40_register_model.md R103), the braces given by their character codes. -/
def printBraced (items : List String) : String :=
  String.singleton (Char.ofNat 123) ++ String.intercalate ", " items ++ String.singleton (Char.ofNat 125)

/-- One field of a tree literal, as in the example of 40_register_model.md R105. -/
def printTreeField (f : TreeField) : String :=
  f.name ++ "(" ++ toString f.bitWidth ++ "," ++ toString f.value ++ ")"

/-- One group of a tree literal, as in the example of 40_register_model.md R105. -/
def printTreeGroup (g : TreeGroup) : String := g.name ++ ":" ++ printList (g.fields.map printTreeField)

/-- One chip of a tree literal, its entries in the order of 40_register_model.md R103 and its groups as in the example of
R105. DESIGN CHOICE: those two spell a tree differently, and the spaces and the entries left out are the model's (log
entry 19). -/
def printTreeChip (chip : TreeChip) : String :=
  printBraced ["version: " ++ toString chip.version, "rows: " ++ toString chip.rows, "cols: " ++ toString chip.cols,
    "groups: " ++ String.intercalate ", " (chip.groups.map printTreeGroup)]

/-- A capture time: TIME0 by its name, any other as the host writes it (30_encoding.md R89; log entry 19). -/
def printTime : Time → String
  | .time0 => "TIME0"
  | .captured c => Config.printCaptured c

/-- The data operand's literal (30_encoding.md R89), in decimal. -/
def printOperand : Din → List String
  | .none => []
  | .val v => [toString v]
  | .bits x => ["bits\"" ++ String.join (x.map fun b => if b then "1" else "0") ++ "\""]
  | .bytes x => [printList (x.map fun y => toString y.toNat)]
  | .tree t => ["tree" ++ printBraced [printList (t.map printTreeChip)]]
  | .stamp seq t => ["seq=" ++ toString seq, "t=" ++ printTime t]
  | .bytesStamp x seq t =>
    [printList (x.map fun y => toString y.toNat), "seq=" ++ toString seq, "t=" ++ printTime t]

/-- A mnemonic followed by its operands (30_encoding.md R89). -/
def printLine (i : Instr) (operands : List String) : String :=
  match operands with
  | [] => mnemonic i
  | _ :: _ => mnemonic i ++ " " ++ String.intercalate ", " operands

/-- The printed form of a command word: its mnemonic followed by its decoded fields (30_encoding.md R89). -/
def printWord (i : Instr) : String := printLine i (printFields i ++ printFlags i)

/-- A command as one line of assembler (30_encoding.md R89). -/
def printCommand (i : Instr) (d : Din) : String := printLine i (printFields i ++ printOperand d ++ printFlags i)

end Sys2Proof.Machine
end

