-- ==== Sys2Proof/Tests/Slice0.lean ====
section
/-! SUPPORT. The model's own tests: ill-formed words, a word per constructor, the vectors of 95_test_vectors.md, and for
each obligation with hypotheses a state and operands that meet them. Every expected value is the spec's. -/

namespace Sys2Proof.Tests

open Sys2Proof.Machine

/-! ## Well-formedness (30_encoding.md R79) -/

theorem test_bitrev_width_zero_ill_formed : (Instr.bitrev 0).WellFormed = false := by decide
theorem test_bitrev_width_65_ill_formed : (Instr.bitrev 65).WellFormed = false := by decide
theorem test_bitrev_width_bounds_ok : (Instr.bitrev 1).WellFormed = true ∧ (Instr.bitrev 64).WellFormed = true := by decide

/-! ## A word per constructor, written out from the formats of R71 and the opcodes of R82: the fields are separated in
binary, most significant first, where there are any. -/

theorem test_decode_nop : decode 0x00000000#32 = .ok .nop := by decide
theorem test_decode_reset : decode 0x01000000#32 = .ok .reset := by decide
theorem test_decode_cfgLoad : decode 0x02000000#32 = .ok .cfgLoad := by decide
theorem test_decode_fieldWr : decode 0b00000011_10001_100_0000000100000010#32 = .ok (.fieldWr 17 4 258) := by decide
theorem test_decode_fieldRd : decode 0b00000100_00001_011_1000000000000001#32 = .ok (.fieldRd 1 3 32769) := by decide
theorem test_decode_cregWr : decode 0b00000101_00000011_0000000000001000#32 = .ok (.cregWr 3 8) := by decide
theorem test_decode_cregRd : decode 0b00000110_00010011_0000000000000000#32 = .ok (.cregRd 0x13) := by decide
theorem test_decode_buildVec : decode 0x10000000#32 = .ok .buildVec := by decide
theorem test_decode_buildRow : decode 0b00010001_11111_100_0000000000000000#32 = .ok (.buildRow 31 4) := by decide
theorem test_decode_bitrev : decode 0b00010010_0000000000000000_00010001#32 = .ok (.bitrev 17) := by decide
theorem test_decode_grayDec : decode 0x13000000#32 = .ok .grayDec := by decide
theorem test_decode_srPattern : decode 0b00100000_000000_0_1_0000000000000000#32 = .ok (.srPattern false true) := by decide
theorem test_decode_srRbPattern : decode 0b00100001_000000_1_0_0000000000000000#32 = .ok (.srRbPattern true) := by decide
theorem test_decode_addrFrame : decode 0b00100010_00010010_00110100_00000000#32 = .ok (.addrFrame 0x12 0x34) := by decide
theorem test_decode_srWrite : decode 0b00100011_000000_1_0_0000000000000000#32 = .ok (.srWrite true false) := by decide
theorem test_decode_srRbWrite : decode 0b00100100_000000_0_0_0000000000000000#32 = .ok (.srRbWrite false) := by decide
theorem test_decode_hdrInit : decode 0x30000000#32 = .ok .hdrInit := by decide
theorem test_decode_prefilter : decode 0x31000000#32 = .ok .prefilter := by decide
theorem test_decode_scan : decode 0x32000000#32 = .ok .scan := by decide
theorem test_decode_decodeA : decode 0x33000000#32 = .ok .decodeA := by decide
theorem test_decode_decodeB : decode 0x34000000#32 = .ok .decodeB := by decide
theorem test_decode_acquire : decode 0x35000000#32 = .ok .acquire := by decide
theorem test_decode_acquireRx : decode 0b00110110_00000000_0000000001000000#32 = .ok (.acquireRx 64) := by decide

/-- V-F11, V-D12, V-R19, V-X1: reserved bits and reserved opcodes. -/
theorem test_decode_refuses : (decode 0x21010000#32).toOption = none ∧ (decode 0x11000001#32).toOption = none ∧
    (decode 0x06100001#32).toOption = none ∧ (decode 0x07000000#32).toOption = none ∧
    (decode 0x14000000#32).toOption = none ∧ (decode 0xFF000000#32).toOption = none := by decide

/-- The table's words, through the host's two entry points. -/
theorem test_table_word : decodeTableWord 32 0x12000008 = some (.bitrev 8) ∧
    decodeTableWord 32 0x25000000 = none := by decide

/-! ## A small state -/

/-- Power-on with an operand. -/
def withDin (d : Din) : State := { State.reset with din := d }

/-- The next state of one instruction. -/
def after (i : Instr) (s : State) : Option State :=
  match exec i s with
  | .next t => some t
  | .fault _ => none
  | .refused _ => none

/-- The test parameters of 95_test_vectors.md. -/
def testParams : Params :=
  { params with
    pinSin := 0x01#8
    pinCk1 := 0x02#8
    pinCk2 := 0x04#8
    pinLd := 0x08#8
    pinRb := 0x10#8
    rbPreamble := []
    markers := [0xAA#8, 0xFF#8]
    startMarker := 0x5A#8 }

/-- The tree T1 of 95_test_vectors.md, its groups in another order than GROUP_ORDER. -/
def treeT1 : RegisterTree :=
  [⟨0, 0, 0, [⟨"vdac", [⟨"V", 4, 3⟩]⟩, ⟨"digital", [⟨"A", 4, 9⟩, ⟨"B", 4, 1⟩]⟩, ⟨"bias", []⟩, ⟨"idac", []⟩,
    ⟨"recconfig", []⟩]⟩]

/-- One chip with the given groups. -/
def chipOf (digital bias vdac rec : List RegisterField) : ChipConfig :=
  ⟨0, 0, 0, [⟨"digital", digital⟩, ⟨"bias", bias⟩, ⟨"idac", []⟩, ⟨"vdac", vdac⟩, ⟨"recconfig", rec⟩]⟩

/-- T1 loaded, with the given value in field A. -/
def chainT1 (a : Nat) : Chain := [chipOf [⟨"A", 4, a⟩, ⟨"B", 4, 1⟩] [] [⟨"V", 4, 3⟩] []]

/-- Power-on with T1 loaded. -/
def withT1 (a : Nat) (d : Din) : State := { State.reset with cfg := some (chainT1 a), din := d }

/-- The acquisition state of program P2, after its step 4. -/
def stateP2 (d : Din) : State :=
  { State.reset with
    chipCount := some 2
    frameLen := some 5
    samplePeriod := some 5
    hdrset := some [0x04#8, 0x0C#8]
    din := d }

/-- The write registers of V-F17, and the transport's coming answers. -/
def stateF (answers : List WriteAnswer) (d : Din) : State :=
  { State.reset with
    clkdiv := some 1
    frameOpc := some 0x12
    srAddr := some 0x34
    writeAnswers := answers
    din := d }

/-! ## Sequencer and register model (95_test_vectors.md section 2.1) -/

/-- V-R1. -/
theorem test_nop_keeps_errloc : after .nop { withDin .none with errlocCg := 9, faultCnt := 3, cause := .decodeFault } =
    some { withDin .none with errlocCg := 9, faultCnt := 3 } := by decide

/-- V-R23. -/
theorem test_reset_keeps_txlog : (after .reset { withT1 9 .none with txlog := [[1]], clkdiv := some 3 }).map
    (fun t => (t.cfg, t.clkdiv, t.status, t.txlog)) = some (none, none, 0, [[1]]) := by decide

/-- The loaded chain of R105: groups in GROUP_ORDER order, fields in declared order. -/
theorem test_cfgLoad_orders_groups : loadTree params treeT1 = chainT1 9 := by decide

/-- V-R9. -/
theorem test_cfgLoad_missing_group : (after .cfgLoad (withT1 9 (.tree [⟨0, 0, 0, [⟨"digital", []⟩]⟩]))).map
    (fun t => (t.cfg, t.cause)) = some (some (chainT1 9), .configError) := by decide

/-- V-R7. -/
theorem test_fieldWr_unchecked : (after (.fieldWr 0 0 0) (withT1 9 (.val 16))).map (fun t => (t.cfg, t.status)) =
    some (some (chainT1 16), 0x0100) := by decide

/-- V-R5, V-R6. -/
theorem test_fieldWr_no_field :
    (after (.fieldWr 0 1 0) (withT1 9 (.val 5))).map (fun t => (t.errlocCg, t.errlocF, t.status)) = some (1, 0, 0x0101) ∧
    (after (.fieldWr 1 0 0) (withT1 9 (.val 5))).map (fun t => (t.errlocCg, t.errlocF)) = some (8, 0) := by decide

/-- V-R3. -/
theorem test_fieldRd : (after (.fieldRd 0 3 0) (withT1 9 .none)).map (·.resp) = some (.value 3) := by decide

/-- V-R16, V-R14 and the bound of CHIP_COUNT. -/
theorem test_cregWr_masks_and_bounds :
    (after (.cregWr 0 0xFFFF) (stateP2 .none)).map (fun t => (t.ctrl, t.hdrset)) = some (7, none) ∧
    (after (.cregWr 2 33) (stateP2 .none)).map (fun t => (t.chipCount, t.cause)) = some (some 2, .configError) ∧
    (after (.cregWr 2 32) (stateP2 .none)).map (fun t => (t.chipCount, t.cause)) = some (some 32, .none) := by decide

/-- V-R11 to V-R15, V-R17. -/
theorem test_cregWr_legality :
    (after (.cregWr 1 16) (withDin .none)).map (·.clkdiv) = some (some 16) ∧
    (after (.cregWr 1 0) (withDin .none)).map (fun t => (t.clkdiv, t.cause)) = some (none, .configError) ∧
    (after (.cregWr 3 6) (withDin .none)).map (·.cause) = some .configError ∧
    (after (.cregWr 5 0x100) (withDin .none)).map (·.cause) = some .configError ∧
    (after (.cregWr 5 0xFF) (withDin .none)).map (·.frameOpc) = some (some 0xFF) ∧
    (after (.cregWr 0x10 0) (withDin .none)).map (·.cause) = some .illegalCommand := by decide

/-- V-R22: STATUS reads as the command before left it. -/
theorem test_cregRd_status : (after (.cregRd 0x10) { withT1 16 .none with cause := .outOfRange }).map
    (fun t => (t.resp, t.status)) = some (.value 0x0103, 0x0100) := by decide

/-- V-R20, V-R18 and the last unassigned number below STATUS. -/
theorem test_cregRd_errors : (after (.cregRd 1) (withDin .none)).map (·.cause) = some .configNotInitialized ∧
    (after (.cregRd 7) (withDin .none)).map (·.cause) = some .illegalCommand ∧
    (after (.cregRd 0x0F) (withDin .none)).map (·.cause) = some .illegalCommand ∧
    (after (.cregRd 0x14) (withDin .none)).map (·.cause) = some .illegalCommand := by decide

/-! ## Serializer and bit utilities (section 2.2) -/

/-- V-D1. -/
theorem test_buildVec : (after .buildVec { withT1 9 .none with ctrl := 1 }).map (·.resp) =
    some (.bits [true, false, false, true, false, false, false, true, true, true, false, false]) := by decide

/-- V-D7: chip 1 is processed first. -/
theorem test_buildVec_first_misfit : (after .buildVec { withDin .none with cfg := some (
      [chipOf [⟨"A", 2, 4⟩] [] [] [], chipOf [] [⟨"B", 3, 8⟩] [] []]) }).map (fun t => (t.errlocCg, t.errlocF, t.vec)) =
    some (9, 0, none) := by decide

/-- V-D4, MSBFIRST = 0: chip 1 first, each chip reversed. -/
theorem test_chainVec_order : (chainVec params false
      [chipOf [⟨"A", 2, 1⟩] [⟨"B", 3, 6⟩] [] [], chipOf [⟨"A", 2, 2⟩] [⟨"B", 3, 3⟩] [] []]).toOption =
    some [true, true, false, false, true, false, true, true, true, false] := by decide

/-- V-D10, V-D9. -/
theorem test_rowVec : (rowVec params false 0 3 ⟨"vdac", [⟨"V", 4, 3⟩]⟩).toOption = some [false, false, true, true] ∧
    (rowVec params false 0 4 ⟨"recconfig", [⟨"E", 2, 2⟩]⟩).toOption = some [false, true] := by decide

/-- V-D11. -/
theorem test_buildRow_no_group : (after (.buildRow 0 5) (withT1 9 .none)).map
    (fun t => (t.errlocCg, t.errlocF, t.cause)) = some (5, 0, .configError) := by decide

/-- V-E2 on V-D3. -/
theorem test_parse : parseChain params false (eraseValues [chipOf [⟨"A", 3, 5⟩] [] [⟨"V", 4, 3⟩] [⟨"R", 2, 1⟩]])
    [true, false, false, false, true, true, true, false, true] =
    [chipOf [⟨"A", 3, 5⟩] [] [⟨"V", 4, 3⟩] [⟨"R", 2, 1⟩]] := by decide

/-- V-D13, V-D16, V-D17. -/
theorem test_bitrev : (after (.bitrev 8) (withDin (.val 4))).map (·.resp) = some (.value 0x20) ∧
    (after (.bitrev 17) (withDin (.val 0x12345))).map (·.resp) = some (.value 0x14589) ∧
    (after (.bitrev 64) (withDin (.val 1))).map (·.resp) = some (.value 0x8000000000000000) := by decide +kernel

/-- V-D19, V-D20. -/
theorem test_bitrev_errors : (after (.bitrev 4) (withDin (.val 16))).map (·.cause) = some .outOfRange ∧
    (after (.bitrev 0) (withDin (.val 0))).map (·.cause) = some .illegalCommand ∧
    (after (.bitrev 65) (withDin (.val 0))).map (·.cause) = some .illegalCommand := by decide

/-- V-D21, V-D22, V-D23. -/
theorem test_grayDec : (List.range 9).map grayDec = [0, 1, 3, 2, 7, 6, 4, 5, 15] ∧ grayDec 0x1FFFF = 87381 ∧
    grayDec 0x10064 = 131000 ∧ grayDec 0x56 = 100 := by decide +kernel

/-- The example of R143. -/
theorem test_grayDec_responds : (after .grayDec (withDin (.val 3))).map (·.resp) = some (.value 2) := by decide +kernel

/-! ## Framing engine (section 2.3) -/

/-- V-F2, V-F1. -/
theorem test_srPattern : genPattern testParams 2 [true] false = [1, 1, 3, 3, 1, 1, 5, 5, 1, 1] ∧
    genPattern testParams 1 [true, false] false = [1, 3, 1, 5, 1, 0, 2, 0, 4, 0] := by decide

/-- V-F3, V-F4. -/
theorem test_srPattern_strobe : genPattern testParams 1 [false] true =
      [0, 2, 0, 4, 0] ++ List.replicate 10 0 ++ List.replicate 10 8 ++ List.replicate 10 0 ∧
    genPattern testParams 2 [] true = List.replicate 20 0 ++ List.replicate 20 8 ++ List.replicate 20 0 := by
  decide +kernel

/-- V-F10. -/
theorem test_srRbPattern : genRb { testParams with rbPreamble := [0xA5] } 2 [true] =
    [0xA5, 0x11, 0x11, 0x13, 0x13, 0x11, 0x11, 0x15, 0x15, 0x11, 0x11] := by decide

/-- V-F12. -/
theorem test_addrFrame : (after (.addrFrame 0x12 0x34) (withDin (.bytes [1, 3, 1, 5, 1, 0, 2, 0, 4, 0]))).map (·.resp) =
    some (.bytes [0x12, 0x34, 0x00, 0x0A, 1, 3, 1, 5, 1, 0, 2, 0, 4, 0]) := by decide

/-- V-F14: the length is big-endian. -/
theorem test_addrFrame_length : (frame 0x12 0x34 (List.replicate 256 0)).take 4 = [0x12, 0x34, 0x01, 0x00] := by
  decide +kernel

/-- V-F16. -/
theorem test_chunkSize : [(1, true), (1, false), (2, true), (16, true), (2184, true), (13107, false), (13108, false)].map
      (fun p => chunkSize testParams p.1 (extraWrite testParams p.1 p.2)) =
    [13101, 13107, 6547, 813, 0, 1, 0] := by decide +kernel

/-- V-F17. -/
theorem test_writeFrames : writeFrames testParams 1 0x12 0x34 [true] true =
    [[0x12, 0x34, 0x00, 0x23, 1, 3, 1, 5, 1] ++ List.replicate 10 0 ++ List.replicate 10 8 ++ List.replicate 10 0] := by
  decide +kernel

/-- V-F26, V-F24. -/
theorem test_srWrite : (after (.srWrite false false) (stateF [.ok] (.bits []))).map (fun t => (t.txlog, t.resp)) =
      some ([[0x12, 0x34, 0, 0]], .value 1) ∧
    (after (.srWrite false false) { stateF [.ok] (.bits [true]) with frameOpc := none }).map
      (fun t => (t.cause, t.txlog)) = some (.configNotInitialized, []) := by decide +kernel

/-- V-F20 in small: a failed frame is not in TXLOG, the one before it is. -/
theorem test_transmit_fail : (match transmit [[1], [2], [3]] (stateF [.ok, .fail] .none) with
    | .next t => some (t.txlog, t.cause)
    | .fault _ => none
    | .refused _ => none) = some ([[1]], .transportError) := by decide

/-- V-F25. -/
theorem test_rbFrames : rbFrames testParams 1 0x12 0x34 [false] =
    [[0x12, 0x34, 0x00, 0x05, 0x10, 0x12, 0x10, 0x14, 0x10]] := by decide +kernel

/-- R174: an equal cut, and one with a shorter last chunk. -/
theorem test_chunks : chunks 2 [true, true, false, false] = [[true, true], [false, false]] ∧
    chunks 2 [true, true, false] = [[true, true], [false]] ∧ chunks 2 [] = [[]] := by decide

/-! ## Hit-frame locator (section 2.4) -/

/-- V-L1. -/
theorem test_hdrInit : (after .hdrInit { stateP2 .none with hdrset := none }).map (fun t => (t.hdrset, t.resp)) =
    some (some [0x04, 0x0C], .bytes [0x04, 0x0C]) := by decide

/-- V-E3, V-L2. -/
theorem test_headerSet : headerSet 4 5 true = [0x20, 0x30, 0x28, 0x38] ∧ headerSet 4 8 true = [0xE0, 0xF0, 0xE8, 0xF8] ∧
    headerSet 3 8 false = [0x07, 0x0F, 0x17] := by decide

/-- V-L7, V-L8, V-L9, V-L10. -/
theorem test_prefilter : prefilter testParams [0xAA, 0xAA, 0x5A, 0x04, 0x01, 0xFF, 0xFF, 0x5A, 0x02] =
      some [0x5A, 0x04, 0x01, 0x5A, 0x02] ∧
    prefilter testParams [0xAA, 0x5A, 0x04, 0xFF, 0x03, 0x04] = none ∧ prefilter testParams [] = some [] ∧
    prefilter testParams [0xAA, 0xFF] = some [] ∧ prefilter testParams [0x5A] = some [0x5A] ∧
    prefilter testParams [0x04, 0x01, 0x02] = none := by decide

/-- V-L9 and V-L11. -/
theorem test_prefilter_faultcnt : (after .prefilter { withDin (.bytes []) with faultCnt := 7 }).map
      (fun t => (t.faultCnt, t.resp)) = some (0, .bytes []) ∧
    faultCntSucc 0xFFFF = 0xFFFF ∧ faultCntSucc 0xFFFE = 0xFFFF := by decide

/-- V-S1 with `d5 = 04`. -/
theorem test_scan : (after .scan { stateP2 (.bytes [4, 1, 2, 3, 4, 4, 0xFF, 4, 1, 2, 3, 4, 4]) with hdrset := some [4] }).map
    (·.resp) = some (.frames [[4, 1, 2, 3, 4], [4, 0xFF, 4, 1, 2]]) := by decide

/-- V-L13, V-L14, V-S2. -/
theorem test_scanFrames : scanFrames [0xE0, 0xF0] 8 true [0x00, 0xF0, 0xAA, 0x0E, 0x60, 0x12, 0x01, 0x50, 0xC3, 0x01] =
      [[0x0F, 0x55, 0x70, 0x06, 0x48, 0x80, 0x0A, 0xC3]] ∧
    scanFrames [4, 0x0C] 5 false [0, 0x10, 0x20, 0x0C, 0x30, 0x0C, 0x40, 0x50, 0x60, 0x70] =
      [[0x0C, 0x30, 0x0C, 0x40, 0x50]] ∧
    scanFrames [4] 5 false [4, 1, 2, 3, 4, 9, 4, 1, 2] = [[4, 1, 2, 3, 4]] := by decide +kernel

/-! ## Hit decoder and acquisition (section 2.5, program P2) -/

/-- V-A1. -/
theorem test_decodeA : (after .decodeA (stateP2 (.bytesStamp [0x07, 0x85, 0xC8, 0x03, 0x10] 0 .time0))).map (·.resp) =
    some (.record (.layoutA ⟨0, 0, 7, 5, true, 200, 3, 16, 784, 98 / 25, .time0⟩)) := by decide +kernel

/-- V-A3, V-A6. -/
theorem test_decodeA_masks : decodeFrameA 5 [0x04, 0x45, 0x00, 0xF2, 0x01] 0 .time0 =
      some ⟨0, 0, 4, 5, false, 0, 2, 1, 513, 513 / 200, .time0⟩ ∧
    decodeFrameA 5 [0x04, 0x01, 0x02, 0x03] 0 .time0 = none := by decide +kernel

/-- V-B1. -/
theorem test_decodeB : (after .decodeB (withDin (.bytes [0x0F, 0x55, 0x70, 0x06, 0x48, 0x80, 0x0A, 0xC3]))).map (·.resp) =
    some (.record (.layoutB ⟨1, 7, 10, 21, 8204, 4, 10, 6, true, false, 17, 3, 131000, 100, 43 / 5⟩)) := by decide +kernel

/-- V-B2, V-B7. -/
theorem test_decodeB_second : decodeFrameB params [0x07, 0x19, 0x20, 0x00, 0xF2, 0xC0, 0x02, 0x31] =
      some ⟨0, 7, 3, 4, 1, 7, 2, 1, true, true, 5, 17, 10, 30, 1⟩ ∧
    decodeFrameB params [0x07, 0x19, 0x20, 0x00, 0xF2] = none := by decide +kernel

/-- P2, step 5. -/
theorem test_acquire : (after .acquire (stateP2 (.bytesStamp
      [0xFF, 0x04, 0x85, 0xC8, 0x03, 0x10, 0x0C, 0x02, 0x10, 0x00, 0x20, 0x0C, 0x01] 7 .time0))).map (·.resp) =
    some (.records [.layoutA ⟨7, 0, 4, 5, true, 200, 3, 16, 784, 98 / 25, .time0⟩,
      .layoutA ⟨7, 1, 4, 2, false, 16, 0, 32, 32, 4 / 25, .time0⟩]) := by decide +kernel

/-- The example of R256, and V-X7. -/
theorem test_acquireRx : (after (.acquireRx 64) { stateP2 (.stamp 3 .time0) with readAnswers := [.bytes [4, 1, 2, 3, 4]] }).map
      (·.resp) = some (.records [.layoutA ⟨3, 0, 4, 1, false, 2, 3, 4, 772, 193 / 50, .time0⟩]) ∧
    (after (.acquireRx 0) { stateP2 (.stamp 3 .time0) with readAnswers := [.bytes [4, 1, 2, 3, 4]], faultCnt := 2 }).map
      (fun t => (t.resp, t.faultCnt)) = some (.records [], 0) := by decide +kernel

/-- V-X6, V-X5. -/
theorem test_acquireRx_errors : (after (.acquireRx 16) { stateP2 (.stamp 4 .time0) with readAnswers := [.fail], faultCnt := 2 }).map
      (fun t => (t.cause, t.faultCnt)) = some (.transportError, 2) ∧
    (after (.acquireRx 16) { withDin (.stamp 4 .time0) with readAnswers := [.fail] }).map
      (fun t => (t.cause, t.readAnswers)) = some (.configNotInitialized, [.fail]) := by decide

/-! ## Steps and the host's side -/

/-- V-X1, through a step: only STATUS changes, and the next command is in front. -/
theorem test_step_reserved : (match step { State.reset with host := [⟨0x07000000, .none⟩, ⟨0, .none⟩] } with
    | .next t => some (t.status, t.host)
    | .fault _ => none
    | .refused _ => none) = some (6, [⟨0, .none⟩]) := by decide

/-- A placed word is the next step's instruction. -/
theorem test_withFetchWord : (match step (State.reset.withFetchWord 32 0x0500FFFF) with
    | .next t => some (t.ctrl, t.host)
    | .fault _ => none
    | .refused _ => none) = some (7, []) := by decide

/-- R90, with the words of program P1: CONFIGURE. -/
theorem test_pseudo_configure : Pseudo.configure.expand = [⟨0x10000000, .none⟩, ⟨0x23030000, .none⟩] := by decide

/-- R90: CONFIGURE_ROW, READBACK, SET and GET. -/
theorem test_pseudo_rest : (Pseudo.configureRow 0 4).expand = [⟨0x11040000, .none⟩, ⟨0x23030000, .none⟩] ∧
    Pseudo.readback.expand = [⟨0x10000000, .none⟩, ⟨0x24020000, .none⟩] ∧
    (Pseudo.set 1 16).expand = [⟨0x05010010, .none⟩] ∧ (Pseudo.get 0x10).expand = [⟨0x06100000, .none⟩] := by decide

/-- R112, with a mask layout that has row `r` at bit `r`: "recconfig" is group 4. -/
theorem test_enablePixel : enablePixel { testParams with maskLayout := ⟨id, 0, 0, 0⟩ } 1 2 3 5 =
    ⟨0x030C0002, .val 13⟩ := by decide

/-- R89: the table's examples, in decimal. -/
theorem test_print : printWord (.srWrite true true) = "SR_WRITE VEC, LOAD" ∧
    printWord (.cregWr 1 16) = "CREG_WR CLKDIV, 16" ∧ printWord (.buildRow 0 4) = "BUILD_ROW c0.g4" ∧
    printCommand (.srPattern false true) (.bits [true, false, false, true]) = "SR_PATTERN bits\"1001\", LOAD" ∧
    printCommand (.fieldWr 0 0 2) (.val 9) = "FIELD_WR c0.g0.f2, 9" ∧
    printCommand (.addrFrame 18 52) (.bytes [1, 3]) = "ADDR_FRAME 18, 52, [1, 3]" ∧
    printCommand (.acquireRx 64) (.stamp 3 .time0) = "ACQUIRE_RX 64, seq=3, t=TIME0" ∧
    printTreeGroup ⟨"digital", [⟨"A", 4, 9⟩, ⟨"B", 4, 1⟩]⟩ = "digital:[A(4,9), B(4,1)]" := by decide +kernel

/-! ## Witnesses: the hypotheses of each obligation are met -/

theorem witness_DecodedWordsEncodeBack : decode 0x0500FFFF#32 = .ok (.cregWr 0 0xFFFF) := by decide

/-- A reserved opcode, and an assigned opcode with LOAD reserved. -/
theorem witness_ReservedWordsRaiseIllegalCommand : ∀ w ∈ [0x07000000#32, 0x21010000#32, 0x06100001#32], ∀ i : Instr,
    w.extractLsb' 24 8 = (matchMask i).1.extractLsb' 24 8 → w &&& (matchMask i).2 ≠ (matchMask i).1 := by
  intro w hw i
  simp only [List.mem_cons, List.not_mem_nil, or_false] at hw
  rcases hw with rfl | rfl | rfl <;> cases i <;> simp only [matchMask] <;> decide

theorem witness_StepRunsTheDecodedCommand : decode (⟨0x05010010, .none⟩ : Command).word = .ok (.cregWr 1 16) := by decide

/-- For both values of SRC, too. -/
theorem witness_WrongOperandKindRaisesIllegalCommand : dinKindOk .nop (.val 0) = false ∧
    dinKindOk (.srWrite true false) (.bits []) = false ∧ dinKindOk (.srWrite false false) .none = false ∧
    dinKindOk .cfgLoad .none = false := by decide

/-- A step that faults. -/
theorem witness_OnlyAHangingTransportStopsTheCore :
    step { stateF [.never] .none with host := [⟨0x23000000, .bits []⟩] } = .fault .transportNeverReturns := rfl

/-- An error that locates nothing, one at a field, one at a group, one at a value, and a transport failure. -/
theorem witness_ErrorsArePrecise :
    ErrorAt (.fieldRd 0 0 2) (withT1 9 .none) .configError ⟨0, 0, 2⟩ ∧
    ErrorAt (.buildRow 0 5) (withT1 9 .none) .configError ⟨0, 5, 0⟩ ∧
    ErrorAt .buildVec (withT1 16 .none) .outOfRange ⟨0, 0, 0⟩ ∧
    (after .hdrInit (withDin .none)).map (·.cause) = some .configNotInitialized ∧
    (after (.fieldRd 0 0 2) (withT1 9 .none)).map (·.cause) = some .configError ∧
    (after (.srWrite false false) (stateF [.fail] (.bits []))).map (·.cause) = some .transportError :=
  ⟨⟨_, rfl, .inl ⟨rfl, .inl ⟨0, 0, 2, .inr rfl, rfl, by decide⟩⟩⟩,
    ⟨_, rfl, .inl ⟨rfl, .inr ⟨0, 5, rfl, rfl, by decide⟩⟩⟩,
    ⟨_, rfl, .inr ⟨rfl, .inl rfl, _, _, _, rfl, rfl, rfl, by unfold RegisterField.Fits; decide⟩⟩, by decide +kernel⟩

/-- A PREFILTER that completes, an ACQUIRE that ends with another error, and a command of another unit. -/
theorem witness_FaultcntCountsConsecutiveFaults :
    (after .prefilter { withDin (.bytes []) with faultCnt := 7 }).map (·.faultCnt) = some 0 ∧
    (after .acquire { withDin (.bytesStamp [] 0 .time0) with faultCnt := 7 }).map (·.faultCnt) = some 7 ∧
    (after .nop { withDin .none with faultCnt := 7 }).map (·.faultCnt) = some 7 := by decide

theorem witness_CausesFollowTheTable : exec .nop (withDin .none) = .next (withDin .none) := rfl

theorem witness_EachElementHasItsWriters : (after (.cregWr 3 8) (stateP2 .none)).map (fun t => (t.frameLen, t.hdrset)) =
    some (some 8, none) := by decide

theorem registersLegal_stateP2 (d : Din) : RegistersLegal (stateP2 d) where
  ctrl := (by decide : (0#16 &&& 0xFFF8#16) = 0#16)
  clkdiv := by intro v h; cases h
  chipCount := by intro v h; cases h; decide
  frameLen := by intro v h; cases h; decide
  samplePeriod := by intro v h; cases h; decide
  frameOpc := by intro v h; cases h
  srAddr := by intro v h; cases h
  errlocCg := (by decide : (0#16 &&& 0xFF00#16) = 0#16)

/-- A state with registers written, and a step from it that writes one. -/
theorem witness_RegistersStayLegal : RegistersLegal (stateP2 .none) ∧
    (match step ((stateP2 .none).withFetchWord 32 0x05030008) with
    | .next t => some t.frameLen
    | .fault _ => none
    | .refused _ => none) = some (some 8) :=
  ⟨registersLegal_stateP2 .none, by decide⟩

/-- P2's state with T1 loaded and its vector built. -/
def stateBuilt : State :=
  { stateP2 .none with
    cfg := some (chainT1 9)
    vec := some [false, false, true, true, true, false, false, false, true, false, false, true] }

/-- A state with all three derived buffers valid, and a step from it. -/
theorem witness_BuffersStayCurrent : BuffersCurrent stateBuilt ∧
    (match step (stateBuilt.withFetchWord 32 0x05020001) with
    | .next t => some (t.hdrset, t.vec.isSome)
    | .fault _ => none
    | .refused _ => none) = some (none, true) := by
  refine ⟨⟨?_, ?_, ?_⟩, by decide⟩
  · intro cfg h
    obtain rfl : chainT1 9 = cfg := Option.some.inj h
    exact ⟨by decide, by decide, by decide, by decide, by decide⟩
  · intro hs h
    obtain rfl : [0x04#8, 0x0C#8] = hs := Option.some.inj h
    exact ⟨2, 5, rfl, rfl, by decide⟩
  · intro v h
    obtain rfl : [false, false, true, true, true, false, false, false, true, false, false, true] = v := Option.some.inj h
    exact ⟨chainT1 9, rfl, .inl (by rfl)⟩

/-- Two states with different histories, and SCAN completing in both. -/
theorem witness_ReadoutsAreNotRetained :
    (after .scan (stateP2 (.bytes [4]))).map (·.resp) = some (.frames []) ∧
    (after .scan { stateP2 (.bytes [4]) with txlog := [[1]], faultCnt := 3, resp := .frames [[4, 1, 2, 3, 4]] }).map
      (·.resp) = some (.frames []) := by decide

theorem witness_NopWritesStatusOnly : (withDin .none).din = .none ∧ (withDin (.val 0)).din ≠ .none := by decide

theorem witness_ResetRestoresPowerOnState : (stateP2 .none).din = .none ∧ (stateP2 (.bytes [])).din ≠ .none := by decide

/-- A tree in another group order, the shortest illegal tree, and one whose only fault is a width of 0. -/
theorem witness_CfgLoadPopulatesTheModel : TreeShape params treeT1 ∧ ¬ TreeShape params [] ∧
    ¬ TreeShape params [⟨0, 0, 0, [⟨"digital", [⟨"A", 0, 0⟩]⟩, ⟨"bias", []⟩, ⟨"idac", []⟩, ⟨"vdac", []⟩,
      ⟨"recconfig", []⟩]⟩] := by
  simp only [← treeShapeOk_iff]; decide

/-- T1 and T1 with its first two groups swapped. -/
theorem witness_GroupOrderCarriesNoMeaning : (withDin (.tree treeT1)).din = .tree treeT1 ∧
    List.Forall₂ (fun a b : TreeChip => a.version = b.version ∧ a.rows = b.rows ∧ a.cols = b.cols ∧
      a.groups.Perm b.groups) treeT1
      [⟨0, 0, 0, [⟨"digital", [⟨"A", 4, 9⟩, ⟨"B", 4, 1⟩]⟩, ⟨"vdac", [⟨"V", 4, 3⟩]⟩, ⟨"bias", []⟩, ⟨"idac", []⟩,
        ⟨"recconfig", []⟩]⟩] :=
  ⟨rfl, .cons ⟨rfl, rfl, rfl, .swap _ _ _⟩ .nil⟩

/-- The last field of a group; and triples one past the fields, the groups and the chips. -/
theorem witness_FieldWriteSetsOneValue : (withDin (.val 1)).cfg = none ∧
    (fieldAt params (chainT1 9) ⟨0, 0, 1⟩).isSome = true ∧ fieldAt params (chainT1 9) ⟨0, 0, 2⟩ = none ∧
    fieldAt params (chainT1 9) ⟨0, 5, 0⟩ = none ∧ fieldAt params (chainT1 9) ⟨1, 0, 0⟩ = none := by decide

theorem witness_FieldReadResponds : (withT1 9 .none).cfg = some (chainT1 9) ∧
    (chainT1 9)[0]? = some (chipOf [⟨"A", 4, 9⟩, ⟨"B", 4, 1⟩] [] [⟨"V", 4, 3⟩] []) ∧
    (chipOf [⟨"A", 4, 9⟩, ⟨"B", 4, 1⟩] [] [⟨"V", 4, 3⟩] []).groups[4]? = some ⟨"recconfig", []⟩ ∧
    (chipOf [⟨"A", 4, 9⟩, ⟨"B", 4, 1⟩] [] [⟨"V", 4, 3⟩] []).groups[3]? = some ⟨"vdac", [⟨"V", 4, 3⟩]⟩ := by decide

/-- The values where the clauses meet. -/
theorem witness_CregWriteStoresAndInvalidates :
    (after (.cregWr 2 1) (withDin .none)).map (·.chipCount) = some (some 1) ∧
    (after (.cregWr 4 1) (withDin .none)).map (·.samplePeriod) = some (some 1) ∧
    (after (.cregWr 6 0xFF) (withDin .none)).map (·.srAddr) = some (some 0xFF) ∧
    (after (.cregWr 6 0x100) (withDin .none)).map (·.cause) = some .configError ∧
    (after (.cregWr 7 0) (withDin .none)).map (·.cause) = some .illegalCommand ∧
    (after (.cregWr 0xFF 0) (withDin .none)).map (·.cause) = some .illegalCommand := by decide

theorem witness_CregReadRespondsOrRaises : (after (.cregRd 2) (stateP2 .none)).map (·.resp) = some (.value 2) ∧
    (after (.cregRd 1) (stateP2 .none)).map (·.cause) = some .configNotInitialized ∧
    (after (.cregRd 0x13) (stateP2 .none)).map (·.resp) = some (.value 0) ∧
    (after (.cregRd 0xFF) (stateP2 .none)).map (·.cause) = some .illegalCommand := by decide

/-- A chain that fits, with values at the edge of their widths. -/
theorem witness_BuildVecStoresTheChainVector :
    ∀ chip ∈ chainT1 15, ∀ grp ∈ chip.groups, ∀ fld ∈ grp.fields, fld.Fits := by
  unfold RegisterField.Fits; decide

/-- A misfit in chip 0, group 3, with chip 1 and everything before it fitting. -/
theorem witness_BuildVecReportsTheFirstMisfit :
    let chip := chipOf [⟨"A", 4, 15⟩] [] [⟨"V", 4, 15⟩, ⟨"W", 4, 16⟩] [⟨"E", 1, 2⟩]
    let cfg : Chain := [chip, chipOf [⟨"A", 4, 9⟩] [] [] []]
    (withDin .none).cfg = none ∧ cfg[0]? = some chip ∧
    chip.groups[3]? = some ⟨"vdac", [⟨"V", 4, 15⟩, ⟨"W", 4, 16⟩]⟩ ∧ ¬ RegisterField.Fits ⟨"W", 4, 16⟩ ∧
    (∀ c' < 2, 0 < c' → ∀ grp' ∈ (cfg[c']?.map ChipConfig.groups).getD [], ∀ fld' ∈ grp'.fields, fld'.Fits) ∧
    (∀ g' < 3, ∀ fld' ∈ (chip.groups[g']?.map RegisterGroup.fields).getD [], fld'.Fits) ∧
    RegisterField.Fits ⟨"V", 4, 15⟩ := by
  unfold RegisterField.Fits; decide

/-- One past the chips, one past the groups, the last group fitting, and a misfit in the group. -/
theorem witness_BuildRowStoresTheRowVector : (withDin .none).cfg = none ∧ (chainT1 9).length ≤ (1#5).toNat ∧
    5 ≤ (5#3).toNat ∧ groupAt params (chainT1 9) 0 4 = some (chipOf [⟨"A", 4, 9⟩, ⟨"B", 4, 1⟩] [] [⟨"V", 4, 3⟩] [],
      ⟨"recconfig", []⟩) ∧
    (∀ fld ∈ [(⟨"A", 4, 9⟩ : RegisterField), ⟨"B", 4, 1⟩], fld.Fits) ∧ ¬ RegisterField.Fits ⟨"A", 4, 16⟩ := by
  unfold RegisterField.Fits; decide

theorem witness_ParseRecoversEveryValue : (chainVec params true (chainT1 9)).toOption =
    some [true, false, false, true, false, false, false, true, true, true, false, false] := by decide

/-- The least and the greatest width with the greatest value that fits, both widths outside, and the least misfit. -/
theorem witness_BitrevRespondsTheReversal : 1 ≤ (1#8).toNat ∧ (64#8).toNat ≤ 64 ∧ 2 ^ 64 - 1 < 2 ^ (64#8).toNat ∧
    (0#8).toNat = 0 ∧ 64 < (65#8).toNat ∧ 2 ^ (1#8).toNat ≤ 2 := by decide +kernel

theorem witness_BitReversalIsAnInvolution : 0b0011 < 2 ^ 4 ∧ bitrev 0b0011 4 = 0b1100 ∧ bitrev8 0x04 = 0x20 := by decide

theorem witness_GrayDecRespondsTheDecodedValue : (withDin (.val 6)).din = .val 6 ∧ 6 < 2 ^ 3 := by decide

/-- Both sources, and a state with neither. -/
theorem witness_SrPatternRespondsTheWaveform : SourceIs (stateF [] (.bits [true])) false [true] ∧
    SourceIs { stateF [] .none with vec := some [] } true [] ∧ (stateF [] .none).clkdiv = some 1 ∧
    (withDin .none).vec = none ∧ (withDin .none).clkdiv = none := by
  refine ⟨.inl ⟨rfl, rfl⟩, .inr ⟨rfl, rfl, rfl⟩, rfl, rfl, rfl⟩

theorem witness_SrRbPatternRespondsTheReadbackWaveform : SourceIs (withDin (.bits [])) false [] ∧
    (withDin (.bits [])).clkdiv = none ∧ (stateF [] (.bits [])).clkdiv = some 1 ∧ (withDin .none).vec = none :=
  ⟨.inl ⟨rfl, rfl⟩, rfl, rfl, rfl⟩

/-- Both sides of the limit. -/
theorem witness_AddrFrameRespondsTheFrame : (List.replicate 65535 (0 : Byte)).length ≤ 65535 ∧
    65535 < (List.replicate 65536 (0 : Byte)).length :=
  ⟨List.length_replicate.le, List.length_replicate.symm ▸ Nat.lt_succ_self 65535⟩

/-- One bit with the strobe, two answers scheduled and one used. -/
theorem witness_SrWriteSendsEveryFrame : SourceIs (stateF [.ok, .fail] (.bits [true])) false [true] ∧
    1 ≤ (65535 - 30 * (1#16).toNat) / (5 * (1#16).toNat) ∧
    (stateF [.ok, .fail] (.bits [true])).writeAnswers =
      List.replicate ((writePayloads params 1 true (chunks ((65535 - 30 * 1) / (5 * 1)) [true])).map
        (frame 0x12 0x34)).length .ok ++ [.fail] :=
  ⟨.inl ⟨rfl, rfl⟩, by decide, by rfl⟩

theorem witness_SrRbWriteSendsEveryFrame : SourceIs (stateF [.ok] (.bits [])) false [] ∧
    (stateF [.ok] (.bits [])).writeAnswers = List.replicate
      ((chunks ((65535 - params.rbPreamble.length) / (5 * 1)) []).map
        (fun c => frame 0x12 0x34 (genRb params 1 c))).length .ok ++ [] :=
  ⟨.inl ⟨rfl, rfl⟩, rfl⟩

/-- V-F22 and V-F21: the strobe alone too long, and no room for one bit; and no room for one bit of a readback write,
whatever the preamble. -/
theorem witness_WritesCheckBeforeSending : (withDin .none).vec = none ∧ (withDin (.bits [])).clkdiv = none ∧
    65535 < 30 * (2185#16).toNat ∧ ¬ 65535 < 30 * (2184#16).toNat ∧
    (65535 - 30 * (2184#16).toNat) / (5 * (2184#16).toNat) = 0 ∧
    (65535 - params.rbPreamble.length) / (5 * (65535#16).toNat) = 0 :=
  ⟨by decide, by decide, by decide, by decide, by decide, Nat.div_eq_of_lt (by
    have : (65535#16).toNat = 65535 := by decide
    omega)⟩

theorem witness_FailedWriteKeepsTheFramesSent :
    planWrite false false (stateF [.fail] (.bits [])) = .ok [[0x12, 0x34, 0, 0]] ∧
    (stateF [.fail] (.bits [])).writeAnswers = List.replicate 0 .ok ++ .fail :: [] := ⟨by rfl, rfl⟩

theorem witness_HangingTransportNeverCompletes :
    planWrite false false (stateF [.never] (.bits [])) = .ok [[0x12, 0x34, 0, 0]] ∧
    (stateF [.never] (.bits [])).writeAnswers = List.replicate 0 .ok ++ .never :: [] ∧
    { stateP2 (.stamp 1 .time0) with readAnswers := [.never] }.hdrset = some [0x04#8, 0x0C#8] ∧
    ({ stateP2 (.stamp 1 .time0) with readAnswers := [.never] } : State).samplePeriod ≠ none := ⟨by rfl, rfl, rfl, by decide⟩

theorem witness_ChunksPartitionTheVector : 1 ≤ 1 ∧ chunks 1 [true, false] = [[true], [false]] ∧ chunks 0 [] = [[]] := by decide

theorem witness_FramesStayWithinTheLimit : params.maxFrameLen ≤ 65535 ∧
    writeImpossible params 1 (extraWrite params 1 true) [true] = false ∧ testParams.maxFrameLen ≤ 65535 ∧
    writeImpossible testParams 1 (extraRb testParams) [true] = false := by decide +kernel

/-- The first and the last of two chunks. -/
theorem witness_StrobeRidesInTheLastChunk : [[true], [false]][0]? = some [true] ∧
    [[true], [false]][1]? = some [false] := by decide

theorem witness_HdrInitComputesTheHeaderSet : (stateP2 .none).chipCount = some 2 ∧ (stateP2 .none).frameLen = some 5 ∧
    (withDin .none).chipCount = none := by decide

/-- The largest header set, of both frame lengths. -/
theorem witness_HeaderSetIsDistinct : (headerSet 32 5 true).Nodup ∧ (headerSet 32 8 false).Nodup := by decide +kernel

theorem witness_PrefilterRespondsOrCountsAFault : (withDin (.bytes [])).din = .bytes [] ∧
    segments testParams.markers [0xAA, 0x5A, 0x04, 0xFF, 0x03] = [[0x5A, 0x04], [0x03]] := by decide

theorem witness_ScanRespondsTheFrames : (stateP2 (.bytes [])).hdrset = some [0x04, 0x0C] ∧
    (withDin (.bytes [])).hdrset = none := by decide

theorem witness_ScanFollowsTheLoop : 1 ≤ 5 ∧ scanFrames [4] 5 false [4, 1, 2, 3, 4] = [[4, 1, 2, 3, 4]] ∧
    scanFrames [4] 5 false [4, 1, 2, 3] = [] := by decide

/-- The least frame length of the statement. -/
theorem witness_ScannerMachineAgreesWithScan : 2 ≤ 2 ∧
    scanMachine [4] 2 false .seek [9, 4, 1, 4] = [[4, 1]] := by decide

theorem witness_DecodeARespondsTheRecord : (withDin (.bytesStamp [] 0 .time0)).samplePeriod = none ∧
    (stateP2 (.bytesStamp [0] 0 .time0)).samplePeriod = some 5 ∧ ([4, 1, 2, 3] : List Byte).length ≠ 5 := by decide

theorem witness_DecodeBRespondsTheRecord : (withDin (.bytes [7, 0, 0, 0, 0, 0, 0])).din = .bytes [7, 0, 0, 0, 0, 0, 0] ∧
    ([7, 0, 0, 0, 0, 0, 0] : List Byte).length ≠ 8 := by decide

/-- V-B6, V-B5. -/
theorem witness_LayoutBTotIsModular :
    (decodeFrameB params (List.replicate 8 0xFF)).map (fun r => (r.tsDec1, r.tsDec2, r.totUs)) =
      some (87381, 87381, 0) ∧
    (decodeFrameB params [7, 0, 0, 0, 0, 0, 0, 0x20]).map (fun r => (r.tsDec2, r.totUs)) = some (1, 1 / 20) := by
  decide +kernel

theorem witness_AcquireRespondsTheRecords : (withDin (.bytesStamp [] 0 .time0)).hdrset = none ∧
    (stateP2 (.bytesStamp [] 0 .time0)).frameLen = some 5#16 ∧
    { stateP2 (.bytesStamp [] 0 .time0) with samplePeriod := none }.samplePeriod = none ∧
    (stateP2 (.bytesStamp [] 0 .time0)).samplePeriod = some 5#16 := by decide

theorem witness_AcquireRxAcquiresWhatIsRead :
    { stateP2 (.stamp 0 .time0) with readAnswers := [.bytes [4, 1]] }.readAnswers = ReadAnswer.bytes [4, 1] :: [] ∧
    { stateP2 (.stamp 0 .time0) with readAnswers := [.fail] }.readAnswers = ReadAnswer.fail :: [] ∧
    (stateP2 (.stamp 0 .time0)).samplePeriod ≠ none ∧ (withDin (.stamp 0 .time0)).hdrset = none := by decide

end Sys2Proof.Tests
end

section
/-! PROOF. CFG_LOAD: what a tree loads to, and what the command does with it (40_register_model.md R103 to R105). -/

namespace Sys2Proof.Machine

/-- Where a chip's group names are distinct, a name finds the one group that has it. -/
theorem loadGroup_of_mem {chip : TreeChip} (hd : (chip.groups.map TreeGroup.name).Nodup) {g : TreeGroup}
    (hg : g ∈ chip.groups) : loadGroup chip g.name = ⟨g.name, g.fields.map fieldOfLeaf⟩ := by
  have hfind : chip.groups.find? (fun x => x.name == g.name) = some g := by
    cases h : chip.groups.find? (fun x => x.name == g.name) with
    | none => simpa using List.find?_eq_none.mp h g hg
    | some x =>
      have hname : x.name = g.name := by simpa using List.find?_some h
      rw [List.inj_on_of_nodup_map hd (List.mem_of_find?_eq_some h) hg hname]
  unfold loadGroup
  rw [hfind]

/-- A loaded chip has its groups in GROUP_ORDER order (10_state.md R24). -/
theorem loadChip_groupNames (P : Params) (chip : TreeChip) :
    (loadChip P chip).groups.map RegisterGroup.name = P.groupOrder := by
  simp [loadChip, Function.comp_def]

/-- A loaded group has the fields of the tree's group of its name, in declared order. -/
theorem loadChip_fields {P : Params} {chip : TreeChip} (hd : (chip.groups.map TreeGroup.name).Nodup) {g : TreeGroup}
    (hg : g ∈ chip.groups) {grp : RegisterGroup} (hgrp : grp ∈ (loadChip P chip).groups) (hname : g.name = grp.name) :
    grp.fields = g.fields.map fieldOfLeaf := by
  obtain ⟨n, -, rfl⟩ := List.mem_map.mp hgrp
  rw [loadGroup_name] at hname
  rw [← hname, loadGroup_of_mem hd hg]

/-- CFG_LOAD of a tree: the loaded chain replaces CFG and VEC is invalid, or ConfigError. -/
theorem execCfgLoad_of_tree {s : State} {t : RegisterTree} (hdin : s.din = .tree t) :
    execCfgLoad s = .next (if treeValid params t
      then State.complete { s with cfg := some (loadTree params t), vec := none } .nothing
      else s.failed .configError) := by
  unfold execCfgLoad
  rw [needTree_eq_ok.mpr hdin, attempt_bind_ok]
  cases treeValid params t with
  | true => rfl
  | false => exact congrArg Host.Outcome.next (takeError_plain s (by decide))

/-- Of a tree with the shape of R104 items 1 to 4, item 5 alone is left to check. -/
theorem treeValid_of_shape {P : Params} {t : RegisterTree} (h : TreeShape P t) :
    treeValid P t = P.cfgExtraCheck (loadTree P t) := by
  simp [treeValid, (treeShapeOk_iff P t).mpr h]

/-- A tree without that shape is not valid, whatever CFG_EXTRA_CHECK says. -/
theorem treeValid_of_not_shape {P : Params} {t : RegisterTree} (h : ¬ TreeShape P t) : treeValid P t = false := by
  simp [treeValid, Bool.eq_false_iff.mpr (mt (treeShapeOk_iff P t).mp h)]

/-- Settles O21: the chain is `loadTree params t`, and CFG_LOAD answers by `treeValid params t`. -/
theorem cfgLoadPopulatesTheModel : Obligations.CfgLoadPopulatesTheModel := by
  intro s t hdin
  have hexec : exec .cfgLoad s = execCfgLoad s := rfl
  rw [hexec, execCfgLoad_of_tree hdin]
  constructor
  · intro hshape
    refine ⟨loadTree params t, by rw [treeValid_of_shape hshape]; rfl, List.length_map .., fun c chip hchip => ?_⟩
    have hd := hshape.namesDistinct chip (List.mem_of_getElem? hchip)
    refine ⟨loadChip params chip, by simp [loadTree, hchip], rfl, rfl, rfl, loadChip_groupNames params chip, ?_⟩
    exact fun g hg grp hgrp hname => loadChip_fields hd hg hgrp hname
  · intro hshape
    simp [treeValid_of_not_shape hshape]

end Sys2Proof.Machine
end

section
/-! PROOF. What one command and one step can do, said once: the transport calls made, the state the rule stores, and the
two ways a command ends (60_exceptions.md R284, R285). Frames and invariants follow from it. -/

namespace Sys2Proof.Machine

/-- The commands whose DecodeFaults FAULTCNT counts (43_locator.md R208). -/
def CountsFaults (i : Instr) : Prop := i = .prefilter ∨ i = .acquire ∨ ∃ n, i = .acquireRx n

/-- The number of a RW register (10_state.md R29). -/
def RwReg.number : RwReg → BitVec 8
  | .ctrl => 0x00#8
  | .clkdiv => 0x01#8
  | .chipCount => 0x02#8
  | .frameLen => 0x03#8
  | .samplePeriod => 0x04#8
  | .frameOpc => 0x05#8
  | .srAddr => 0x06#8

/-- The two framed writes, the commands that call `TxWrite` (42_framing.md R176, R177). -/
def WritesFrames (i : Instr) : Prop := (∃ src load, i = .srWrite src load) ∨ ∃ src, i = .srRbWrite src

/-- What the transport calls of command `i` leave of the state `s`: answers used up and, for a framed write, the frames
sent (60_exceptions.md R297). -/
inductive Calls : Instr → State → State → Prop
  | none {i s} : Calls i s s
  | srWrite {src load s} (fs w n) :
      Calls (.srWrite src load) s { s with txlog := s.txlog ++ fs, writeAnswers := w, draws := n }
  | srRbWrite {src s} (fs w n) :
      Calls (.srRbWrite src) s { s with txlog := s.txlog ++ fs, writeAnswers := w, draws := n }
  | acquireRx {m s} (r n) : Calls (.acquireRx m) s { s with readAnswers := r, draws := n }

/-- What command `i` stores when it completes: its "State written" but for STATUS and the transport's effects. -/
inductive Stores : Instr → State → State → Prop
  | nothing {i s} (hi : ¬ CountsFaults i) : Stores i s s
  | reset {s} : Stores .reset s s.resetCore
  | cfgLoad {s} (tree) (hvalid : treeValid params tree = true) :
      Stores .cfgLoad s { s with cfg := some (loadTree params tree), vec := none }
  | fieldWr {c g f s} (v cfg) (hcfg : s.cfg = some cfg) :
      Stores (.fieldWr c g f) s { s with cfg := some (setField cfg (fieldAddr c g f) v), vec := none }
  | cregWr {imm s} (r) (hlegal : cregLegal params r imm = true) :
      Stores (.cregWr r.number imm) s ((s.writeCreg r (cregStored r imm)).invalidate r)
  | buildVec {s} (cfg v) (hcfg : s.cfg = some cfg) (hv : chainVec params s.msbFirst cfg = .ok v) :
      Stores .buildVec s { s with vec := some v }
  | buildRow {c g s} (cfg chip grp v) (hcfg : s.cfg = some cfg)
      (hgrp : groupAt params cfg c.toNat g.toNat = some (chip, grp))
      (hv : rowVec params s.msbFirst c.toNat g.toNat grp = .ok v) :
      Stores (.buildRow c g) s { s with vec := some v }
  | hdrInit {s} (n b) (hn : s.chipCount = some n) (hb : s.frameLen = some b) :
      Stores .hdrInit s { s with hdrset := some (headerSet n.toNat b.toNat s.wireRev) }
  | clearFaults {i s} (hi : CountsFaults i) : Stores i s { s with faultCnt := 0x0000#16 }

/-- The errors command `i` may raise from `s`: a cause of its row of 60_exceptions.md R282, located only where R286 has
it located. -/
structure Raises (i : Instr) (s : State) (e : Raise) : Prop where
  ne_none : e.cause ≠ .none
  mem_mayEndWith : e.cause ∈ mayEndWith i
  located : ∀ a, e.loc = some a → ErrorAt i s e.cause a

/-- How command `i`, run from `s`, ends: it stores and completes, or it takes an error. -/
inductive Ends (i : Instr) (s : State) : State → Prop
  | completes {u w} (v) (hcalls : Calls i s u) (hstores : Stores i u w) : Ends i s (w.complete v)
  | raises {u} (e) (hcalls : Calls i s u) (hraises : Raises i s e) : Ends i s (u.takeError e)

section
variable {i : Instr} {s u t : State}

theorem Ends.answers (v : Response) (hi : ¬ CountsFaults i := by simp [CountsFaults]) : Ends i s (s.complete v) :=
  .completes v .none (.nothing hi)

theorem Ends.stores (h : Stores i s u) (v : Response) : Ends i s (u.complete v) := .completes v .none h

theorem Raises.plain {c : Cause} (hmem : c ∈ mayEndWith i := by simp [mayEndWith]) (hne : c ≠ .none := by decide) :
    Raises i s ⟨c, none⟩ :=
  ⟨hne, hmem, nofun⟩

theorem Ends.fails {c : Cause} (hmem : c ∈ mayEndWith i := by simp [mayEndWith]) (hne : c ≠ .none := by decide) :
    Ends i s (s.takeError ⟨c, none⟩) :=
  .raises _ .none (.plain hmem hne)

theorem illegal_mem_mayEndWith (i : Instr) : .illegalCommand ∈ mayEndWith i := by
  cases i <;> simp [mayEndWith]

theorem Ends.illegal : Ends i s (s.takeError illegal) := .fails (illegal_mem_mayEndWith i)

theorem Ends.failsAt {c : Cause} {a : FieldAddr} (ha : ErrorAt i s c a)
    (hmem : c ∈ mayEndWith i := by simp [mayEndWith]) (hne : c ≠ .none := by decide) :
    Ends i s (s.takeError ⟨c, some a⟩) :=
  .raises _ .none ⟨hne, hmem, fun _ h => Option.some.inj h ▸ ha⟩

/-- A command that stores nothing and has one error beside IllegalCommand. -/
theorem Ends.of_answers_or_fails {α : Type} {f : α → Response} {c : Cause}
    (h : (∃ v, t = s.complete (f v)) ∨ t = s.takeError Machine.illegal ∨ t = s.takeError ⟨c, none⟩)
    (hi : ¬ CountsFaults i := by simp [CountsFaults]) (hmem : c ∈ mayEndWith i := by simp [mayEndWith])
    (hne : c ≠ .none := by decide) : Ends i s t := by
  rcases h with ⟨v, rfl⟩ | rfl | rfl
  · exact .answers _ hi
  · exact .illegal
  · exact .fails hmem hne

theorem Calls.of_writesFrames (hi : WritesFrames i) (fs : List (List Byte)) (w : List WriteAnswer) (n : Nat) :
    Calls i s { s with txlog := s.txlog ++ fs, writeAnswers := w, draws := n } := by
  rcases hi with ⟨src, load, rfl⟩ | ⟨src, rfl⟩
  · exact .srWrite fs w n
  · exact .srRbWrite fs w n

theorem not_countsFaults_of_writesFrames (hi : WritesFrames i) : ¬ CountsFaults i := by
  rcases hi with ⟨src, load, rfl⟩ | ⟨src, rfl⟩ <;> simp [CountsFaults]

theorem mayEndWith_of_writesFrames (hi : WritesFrames i) :
    mayEndWith i = [.none, .configNotInitialized, .outOfRange, .transportError, .illegalCommand] := by
  rcases hi with ⟨src, load, rfl⟩ | ⟨src, rfl⟩ <;> rfl

/-- A framed write is refused before its first transport call or ends after the calls. -/
theorem Ends.of_writeEnds {p : List (List Byte) → Prop} (hi : WritesFrames i)
    (h : (∃ frames, p frames ∧ WriteEnds s t frames) ∨
      t = s.takeError Machine.illegal ∨ t = s.takeError uninit ∨ t = s.takeError ⟨.outOfRange, none⟩) : Ends i s t := by
  have hmem := mayEndWith_of_writesFrames hi
  rcases h with ⟨fs, -, ⟨w, n, rfl⟩ | ⟨j, w, n, -, rfl⟩⟩ | rfl | rfl | rfl
  · exact .completes _ (.of_writesFrames hi fs w n) (.nothing (not_countsFaults_of_writesFrames hi))
  · exact .raises _ (.of_writesFrames hi (fs.take j) w n) (.plain (by simp [hmem]))
  · exact .illegal
  · exact .fails (by simp [hmem])
  · exact .fails (by simp [hmem])

end

theorem eq_number_of_ofNumber {n : BitVec 8} {r : RwReg} (h : Creg.ofNumber n = some (.rw r)) : n = r.number := by
  unfold Creg.ofNumber at h
  split at h <;> cases h <;> exact BitVec.eq_of_toNat_eq (by assumption)

theorem execCfgLoad_ends {s t : State} (h : execCfgLoad s = .next t) : Ends .cfgLoad s t := by
  rcases execCfgLoad_cases h with ⟨tree, -, hv, rfl⟩ | rfl | rfl
  · exact .stores (.cfgLoad tree hv) _
  · exact .illegal
  · exact .fails

theorem execFieldWr_ends {c g f} {s t : State} (h : execFieldWr c g f s = .next t) : Ends (.fieldWr c g f) s t := by
  rcases execFieldWr_cases h with ⟨v, cfg, _, -, hcfg, -, rfl⟩ | rfl | rfl | ⟨cfg, hcfg, hf, rfl⟩
  · exact .stores (.fieldWr v cfg hcfg) _
  · exact .illegal
  · exact .fails
  · exact .failsAt ⟨cfg, hcfg, .inl ⟨rfl, .inl ⟨c, g, f, .inl rfl, rfl, hf⟩⟩⟩

theorem execFieldRd_ends {c g f} {s t : State} (h : execFieldRd c g f s = .next t) : Ends (.fieldRd c g f) s t := by
  rcases execFieldRd_cases h with ⟨v, rfl⟩ | rfl | rfl | ⟨cfg, hcfg, hf, rfl⟩
  · exact .answers _
  · exact .illegal
  · exact .fails
  · exact .failsAt ⟨cfg, hcfg, .inl ⟨rfl, .inl ⟨c, g, f, .inr rfl, rfl, hf⟩⟩⟩

theorem execCregWr_ends {crn imm} {s t : State} (h : execCregWr crn imm s = .next t) : Ends (.cregWr crn imm) s t := by
  rcases execCregWr_cases h with ⟨r, hr, hlegal, rfl⟩ | rfl | rfl
  · exact eq_number_of_ofNumber hr ▸ .stores (.cregWr r hlegal) _
  · exact .illegal
  · exact .fails

theorem execBuildVec_ends {s t : State} (h : execBuildVec s = .next t) : Ends .buildVec s t := by
  rcases execBuildVec_cases h with ⟨cfg, v, hcfg, hv, rfl⟩ | rfl | rfl | ⟨cfg, a, hcfg, ha, rfl⟩
  · exact .stores (.buildVec cfg v hcfg hv) _
  · exact .illegal
  · exact .fails
  · exact .failsAt ⟨cfg, hcfg, .inr ⟨rfl, .inl rfl, ha⟩⟩

theorem execBuildRow_ends {c g} {s t : State} (h : execBuildRow c g s = .next t) : Ends (.buildRow c g) s t := by
  rcases execBuildRow_cases h with ⟨cfg, chip, grp, v, hcfg, hgrp, hv, rfl⟩ | rfl | rfl |
    ⟨cfg, hcfg, ⟨-, rfl⟩ | ⟨hnone, rfl⟩ | ⟨f, hf, rfl⟩⟩
  · exact .stores (.buildRow cfg chip grp v hcfg hgrp hv) _
  · exact .illegal
  · exact .fails
  · exact .fails
  · exact .failsAt ⟨cfg, hcfg, .inl ⟨rfl, .inr ⟨c, g, rfl, rfl, hnone⟩⟩⟩
  · exact .failsAt ⟨cfg, hcfg, .inr ⟨rfl, .inr ⟨c, g, rfl, rfl, rfl⟩, hf⟩⟩

theorem execHdrInit_ends {s t : State} (h : execHdrInit s = .next t) : Ends .hdrInit s t := by
  rcases execHdrInit_cases h with ⟨n, b, hn, hb, rfl⟩ | rfl | rfl
  · exact .stores (.hdrInit n b hn hb) _
  · exact .illegal
  · exact .fails

theorem execPrefilter_ends {s t : State} (h : execPrefilter s = .next t) : Ends .prefilter s t := by
  rcases execPrefilter_cases h with ⟨y, rfl⟩ | rfl | rfl
  · exact .stores (.clearFaults (.inl rfl)) _
  · exact .illegal
  · exact .fails

theorem execAcquire_ends {s t : State} (h : execAcquire s = .next t) : Ends .acquire s t := by
  rcases execAcquire_cases h with ⟨rs, rfl⟩ | rfl | rfl | rfl
  · exact .stores (.clearFaults (.inr (.inl rfl))) _
  · exact .illegal
  · exact .fails
  · exact .fails

theorem execAcquireRx_ends {m} {s t : State} (h : execAcquireRx m s = .next t) : Ends (.acquireRx m) s t := by
  rcases execAcquireRx_cases h with (rfl | rfl) | ⟨r, n, ⟨rs, rfl⟩ | rfl | rfl⟩
  · exact .illegal
  · exact .fails
  · exact .completes _ (.acquireRx r n) (.clearFaults (.inr (.inr ⟨m, rfl⟩)))
  · exact .raises _ (.acquireRx r n) .plain
  · exact .raises _ (.acquireRx r n) .plain

/-- Every command that answers a next state ends in one of the two ways. -/
theorem exec_ends {i : Instr} {s t : State} (h : exec i s = .next t) : Ends i s t := by
  cases i with
  | nop =>
    rcases execNop_cases h with rfl | rfl
    · exact .answers _
    · exact .illegal
  | reset =>
    rcases execReset_cases h with rfl | rfl
    · exact .stores .reset _
    · exact .illegal
  | cfgLoad => exact execCfgLoad_ends h
  | fieldWr c g f => exact execFieldWr_ends h
  | fieldRd c g f => exact execFieldRd_ends h
  | cregWr crn imm => exact execCregWr_ends h
  | cregRd crn => exact .of_answers_or_fails (execCregRd_cases h)
  | buildVec => exact execBuildVec_ends h
  | buildRow c g => exact execBuildRow_ends h
  | bitrev w => exact .of_answers_or_fails (execBitrev_cases h)
  | grayDec =>
    rcases execGrayDec_cases h with ⟨v, rfl⟩ | rfl
    · exact .answers _
    · exact .illegal
  | srPattern src load => exact .of_answers_or_fails (execSrPattern_cases h)
  | srRbPattern src => exact .of_answers_or_fails (execSrRbPattern_cases h)
  | addrFrame fopc faddr => exact .of_answers_or_fails (execAddrFrame_cases h)
  | srWrite src load => exact .of_writeEnds (.inl ⟨src, load, rfl⟩) (execSrWrite_cases h)
  | srRbWrite src => exact .of_writeEnds (.inr ⟨src, rfl⟩) (execSrRbWrite_cases h)
  | hdrInit => exact execHdrInit_ends h
  | prefilter => exact execPrefilter_ends h
  | scan => exact .of_answers_or_fails (execScan_cases h)
  | decodeA => exact .of_answers_or_fails (execDecodeA_cases h)
  | decodeB =>
    rcases execDecodeB_cases h with ⟨r, rfl⟩ | rfl
    · exact .answers _
    · exact .illegal
  | acquire => exact execAcquire_ends h
  | acquireRx m => exact execAcquireRx_ends h

end Sys2Proof.Machine
end

section
/-! PROOF. Invariants of a step: the rule that a predicate kept by each part of a step is kept by the step, and the two
invariants of a good state. -/

namespace Sys2Proof.Machine

/-- A step does nothing, rejects the next command's word, or runs the instruction it decodes to. -/
theorem step_cases {s t : State} (h : step s = .next t) :
    t = s ∨ ∃ rest d, t = State.takeError { s with host := rest, din := d } illegal ∨
      ∃ i, Ends i { s with host := rest, din := d } t := by
  unfold step fetch at h
  cases hhost : s.host with
  | nil => rw [hhost] at h; cases h; exact .inl rfl
  | cons c rest =>
    rw [hhost] at h
    dsimp only at h
    refine .inr ⟨rest, c.din, ?_⟩
    split at h
    · next i _ => exact .inr ⟨i, exec_ends h⟩
    · cases h; exact .inl rfl

/-- A predicate kept by each part of a step: taking the command, calling the transport, storing, ending. -/
structure KeptByParts (I : State → Prop) : Prop where
  taken : ∀ {s} rest d, I s → I { s with host := rest, din := d }
  calls : ∀ {i s u}, Calls i s u → I s → I u
  stores : ∀ {i s u}, Stores i s u → I s → I u
  complete : ∀ {s} v, I s → I (s.complete v)
  takeError : ∀ {s} e, I s → I (s.takeError e)

theorem KeptByParts.ends {I : State → Prop} (hI : KeptByParts I) {i : Instr} {s t : State} (h : Ends i s t) (hs : I s) :
    I t := by
  cases h with
  | completes v hcalls hstores => exact hI.complete v (hI.stores hstores (hI.calls hcalls hs))
  | raises e hcalls _ => exact hI.takeError e (hI.calls hcalls hs)

theorem KeptByParts.step {I : State → Prop} (hI : KeptByParts I) {s t : State} (hs : I s) (h : step s = .next t) :
    I t := by
  obtain rfl | ⟨rest, d, rfl | ⟨i, hends⟩⟩ := step_cases h
  · exact hs
  · exact hI.takeError _ (hI.taken rest d hs)
  · exact hI.ends hends (hI.taken rest d hs)

/-! ## Legal registers -/

theorem errlocCgOf_reserved (a : FieldAddr) : errlocCgOf a &&& 0xFF00#16 = 0#16 := by
  have h : ∀ (c : BitVec 5) (g : BitVec 3), (c.setWidth 16 <<< 3 ||| g.setWidth 16) &&& 0xFF00#16 = 0#16 := by decide
  exact h _ _

theorem RegistersLegal.resetCore (s : State) : RegistersLegal s.resetCore where
  ctrl := BitVec.zero_and
  clkdiv := nofun
  chipCount := nofun
  frameLen := nofun
  samplePeriod := nofun
  frameOpc := nofun
  srAddr := nofun
  errlocCg := BitVec.zero_and

theorem RegistersLegal.takeError {s : State} (e : Raise) (h : RegistersLegal s) : RegistersLegal (s.takeError e) := by
  refine { h with errlocCg := ?_ }
  obtain ⟨c, _ | a⟩ := e
  · exact h.errlocCg
  · exact errlocCgOf_reserved a

/-- What CREG_WR stores of a legal value is legal (40_register_model.md R109). -/
theorem RegistersLegal.writeCreg {s : State} {r : RwReg} {imm : Half} (h : RegistersLegal s)
    (hlegal : cregLegal params r imm = true) : RegistersLegal (s.writeCreg r (cregStored r imm)) := by
  cases r with
  | ctrl =>
    have hmask : imm &&& 0x0007#16 &&& 0xFFF8#16 = 0#16 := by rw [BitVec.and_assoc]; exact BitVec.and_zero
    exact { h with ctrl := hmask }
  | clkdiv => exact { h with clkdiv := fun v hv => Option.some.inj hv ▸ of_decide_eq_true hlegal }
  | chipCount => exact { h with chipCount := fun v hv => Option.some.inj hv ▸ of_decide_eq_true hlegal }
  | frameLen =>
    have hmem : imm = 5#16 ∨ imm = 8#16 := by simpa [cregLegal, params, BitVec.toNat_eq] using hlegal
    exact { h with frameLen := fun v hv => Option.some.inj hv ▸ hmem }
  | samplePeriod => exact { h with samplePeriod := fun v hv => Option.some.inj hv ▸ of_decide_eq_true hlegal }
  | frameOpc => exact { h with frameOpc := fun v hv => Option.some.inj hv ▸ of_decide_eq_true hlegal }
  | srAddr => exact { h with srAddr := fun v hv => Option.some.inj hv ▸ of_decide_eq_true hlegal }

/-- Invalidation writes HDRSET and VEC only. -/
theorem RegistersLegal.invalidate {s : State} (r : RwReg) (h : RegistersLegal s) : RegistersLegal (s.invalidate r) := by
  cases r <;> exact { h with }

theorem registersLegal_keptByParts : KeptByParts RegistersLegal where
  taken _ _ h := { h with }
  calls hcalls h := by cases hcalls <;> exact { h with }
  complete _ h := { h with }
  takeError e h := h.takeError e
  stores hstores h := by
    cases hstores with
    | reset => exact .resetCore _
    | cregWr r hlegal => exact (h.writeCreg hlegal).invalidate r
    | nothing | cfgLoad | fieldWr | buildVec | buildRow | hdrInit | clearFaults => exact { h with }

/-- Settles O13: every part of a step keeps the registers legal. -/
theorem registersStayLegal : Obligations.RegistersStayLegal :=
  fun _ _ hs h => registersLegal_keptByParts.step hs h

/-! ## Current buffers -/

theorem TreeShape.loadChip_fields {P : Params} {t : RegisterTree} (ht : TreeShape P t) {chip : TreeChip}
    (hchip : chip ∈ t) {grp : RegisterGroup} (hgrp : grp ∈ (loadChip P chip).groups) :
    ∃ g ∈ chip.groups, grp.fields = g.fields.map fieldOfLeaf := by
  obtain ⟨n, hn, rfl⟩ := List.mem_map.mp hgrp
  obtain ⟨g, hg, rfl⟩ := ht.namesPresent chip hchip n hn
  exact ⟨g, hg, by rw [loadGroup_of_mem (ht.namesDistinct chip hchip) hg]⟩

/-- CFG_LOAD stores a chain of the shape of 10_state.md R22 to R25. -/
theorem TreeShape.chainShape_loadTree {P : Params} {t : RegisterTree} (ht : TreeShape P t) :
    ChainShape P (loadTree P t) := by
  have hfields : ∀ ch ∈ loadTree P t, ∀ grp ∈ ch.groups,
      ∃ chip ∈ t, ∃ g ∈ chip.groups, grp.fields = g.fields.map fieldOfLeaf := by
    intro ch hch grp hgrp
    obtain ⟨chip, hchip, rfl⟩ := List.mem_map.mp hch
    exact ⟨chip, hchip, ht.loadChip_fields hchip hgrp⟩
  constructor
  case chips => simpa [loadTree] using ht.chips
  case groups =>
    intro ch hch
    obtain ⟨chip, -, rfl⟩ := List.mem_map.mp hch
    exact loadChip_groupNames P chip
  all_goals
    intro ch hch grp hgrp
    obtain ⟨chip, hchip, g, hg, hfs⟩ := hfields ch hch grp hgrp
    rw [hfs]
  case fieldCount => simpa using ht.fieldCount chip hchip g hg
  case fieldNames => simpa [Function.comp_def, fieldOfLeaf] using ht.fieldNames chip hchip g hg
  case widths => simpa [fieldOfLeaf] using ht.widths chip hchip g hg

/-- Changing one element in a way that `f` does not see. -/
theorem map_modify_of_forall {α β : Type} {f : α → β} {g : α → α} (h : ∀ x, f (g x) = f x) (l : List α) (n : Nat) :
    (l.modify n g).map f = l.map f := by
  apply List.ext_getElem?
  intro k
  by_cases hk : n = k <;> simp [hk, Function.comp_def, h]

/-- FIELD_WR leaves the names, the widths and the positions alone (40_register_model.md R106). -/
theorem eraseValues_setField (cfg : Chain) (a : FieldAddr) (v : Nat) :
    eraseValues (setField cfg a v) = eraseValues cfg := by
  refine map_modify_of_forall (fun chip => ?_) cfg a.chip
  refine congrArg (ChipConfig.mk chip.version chip.rows chip.cols)
    (map_modify_of_forall (fun grp => ?_) chip.groups a.grp)
  refine congrArg (RegisterGroup.mk grp.name) (map_modify_of_forall (fun fld => ?_) grp.fields a.fld)
  rfl

theorem chainShape_iff {P : Params} {cfg : Chain} : ChainShape P cfg ↔
    (1 ≤ cfg.length ∧ cfg.length ≤ P.maxChips) ∧ (∀ chip ∈ cfg, chip.groups.map RegisterGroup.name = P.groupOrder) ∧
    ∀ chip ∈ cfg, ∀ g ∈ chip.groups, g.fields.length ≤ 65536 ∧ (g.fields.map RegisterField.name).Nodup ∧
      ∀ f ∈ g.fields, 1 ≤ f.width :=
  ⟨fun h => ⟨h.chips, h.groups, fun c hc g hg => ⟨h.fieldCount c hc g hg, h.fieldNames c hc g hg, h.widths c hc g hg⟩⟩,
    fun ⟨h1, h2, h3⟩ => ⟨h1, h2, fun c hc g hg => (h3 c hc g hg).1, fun c hc g hg => (h3 c hc g hg).2.1,
      fun c hc g hg => (h3 c hc g hg).2.2⟩⟩

/-- A chain's shape says nothing of its values. -/
theorem chainShape_eraseValues {P : Params} {cfg : Chain} : ChainShape P (eraseValues cfg) ↔ ChainShape P cfg := by
  simp only [chainShape_iff, eraseValues, List.length_map, List.forall_mem_map, List.map_map, Function.comp_def]

theorem ChainShape.setField {P : Params} {cfg : Chain} (h : ChainShape P cfg) (a : FieldAddr) (v : Nat) :
    ChainShape P (setField cfg a v) := by
  rwa [← chainShape_eraseValues, eraseValues_setField, chainShape_eraseValues]

theorem BuffersCurrent.resetCore (s : State) : BuffersCurrent s.resetCore := ⟨nofun, nofun, nofun⟩

/-- CREG_WR invalidates each buffer that depends on the register it writes (40_register_model.md R110). -/
theorem BuffersCurrent.writeCreg {s : State} (h : BuffersCurrent s) (r : RwReg) (v : Half) :
    BuffersCurrent ((s.writeCreg r v).invalidate r) := by
  cases r with
  | ctrl => exact ⟨h.cfgShaped, nofun, nofun⟩
  | chipCount | frameLen => exact ⟨h.cfgShaped, nofun, h.vec⟩
  | clkdiv | samplePeriod | frameOpc | srAddr => exact ⟨h.cfgShaped, h.hdrset, h.vec⟩

theorem buffersCurrent_keptByParts : KeptByParts BuffersCurrent where
  taken _ _ h := ⟨h.cfgShaped, h.hdrset, h.vec⟩
  calls hcalls h := by cases hcalls <;> exact ⟨h.cfgShaped, h.hdrset, h.vec⟩
  complete _ h := ⟨h.cfgShaped, h.hdrset, h.vec⟩
  takeError _ h := ⟨h.cfgShaped, h.hdrset, h.vec⟩
  stores hstores h := by
    cases hstores with
    | nothing => exact h
    | reset => exact .resetCore _
    | cfgLoad tree hvalid =>
      have hshape : TreeShape params tree := (treeShapeOk_iff params tree).mp (Bool.and_eq_true_iff.mp hvalid).1
      exact ⟨fun _ hcfg => Option.some.inj hcfg ▸ hshape.chainShape_loadTree, h.hdrset, nofun⟩
    | fieldWr v cfg hcfg =>
      exact ⟨fun _ hcfg' => Option.some.inj hcfg' ▸ (h.cfgShaped cfg hcfg).setField _ v, h.hdrset, nofun⟩
    | cregWr r => exact h.writeCreg r _
    | buildVec cfg v hcfg hv =>
      exact ⟨h.cfgShaped, h.hdrset, fun _ hvec => Option.some.inj hvec ▸ ⟨cfg, hcfg, .inl hv⟩⟩
    | buildRow cfg chip grp v hcfg hgrp hv =>
      exact ⟨h.cfgShaped, h.hdrset,
        fun _ hvec => Option.some.inj hvec ▸ ⟨cfg, hcfg, .inr ⟨_, _, chip, grp, hgrp, hv⟩⟩⟩
    | hdrInit n b hn hb =>
      exact ⟨h.cfgShaped, fun _ hhs => ⟨n, b, hn, hb, (Option.some.inj hhs).symm⟩, h.vec⟩
    | clearFaults => exact ⟨h.cfgShaped, h.hdrset, h.vec⟩

/-- Settles O14: every part of a step keeps the buffers current. -/
theorem buffersStayCurrent : Obligations.BuffersStayCurrent :=
  fun _ _ hs h => buffersCurrent_keptByParts.step hs h

end Sys2Proof.Machine
end

section
/-! PROOF. FAULTCNT, the writers of each element of the state, and the STATUS word. -/

namespace Sys2Proof.Machine

/-! ## FAULTCNT -/

theorem countsFaults_of_mem_mayEndWith {i : Instr} (h : .decodeFault ∈ mayEndWith i) : CountsFaults i := by
  cases i <;> simp [mayEndWith] at h <;> simp [CountsFaults]

theorem Raises.countsFaults_of_faultCnt_ne {i : Instr} {s u : State} {e : Raise} (h : Raises i s e)
    (hne : (u.takeError e).faultCnt ≠ u.faultCnt) : CountsFaults i := by
  have hc : e.cause = .decodeFault := by
    by_contra hc
    exact hne (by rw [State.takeError_faultCnt, if_neg hc])
  exact countsFaults_of_mem_mayEndWith (hc ▸ h.mem_mayEndWith)

theorem Calls.faultCnt_eq {i : Instr} {s u : State} (h : Calls i s u) : u.faultCnt = s.faultCnt := by
  cases h <;> rfl

/-- A command that counts faults clears the counter where it completes. -/
theorem Stores.faultCnt_of_counts {i : Instr} {s u : State} (h : Stores i s u) (hi : CountsFaults i) :
    u.faultCnt = 0x0000#16 := by
  cases h with
  | nothing hnot => exact absurd hi hnot
  | clearFaults => rfl
  | reset => rfl
  | cfgLoad | fieldWr | cregWr | buildVec | buildRow | hdrInit => simp [CountsFaults] at hi

theorem Stores.faultCnt_eq {i : Instr} {s u : State} (h : Stores i s u) (hi : ¬ CountsFaults i) (hreset : i ≠ .reset) :
    u.faultCnt = s.faultCnt := by
  cases h with
  | clearFaults hcounts => exact absurd hcounts hi
  | reset => exact absurd rfl hreset
  | cregWr => simp
  | nothing | cfgLoad | fieldWr | buildVec | buildRow | hdrInit => rfl

theorem Ends.faultCnt_of_counts {i : Instr} {s t : State} (h : Ends i s t) (hi : CountsFaults i) :
    t.faultCnt = if t.cause = .decodeFault then faultCntSucc s.faultCnt
      else if t.cause = .none then 0x0000#16 else s.faultCnt := by
  cases h with
  | completes v _ hstores => simp [hstores.faultCnt_of_counts hi]
  | raises e hcalls hraises => simp [State.takeError_faultCnt, hcalls.faultCnt_eq, hraises.ne_none]

theorem Ends.faultCnt_eq {i : Instr} {s t : State} (h : Ends i s t) (hi : ¬ CountsFaults i) (hreset : i ≠ .reset) :
    t.faultCnt = s.faultCnt := by
  cases h with
  | completes v hcalls hstores => exact (hstores.faultCnt_eq hi hreset).trans hcalls.faultCnt_eq
  | @raises u e hcalls hraises =>
    have hkept : (u.takeError e).faultCnt = u.faultCnt := not_not.mp (mt hraises.countsFaults_of_faultCnt_ne hi)
    exact hkept.trans hcalls.faultCnt_eq

/-- Settles O10, from the two ways a command ends. -/
theorem faultcntCountsConsecutiveFaults : Obligations.FaultcntCountsConsecutiveFaults := by
  intro i s t h
  have hends := exec_ends h
  refine ⟨fun hi => faultCntSucc_eq s.faultCnt ▸ hends.faultCnt_of_counts hi, fun hpre hacq hrx hreset => ?_⟩
  exact hends.faultCnt_eq (fun hi => hi.elim hpre fun hi => hi.elim hacq fun ⟨n, hn⟩ => hrx n hn) hreset

/-! ## The writers of each element -/

/-- An error is located only in the four commands that name a field or build from one (60_exceptions.md R286). -/
theorem ErrorAt.command {i : Instr} {s : State} {c : Cause} {a : FieldAddr} (h : ErrorAt i s c a) :
    i = .buildVec ∨ (∃ c g, i = .buildRow c g) ∨ ∃ c g f, i = .fieldWr c g f ∨ i = .fieldRd c g f := by
  rcases h with ⟨_, -, ⟨-, ⟨c, g, f, hi, -⟩ | ⟨c, g, hi, -⟩⟩ | ⟨-, hi | ⟨c, g, hi, -⟩, -⟩⟩
  · exact .inr (.inr ⟨c, g, f, hi⟩)
  · exact .inr (.inl ⟨c, g, hi⟩)
  · exact .inl hi
  · exact .inr (.inl ⟨c, g, hi⟩)

theorem Raises.command_of_errloc_ne {i : Instr} {s u : State} {e : Raise} (h : Raises i s e)
    (hne : (u.takeError e).errlocCg ≠ u.errlocCg ∨ (u.takeError e).errlocF ≠ u.errlocF) :
    i = .buildVec ∨ (∃ c g, i = .buildRow c g) ∨ ∃ c g f, i = .fieldWr c g f ∨ i = .fieldRd c g f := by
  obtain ⟨c, _ | a⟩ := e
  · simp at hne
  · exact (h.located a rfl).command

/-- Settles O12: the parts of each command touch only its own elements. -/
theorem eachElementHasItsWriters : Obligations.EachElementHasItsWriters := by
  intro i s t h
  cases exec_ends h with
  | completes v hcalls hstores =>
    cases hstores with
    | nothing => cases hcalls <;> simp
    | cregWr r => cases hcalls; cases r <;> simp [RwReg.number, State.writeCreg, State.invalidate]
    | reset | cfgLoad | fieldWr | buildVec | buildRow | hdrInit => cases hcalls; simp
    | clearFaults hi => rcases hi with rfl | rfl | ⟨n, rfl⟩ <;> cases hcalls <;> simp
  | @raises u e hcalls hraises =>
    have hloc := fun hne => Or.intro_right (i = .reset) (hraises.command_of_errloc_ne (u := u) hne)
    have hcnt := fun hne => Or.intro_right (i = .reset) (hraises.countsFaults_of_faultCnt_ne (u := u) hne)
    cases hcalls <;> simpa [CountsFaults] using And.intro hloc hcnt

/-! ## STATUS -/

/-- The four parts of STATUS meet in no bit (10_state.md R37). -/
theorem statusParts_toNat (c : Cause) : ∀ cfg vec hdr : Bool,
    (c.code.setWidth 16 ||| (BitVec.ofBool cfg).setWidth 16 <<< 8 ||| (BitVec.ofBool vec).setWidth 16 <<< 9 |||
      (BitVec.ofBool hdr).setWidth 16 <<< 10).toNat =
    c.code.toNat + cfg.toNat * 256 + vec.toNat * 512 + hdr.toNat * 1024 := by
  cases c <;> decide

theorem ite_eq_none_eq_isSome {α : Type} (o : Option α) [Decidable (o = none)] (k : Nat) :
    (if o = none then 0 else k) = o.isSome.toNat * k := by
  cases o <;> simp

/-- Settles O17: the four parts of STATUS add up to the word. -/
theorem statusShowsCauseAndValidity : Obligations.StatusShowsCauseAndValidity := by
  refine ⟨fun s => ?_, rfl, rfl, rfl, rfl, rfl, rfl, rfl⟩
  simp only [ite_eq_none_eq_isSome]
  exact statusParts_toNat s.cause _ _ _

end Sys2Proof.Machine
end

section
/-! PROOF. What a readout command answers, as a function of what it reads (20_memory.md R69), and the step that runs the
decoded command (20_memory.md R63). -/

namespace Sys2Proof.Machine

/-! ## The next command -/

theorem fetch_of_host_cons {s : State} {c : Command} {rest : List Command} (h : s.host = c :: rest) :
    fetch s = some (c.word, { s with host := rest, din := c.din }) := by
  rw [fetch, h]

/-- Settles O6: what `fetch` hands over, decoded. -/
theorem stepRunsTheDecodedCommand : Obligations.StepRunsTheDecodedCommand := by
  intro s c rest i hhost hdecode
  simp only [step, fetch_of_host_cons hhost, hdecode]

/-! ## Answers of the readout commands -/

/-- The two states agree on what ACQUIRE, SCAN and PREFILTER read: their operand, the header set and three control
registers (43_locator.md R207, R216; 44_decoder.md R255). -/
structure SameReadoutInputs (s₁ s₂ : State) : Prop where
  din : s₁.din = s₂.din
  hdrset : s₁.hdrset = s₂.hdrset
  frameLen : s₁.frameLen = s₂.frameLen
  samplePeriod : s₁.samplePeriod = s₂.samplePeriod
  ctrl : s₁.ctrl = s₂.ctrl

/-- A command's response and cause do not depend on the state its rule stores. -/
theorem finish_resp_cause_congr {s₁ s₂ t₁ t₂ : State} {a₁ a₂ : Attempt (State × Response)}
    (ha : Prod.snd <$> a₁ = Prod.snd <$> a₂) (h₁ : finish s₁ a₁ = .next t₁) (h₂ : finish s₂ a₂ = .next t₂) :
    t₁.resp = t₂.resp ∧ t₁.cause = t₂.cause := by
  rcases finish_eq_next.mp h₁ with ⟨u₁, v₁, rfl, rfl⟩ | ⟨e₁, rfl, rfl⟩ <;>
    rcases finish_eq_next.mp h₂ with ⟨u₂, v₂, rfl, rfl⟩ | ⟨e₂, rfl, rfl⟩
  · exact ⟨Except.ok.inj ha, rfl⟩
  · cases ha
  · cases ha
  · exact ⟨rfl, congrArg Raise.cause (Except.error.inj ha)⟩

section
variable {s₁ s₂ : State}

theorem needBytes_congr (h : s₁.din = s₂.din) : needBytes s₁ = needBytes s₂ := by
  simp only [needBytes, h]

theorem needBytesStamp_congr (h : s₁.din = s₂.din) : needBytesStamp s₁ = needBytesStamp s₂ := by
  simp only [needBytesStamp, h]

theorem SameReadoutInputs.needAcquisition_eq (h : SameReadoutInputs s₁ s₂) :
    needAcquisition s₁ = needAcquisition s₂ := by
  simp only [needAcquisition, h.hdrset, h.frameLen, h.samplePeriod]

/-- What acquisition answers of a readout depends on the state through CTRL alone. -/
theorem acquireFrom_snd_congr (h : s₁.ctrl = s₂.ctrl) (hdrs : List Byte) (b period : Nat) (x : List Byte) (seq : Nat)
    (t : Time) :
    Prod.snd <$> acquireFrom s₁ hdrs b period x seq t = Prod.snd <$> acquireFrom s₂ hdrs b period x seq t := by
  simp only [acquireFrom, State.prefilterEn, State.wireRev, h]
  cases filtered params (s₂.ctrl.getLsbD 2) x <;> rfl

variable {t₁ t₂ : State}

theorem SameReadoutInputs.execPrefilter_resp_cause (h : SameReadoutInputs s₁ s₂)
    (h₁ : execPrefilter s₁ = .next t₁) (h₂ : execPrefilter s₂ = .next t₂) : t₁.resp = t₂.resp ∧ t₁.cause = t₂.cause := by
  refine finish_resp_cause_congr ?_ h₁ h₂
  rw [needBytes_congr h.din, map_bind, map_bind]
  refine bind_congr fun x => ?_
  cases prefilter params x <;> rfl

theorem SameReadoutInputs.execScan_resp_cause (h : SameReadoutInputs s₁ s₂) (h₁ : execScan s₁ = .next t₁)
    (h₂ : execScan s₂ = .next t₂) : t₁.resp = t₂.resp ∧ t₁.cause = t₂.cause := by
  refine finish_resp_cause_congr ?_ h₁ h₂
  rw [needBytes_congr h.din, h.hdrset, h.frameLen, State.wireRev, State.wireRev, h.ctrl]
  simp only [map_bind]
  exact bind_congr fun _ => bind_congr fun _ => bind_congr fun _ => rfl

theorem SameReadoutInputs.execAcquire_resp_cause (h : SameReadoutInputs s₁ s₂) (h₁ : execAcquire s₁ = .next t₁)
    (h₂ : execAcquire s₂ = .next t₂) : t₁.resp = t₂.resp ∧ t₁.cause = t₂.cause := by
  refine finish_resp_cause_congr ?_ h₁ h₂
  rw [needBytesStamp_congr h.din, h.needAcquisition_eq]
  simp only [map_bind]
  exact bind_congr fun ⟨x, seq, t⟩ => bind_congr fun ⟨hdrs, b, period⟩ =>
    acquireFrom_snd_congr h.ctrl hdrs b period x seq t

end

/-- Settles O18: each of the three commands answers from what it reads. -/
theorem readoutsAreNotRetained : Obligations.ReadoutsAreNotRetained := by
  intro i s₁ s₂ t₁ t₂ hi hdin hhdr hlen hper hctrl h₁ h₂
  have hsame : SameReadoutInputs s₁ s₂ := ⟨hdin, hhdr, hlen, hper, hctrl⟩
  rcases hi with rfl | rfl | rfl
  · exact hsame.execAcquire_resp_cause h₁ h₂
  · exact hsame.execScan_resp_cause h₁ h₂
  · exact hsame.execPrefilter_resp_cause h₁ h₂

end Sys2Proof.Machine
end

section
/-! PROOF. Command words (30_encoding.md R71, R91): fields and masks, the rows of the opcode map by their match and
mask, and the round trips of decoder and encoder. -/

namespace Sys2Proof

/-! ## A field at its place -/

theorem getElem_place {n k : Nat} (v : BitVec n) (lo : Nat) (hk : k < 32) :
    (place v lo)[k] = (decide (lo ≤ k) && v.getLsbD (k - lo)) := by
  by_cases h : lo ≤ k <;> simp [place, h]

/-- A placed field is read back at its own place. -/
theorem extractLsb'_place_self {n lo : Nat} (v : BitVec n) (h : lo + n ≤ 32) : (place v lo).extractLsb' lo n = v := by
  ext k hk
  simp [getElem_place, show lo + k < 32 by omega, hk]

/-- A placed field is not seen at a place beside it. -/
theorem extractLsb'_place_of_disjoint {m lo' lo n : Nat} (v : BitVec m) (h : lo' + m ≤ lo ∨ lo + n ≤ lo') :
    (place v lo').extractLsb' lo n = 0#n := by
  ext k hk
  by_cases h32 : lo + k < 32
  · rcases h with h | h
    · simp [h32, getElem_place, BitVec.getLsbD_of_ge v (lo + k - lo') (by omega)]
    · simp [h32, getElem_place, show ¬ lo' ≤ lo + k by omega]
  · simp [BitVec.getLsbD_of_ge _ (lo + k) (Nat.not_lt.mp h32)]

/-- Reading a field and placing it again keeps the field's bits of the word and clears the others. -/
theorem place_extractLsb' (w : Word) (lo n : Nat) :
    place (w.extractLsb' lo n) lo = w &&& place (BitVec.allOnes n) lo := by
  ext k hk
  by_cases hlo : lo ≤ k <;> simp [getElem_place, hk, hlo, Bool.and_comm]

/-- A placed field does not meet a mask that is 0 at the field's bits. -/
theorem place_and_eq_zero {n lo : Nat} (v : BitVec n) {m : Word} (h : m.extractLsb' lo n = 0#n) :
    place v lo &&& m = 0#32 := by
  ext k hk
  by_cases hlo : lo ≤ k
  · by_cases hn : k - lo < n
    · have hm : m[k] = false := by
        simpa [hn, hlo, hk] using congrArg (·.getLsbD (k - lo)) h
      simp [hm]
    · simp [getElem_place, BitVec.getLsbD_of_ge v (k - lo) (Nat.not_lt.mp hn)]
  · simp [getElem_place, hlo]

/-- SRC and LOAD (30_encoding.md R77), as fields of one bit. -/
theorem ofBool_getLsbD (w : Word) (k : Nat) : BitVec.ofBool (w.getLsbD k) = w.extractLsb' k 1 := by
  ext j hj
  obtain rfl : j = 0 := by omega
  simp

/-! ## The rows of the opcode map -/

/-- `match` and `mask` of a row (30_encoding.md R91): the opcode at its place; the opcode byte and the reserved bits. -/
def DecodeRow.matchMask (r : DecodeRow) : Word × Word := (place r.opc 24, place 0xFF#8 24 ||| r.reserved)

theorem opcodes_nodup : (decodeRows.map DecodeRow.opc).Nodup := by decide

/-- No reserved bit lies in the opcode byte. -/
theorem reserved_opcodeByte : ∀ r ∈ decodeRows, r.reserved.extractLsb' 24 8 = 0#8 := by decide

theorem opcode_place (o : BitVec 8) : opcode (place o 24) = o := extractLsb'_place_self o (by decide)

/-- The two checks of 30_encoding.md R87 on a row are R91's one comparison under the mask. -/
theorem and_matchMask_iff {r : DecodeRow} (hr : r ∈ decodeRows) (w : Word) :
    w &&& r.matchMask.2 = r.matchMask.1 ↔ opcode w = r.opc ∧ w &&& r.reserved = 0#32 := by
  have hclear := reserved_opcodeByte r hr
  have hopc : w &&& place 0xFF#8 24 = place (opcode w) 24 := (place_extractLsb' w 24 8).symm
  rw [DecodeRow.matchMask, BitVec.and_or_distrib_left, hopc]
  constructor
  · intro h
    constructor
    · simpa [opcode, BitVec.extractLsb'_or, BitVec.extractLsb'_and, hclear, extractLsb'_place_self] using
        congrArg opcode h
    · simpa [BitVec.and_or_distrib_right, BitVec.and_assoc, place_and_eq_zero, hclear] using
        congrArg (· &&& r.reserved) h
  · rintro ⟨h, hz⟩
    rw [h, hz, BitVec.or_zero]

/-- The opcodes of the map are distinct, so an opcode finds its one row. -/
theorem find?_opcode_eq_some {r : DecodeRow} (hr : r ∈ decodeRows) {o : BitVec 8} (h : o = r.opc) :
    decodeRows.find? (fun r => r.opc == o) = some r := by
  cases hf : decodeRows.find? (fun r => r.opc == o) with
  | none => simpa [h] using List.find?_eq_none.mp hf r hr
  | some r' =>
    have hopc : r'.opc = r.opc := by simpa [h] using List.find?_some hf
    rw [List.inj_on_of_nodup_map opcodes_nodup (List.mem_of_find?_eq_some hf) hr hopc]

/-- A word decodes to what the row builds whose match it has under the mask. -/
theorem decode_eq_ok_iff {w : Word} {i : Instr} :
    decode w = .ok i ↔ ∃ r ∈ decodeRows, w &&& r.matchMask.2 = r.matchMask.1 ∧ i = r.build w := by
  constructor
  · intro h
    obtain ⟨r, hr, hopc, hz, hi⟩ := decode_eq_ok h
    exact ⟨r, hr, (and_matchMask_iff hr w).mpr ⟨hopc, hz⟩, hi⟩
  · rintro ⟨r, hr, h, rfl⟩
    obtain ⟨hopc, hz⟩ := (and_matchMask_iff hr w).mp h
    simp only [decode, find?_opcode_eq_some hr hopc, hz, if_true]

/-! ## Rows and instructions -/

/-- What a row builds has the row's match and mask in the table of R91. -/
theorem matchMask_build : ∀ r ∈ decodeRows, ∀ w, matchMask (r.build w) = r.matchMask := by
  intro r hr w
  fin_cases hr <;> rfl

/-- A word that decodes has its command's opcode and the match of R91. -/
theorem decode_ok_matches {w : Word} {i : Instr} (h : decode w = .ok i) :
    opcode w = opcode (matchMask i).1 ∧ w &&& (matchMask i).2 = (matchMask i).1 := by
  obtain ⟨r, hr, hmatch, rfl⟩ := decode_eq_ok_iff.mp h
  rw [matchMask_build r hr w]
  exact ⟨((and_matchMask_iff hr w).mp hmatch).1.trans (opcode_place r.opc).symm, hmatch⟩

/-- The word of what a row builds: the row's match, and the bits outside the mask, which are the field bits (R91).
Each field placed again is the word under that field's mask; together these masks are the complement of the row's. -/
theorem encode_build : ∀ r ∈ decodeRows, ∀ w,
    encode (r.build w) = r.matchMask.1 ||| (w &&& ~~~r.matchMask.2) := by
  intro r hr w
  fin_cases hr <;>
    simp only [encode, DecodeRow.matchMask, chipField, grpField, lowField, crnField, faddrField, widthField, srcField,
      loadField, ofBool_getLsbD, place_extractLsb', BitVec.or_assoc, ← BitVec.and_or_distrib_left] <;>
    simp [place]

/-- Each instruction has a row, at the index of its constructor; the row builds the instruction again from its word,
because every field is alone at its place. -/
theorem exists_row (i : Instr) :
    ∃ r ∈ decodeRows, matchMask i = r.matchMask ∧ r.build (encode i) = i := by
  have hmem {r : DecodeRow} : decodeRows[i.ctorIdx]? = some r → r ∈ decodeRows := List.mem_of_getElem?
  cases i <;> refine ⟨_, hmem rfl, rfl, ?_⟩ <;>
    simp [encode, chipField, grpField, lowField, crnField, faddrField, widthField, srcField, loadField,
      BitVec.extractLsb'_or, extractLsb'_place_self, extractLsb'_place_of_disjoint, getElem_place]

/-- No field of an instruction touches its mask. -/
theorem encode_and_mask (i : Instr) : encode i &&& (matchMask i).2 = (matchMask i).1 := by
  cases i <;> simp [encode, matchMask, BitVec.and_or_distrib_right, place_and_eq_zero]

/-! ## The round trips -/

/-- Settles O1: the word of `i` has its row's match, and the row builds `i` from it. -/
theorem encodedCommandsDecodeBack : Obligations.EncodedCommandsDecodeBack := by
  intro i
  obtain ⟨r, hr, hmm, hbuild⟩ := exists_row i
  exact decode_eq_ok_iff.mpr ⟨r, hr, hmm ▸ encode_and_mask i, hbuild.symm⟩

/-- Settles O2: the bits under the mask are the match, and the encoder puts back those outside it. -/
theorem decodedWordsEncodeBack : Obligations.DecodedWordsEncodeBack := by
  intro w i h
  obtain ⟨r, hr, hmatch, rfl⟩ := decode_eq_ok_iff.mp h
  calc encode (r.build w)
      = r.matchMask.1 ||| (w &&& ~~~r.matchMask.2) := encode_build r hr w
    _ = (w &&& r.matchMask.2) ||| (w &&& ~~~r.matchMask.2) := by rw [hmatch]
    _ = w := by rw [← BitVec.and_or_distrib_left, BitVec.or_not_self, BitVec.and_allOnes]

/-- Settles O3: `matchMask` tells an instruction's row, and the row whose match the word has builds the command. -/
theorem wordIsCommandIffMatchMask : Obligations.WordIsCommandIffMatchMask := by
  intro w i
  constructor
  · rintro ⟨j, hdecode, hsame⟩
    rw [← hsame]
    exact (decode_ok_matches hdecode).2
  · intro h
    obtain ⟨r, hr, hmm, -⟩ := exists_row i
    rw [hmm] at h ⊢
    exact ⟨r.build w, decode_eq_ok_iff.mpr ⟨r, hr, h, rfl⟩, matchMask_build r hr w⟩

/-- Settles O5: the decoder evaluated on each of the fourteen words. -/
theorem writtenOutWordsDecode : Obligations.WrittenOutWordsDecode := by
  unfold Obligations.WrittenOutWordsDecode
  decide

end Sys2Proof
end

section
/-! PROOF. The raises of 30_encoding.md R87: a word that is no command, and an operand of the wrong kind. -/

namespace Sys2Proof.Machine

theorem takeError_illegal (s : State) : s.takeError illegal = s.failed .illegalCommand := takeError_plain s (by decide)

/-- Settles O4: such a word does not decode, and a step of it is `rejectWord`. -/
theorem reservedWordsRaiseIllegalCommand : Obligations.ReservedWordsRaiseIllegalCommand := by
  intro s c rest hhost hreserved
  cases hdecode : decode c.word with
  | ok i =>
    obtain ⟨hopc, hmatch⟩ := decode_ok_matches hdecode
    exact absurd hmatch (hreserved i hopc)
  | error e =>
    simp only [step, fetch_of_host_cons hhost, hdecode, rejectWord, takeError_illegal, State.failed]

/-! ## Operand kinds -/

/-- An operand of the wrong kind is none of the operands of the right kind. -/
theorem din_ne_of_wrongKind {i : Instr} {s : State} {d : Din} (h : dinKindOk i s.din = false)
    (hd : dinKindOk i d = true) : s.din ≠ d := by
  rintro rfl
  exact absurd (hd.symm.trans h) (by decide)

/-! The format S commands require the same kind of operand (30_encoding.md R77): LOAD and the opcode play no part. -/

theorem dinKindOk_srPattern (src load : Bool) (d : Din) :
    dinKindOk (.srPattern src load) d = dinKindOk (.srRbPattern src) d := by cases src <;> cases d <;> rfl

theorem dinKindOk_srWrite (src load : Bool) (d : Din) :
    dinKindOk (.srWrite src load) d = dinKindOk (.srRbPattern src) d := by cases src <;> cases d <;> rfl

theorem dinKindOk_srRbWrite (src : Bool) (d : Din) :
    dinKindOk (.srRbWrite src) d = dinKindOk (.srRbPattern src) d := by cases src <;> cases d <;> rfl

/-- A check that raises IllegalCommand alone raises it where it does not succeed. -/
theorem eq_illegal_of_ne_ok {α : Type} {x : Attempt α} (herror : ∀ {e}, x = .error e → e = illegal)
    (hok : ∀ a, x ≠ .ok a) : x = .error illegal := by
  cases hx : x with
  | ok a => exact absurd hx (hok a)
  | error e => rw [herror hx]

section
variable {s : State}

theorem needNone_illegal (h : s.din ≠ .none) : needNone s = .error illegal :=
  eq_illegal_of_ne_ok needNone_error fun _ hok => h (needNone_eq_ok.mp hok)

theorem needVal_illegal (h : ∀ v, s.din ≠ .val v) : needVal s = .error illegal :=
  eq_illegal_of_ne_ok needVal_error fun v hok => h v (needVal_eq_ok.mp hok)

theorem needBits_illegal (h : ∀ x, s.din ≠ .bits x) : needBits s = .error illegal :=
  eq_illegal_of_ne_ok needBits_error fun x hok => h x (needBits_eq_ok.mp hok)

theorem needBytes_illegal (h : ∀ x, s.din ≠ .bytes x) : needBytes s = .error illegal :=
  eq_illegal_of_ne_ok needBytes_error fun x hok => h x (needBytes_eq_ok.mp hok)

theorem needTree_illegal (h : ∀ t, s.din ≠ .tree t) : needTree s = .error illegal :=
  eq_illegal_of_ne_ok needTree_error fun t hok => h t (needTree_eq_ok.mp hok)

theorem needStamp_illegal (h : ∀ seq t, s.din ≠ .stamp seq t) : needStamp s = .error illegal :=
  eq_illegal_of_ne_ok needStamp_error fun p hok => h p.1 p.2 (needStamp_eq_ok.mp hok)

theorem needBytesStamp_illegal (h : ∀ x seq t, s.din ≠ .bytesStamp x seq t) : needBytesStamp s = .error illegal :=
  eq_illegal_of_ne_ok needBytesStamp_error fun p hok => h p.1 p.2.1 p.2.2 (needBytesStamp_eq_ok.mp hok)

/-- The source of a format S command (30_encoding.md R77), for both values of SRC. -/
theorem needSource_illegal {src : Bool} (h : dinKindOk (.srRbPattern src) s.din = false) :
    needSource s src = .error illegal := by
  cases src with
  | false => exact needBits_illegal fun _ => din_ne_of_wrongKind h rfl
  | true => simp [needSource, needNone_illegal (din_ne_of_wrongKind h rfl)]

/-- A command whose first check raises IllegalCommand does nothing else. -/
theorem finish_bind_illegal {α : Type} {x : Attempt α} {f : α → Attempt (State × Response)} (h : x = .error illegal) :
    finish s (x >>= f) = .next (s.failed .illegalCommand) := by
  rw [h, attempt_bind_error, finish_error, takeError_illegal]

end

/-- Settles O7: each command's first check is of its operand's kind. -/
theorem wrongOperandKindRaisesIllegalCommand : Obligations.WrongOperandKindRaisesIllegalCommand := by
  intro i s h
  have wrong {d : Din} (hd : dinKindOk i d = true) : s.din ≠ d := din_ne_of_wrongKind h hd
  cases i with
  | nop | reset | fieldRd | cregWr | cregRd | buildVec | buildRow | hdrInit =>
    exact finish_bind_illegal (needNone_illegal (wrong rfl))
  | cfgLoad => exact finish_bind_illegal (needTree_illegal fun _ => wrong rfl)
  | fieldWr | bitrev | grayDec => exact finish_bind_illegal (needVal_illegal fun _ => wrong rfl)
  | addrFrame | prefilter | scan | decodeB => exact finish_bind_illegal (needBytes_illegal fun _ => wrong rfl)
  | decodeA | acquire => exact finish_bind_illegal (needBytesStamp_illegal fun _ _ _ => wrong rfl)
  | srPattern src load =>
    rw [dinKindOk_srPattern] at h
    exact finish_bind_illegal (needSource_illegal h)
  | srRbPattern src => exact finish_bind_illegal (needSource_illegal h)
  | srWrite src load =>
    rw [dinKindOk_srWrite] at h
    simp [exec, execSrWrite, planWrite, needSource_illegal h, takeError_illegal]
  | srRbWrite src =>
    rw [dinKindOk_srRbWrite] at h
    simp [exec, execSrRbWrite, planRbWrite, needSource_illegal h, takeError_illegal]
  | acquireRx n =>
    have hstamp : needStamp s = .error illegal := needStamp_illegal fun _ _ => wrong rfl
    simp [exec, execAcquireRx, planAcquireRx, hstamp, takeError_illegal]

end Sys2Proof.Machine
end

section
/-! PROOF. NOP, RESET and the control-register commands (40_register_model.md R101, R102, R108 to R111): what each does
with an operand of its kind. -/

namespace Sys2Proof.Machine

section
variable {s : State}

theorem needNone_of_none (h : s.din = .none) : needNone s = .ok () := needNone_eq_ok.mpr h

/-! ## NOP and RESET -/

theorem execNop_of_none (hdin : s.din = .none) : execNop s = .next (s.complete .nothing) := by
  rw [execNop, needNone_of_none hdin, attempt_bind_ok, finish_ok]

theorem execReset_of_none (hdin : s.din = .none) : execReset s = .next (s.resetCore.complete .nothing) := by
  rw [execReset, needNone_of_none hdin, attempt_bind_ok, finish_ok]

/-! ## Control-register numbers -/

theorem needCreg_of_ofNumber {crn : BitVec 8} {r : Creg} (h : Creg.ofNumber crn = some r) : needCreg crn = .ok r := by
  rw [needCreg, h]

theorem needCreg_of_unassigned {crn : BitVec 8} (h : Creg.ofNumber crn = none) : needCreg crn = .error illegal := by
  rw [needCreg, h, raise]

theorem ofNumber_number (r : RwReg) : Creg.ofNumber r.number = some (.rw r) := by cases r <;> rfl

theorem number_lt (r : RwReg) : r.number.toNat < 7 := by cases r <;> decide

/-- The register numbers that 10_state.md R29 leaves unassigned. -/
theorem ofNumber_eq_none {crn : BitVec 8} (h : (7 ≤ crn.toNat ∧ crn.toNat ≤ 15) ∨ 20 ≤ crn.toNat) :
    Creg.ofNumber crn = none := by
  unfold Creg.ofNumber
  split
  case h_12 => rfl
  all_goals omega

/-! ## CREG_WR -/

/-- CREG_WR of a RW register: the legal value is stored and what it feeds invalidated, or ConfigError. -/
theorem execCregWr_number {r : RwReg} {imm : BitVec 16} {legal : Prop} [Decidable legal] (hdin : s.din = .none)
    (hlegal : cregLegal params r imm = true ↔ legal) :
    execCregWr r.number imm s = .next (if legal
      then ((s.writeCreg r (cregStored r imm)).invalidate r).complete .nothing
      else s.failed .configError) := by
  rw [execCregWr, needNone_of_none hdin, attempt_bind_ok, needCreg_of_ofNumber (ofNumber_number r), attempt_bind_ok]
  dsimp only
  split
  · next h => rw [if_pos (hlegal.mp h), finish_ok]
  · next h => rw [if_neg (mt hlegal.mpr h), raise, finish_error, takeError_plain s (by decide)]

/-- CREG_WR of a number that is no RW register's. -/
theorem execCregWr_of_ne_number (hdin : s.din = .none) {crn : BitVec 8} (h : ∀ r : RwReg, crn ≠ r.number)
    (imm : BitVec 16) : execCregWr crn imm s = .next (s.failed .illegalCommand) := by
  rw [execCregWr, needNone_of_none hdin, attempt_bind_ok]
  cases hr : Creg.ofNumber crn with
  | none => exact finish_bind_illegal (needCreg_of_unassigned hr)
  | some r =>
    rw [needCreg_of_ofNumber hr, attempt_bind_ok]
    cases r with
    | rw r => exact absurd (eq_number_of_ofNumber hr) (h r)
    | ro r => exact congrArg Host.Outcome.next (takeError_illegal s)

/-! ## CREG_RD -/

theorem execCregRd_of_readCreg (hdin : s.din = .none) {crn : BitVec 8} {r : Creg} (hr : Creg.ofNumber crn = some r)
    {v : Half} (hv : s.readCreg r = some v) : execCregRd crn s = .next (s.complete (.value v.toNat)) := by
  rw [execCregRd, needNone_of_none hdin, attempt_bind_ok, needCreg_of_ofNumber hr, attempt_bind_ok, hv, need_some,
    attempt_bind_ok, finish_ok]

theorem execCregRd_of_unwritten (hdin : s.din = .none) {crn : BitVec 8} {r : Creg} (hr : Creg.ofNumber crn = some r)
    (hv : s.readCreg r = none) : execCregRd crn s = .next (s.failed .configNotInitialized) := by
  rw [execCregRd, needNone_of_none hdin, attempt_bind_ok, needCreg_of_ofNumber hr, attempt_bind_ok, hv, need_none,
    attempt_bind_error, finish_error, takeError_plain s (by decide)]

theorem execCregRd_of_unassigned (hdin : s.din = .none) {crn : BitVec 8} (hr : Creg.ofNumber crn = none) :
    execCregRd crn s = .next (s.failed .illegalCommand) := by
  rw [execCregRd, needNone_of_none hdin, attempt_bind_ok, finish_bind_illegal (needCreg_of_unassigned hr)]

end

/-- Settles O19: with operand NONE the command completes at once, with any other its first check fails. -/
theorem nopWritesStatusOnly : Obligations.NopWritesStatusOnly :=
  ⟨rfl, fun _ => ⟨execNop_of_none, fun hdin => finish_bind_illegal (needNone_illegal hdin)⟩⟩

/-- Settles O20: the next state is `s.resetCore`, completed with no response. -/
theorem resetRestoresPowerOnState : Obligations.ResetRestoresPowerOnState := by
  refine ⟨rfl, fun s => ⟨fun hdin => ⟨_, execReset_of_none hdin, ?_⟩, fun hdin => ?_⟩⟩
  · simp [State.status, Cause.code]
  · exact finish_bind_illegal (needNone_illegal hdin)

/-- Settles O24: the seven RW registers each by its number, and every other number. -/
theorem cregWriteStoresAndInvalidates : Obligations.CregWriteStoresAndInvalidates := by
  intro s imm hdin
  refine ⟨execCregWr_number (r := .ctrl) (legal := True) hdin (by simp [cregLegal]),
    execCregWr_number (r := .clkdiv) hdin decide_eq_true_iff,
    execCregWr_number (r := .chipCount) hdin decide_eq_true_iff,
    execCregWr_number (r := .frameLen) hdin (by simp [cregLegal, params]),
    execCregWr_number (r := .samplePeriod) hdin decide_eq_true_iff,
    execCregWr_number (r := .frameOpc) hdin decide_eq_true_iff,
    execCregWr_number (r := .srAddr) hdin decide_eq_true_iff, fun crn hcrn => ?_⟩
  refine execCregWr_of_ne_number hdin (fun r hr => ?_) imm
  have hlt : crn.toNat < 7 := hr ▸ number_lt r
  omega

/-- Settles O25: each assigned number with its register, and the numbers that have none. -/
theorem cregReadRespondsOrRaises : Obligations.CregReadRespondsOrRaises := by
  intro s hdin answers reads
  have hanswers {crn r v} (hr : Creg.ofNumber crn = some r) (hv : s.readCreg r = some v) : answers crn v :=
    execCregRd_of_readCreg hdin hr hv
  have hreads {crn} (r) (hr : Creg.ofNumber crn = some r) : reads crn (s.readCreg r) :=
    ⟨fun _ => hanswers hr, execCregRd_of_unwritten hdin hr⟩
  exact ⟨hanswers (r := .rw .ctrl) rfl rfl, hreads (.rw .clkdiv) rfl, hreads (.rw .chipCount) rfl,
    hreads (.rw .frameLen) rfl, hreads (.rw .samplePeriod) rfl, hreads (.rw .frameOpc) rfl, hreads (.rw .srAddr) rfl,
    hanswers (r := .ro .status) rfl rfl, hanswers (r := .ro .errlocCg) rfl rfl,
    hanswers (r := .ro .errlocF) rfl rfl, hanswers (r := .ro .faultCnt) rfl rfl,
    fun _ hcrn => execCregRd_of_unassigned hdin (ofNumber_eq_none hcrn)⟩

end Sys2Proof.Machine
end

section
/-! PROOF. FIELD_WR and FIELD_RD (40_register_model.md R106, R107). -/

namespace Sys2Proof.Machine

section
variable {s : State} {cfg : Chain} {a : FieldAddr} {k : Chain × RegisterField → Attempt (State × Response)}

/-- A triple whose indices reach no field names none (20_memory.md R51). -/
theorem fieldAt_eq_none (h : ∀ chip grp fld, cfg[a.chip]? = some chip → a.grp < 5 → chip.groups[a.grp]? = some grp →
    grp.fields[a.fld]? ≠ some fld) : fieldAt params cfg a = none := by
  refine Option.eq_none_iff_forall_ne_some.mpr fun fld hfld => ?_
  obtain ⟨chip, grp, hg, hchip, hgrp, hf⟩ := fieldAt_eq_some.mp hfld
  exact h chip grp fld hchip hg hgrp hf

/-! What FIELD_WR and FIELD_RD end with after `needField`: the rest of the command, or one of its two errors. -/

theorem finish_needField_of_fieldAt {fld : RegisterField} (hcfg : s.cfg = some cfg)
    (hf : fieldAt params cfg a = some fld) : finish s (needField s a >>= k) = finish s (k (cfg, fld)) := by
  have hok : needField s a = .ok (cfg, fld) := needField_eq_ok.mpr ⟨hcfg, hf⟩
  rw [hok, attempt_bind_ok]

theorem finish_needField_of_cfg_none (hcfg : s.cfg = none) :
    finish s (needField s a >>= k) = .next (s.failed .configNotInitialized) := by
  have herror : needField s a = .error uninit := by rw [needField, hcfg, need_none, attempt_bind_error]
  rw [herror, attempt_bind_error, finish_error, takeError_plain s (by decide)]

theorem finish_needField_of_fieldAt_none (hcfg : s.cfg = some cfg) (hf : fieldAt params cfg a = none) :
    finish s (needField s a >>= k) = .next (s.failedAt .configError a.chip a.grp a.fld) := by
  have herror : needField s a = .error ⟨.configError, some a⟩ := by
    rw [needField, hcfg, need_some, attempt_bind_ok, hf, raiseAt]
  rw [herror, attempt_bind_error, finish_error, takeError_located s a (by decide)]

end

/-- Settles O22: the chain stored is `setField cfg (fieldAddr c g f) v`. -/
theorem fieldWriteSetsOneValue : Obligations.FieldWriteSetsOneValue := by
  intro s c g f v hdin
  have hexec : exec (.fieldWr c g f) s = execFieldWr c g f s := rfl
  rw [hexec, execFieldWr, needVal_eq_ok.mpr hdin, attempt_bind_ok]
  refine ⟨finish_needField_of_cfg_none, fun cfg hcfg => ⟨fun fld hf => ?_, fun hnone => ?_⟩⟩
  · refine ⟨setField cfg (fieldAddr c g f) v, finish_needField_of_fieldAt hcfg hf, ?_, fun a ha => ?_,
      eraseValues_setField ..⟩
    · exact (fieldAt_setField ..).trans (by simp [fieldAddr, hf])
    · exact (fieldAt_setField ..).trans (if_neg ha)
  · exact finish_needField_of_fieldAt_none hcfg (fieldAt_eq_none hnone)

/-- Settles O23, by the three ways on from `needField`. -/
theorem fieldReadResponds : Obligations.FieldReadResponds := by
  intro s c g f hdin
  have hexec : exec (.fieldRd c g f) s = execFieldRd c g f s := rfl
  rw [hexec, execFieldRd, needNone_of_none hdin, attempt_bind_ok]
  refine ⟨finish_needField_of_cfg_none, fun cfg hcfg => ⟨fun chip grp fld hchip hg hgrp hfld => ?_, fun hnone => ?_⟩⟩
  · exact finish_needField_of_fieldAt hcfg (fieldAt_eq_some.mpr ⟨chip, grp, hg, hchip, hgrp, hfld⟩)
  · exact finish_needField_of_fieldAt_none hcfg (fieldAt_eq_none hnone)

end Sys2Proof.Machine
end

section
/-! PROOF. CFG_LOAD does not see the order of a tree's groups (40_register_model.md R103): neither its check of the tree
nor the chain it loads. -/

namespace Sys2Proof.Machine

/-- Two chips of a tree that differ in the order of their groups alone (40_register_model.md R103). -/
def SameButGroupOrder (a b : TreeChip) : Prop :=
  a.version = b.version ∧ a.rows = b.rows ∧ a.cols = b.cols ∧ a.groups.Perm b.groups

/-- Lists related element by element agree on a test that the relation keeps. -/
theorem all_eq_of_forall₂ {α β : Type} {R : α → β → Prop} {p : α → Bool} {q : β → Bool} {l : List α} {m : List β}
    (h : List.Forall₂ R l m) (hpq : ∀ a b, R a b → p a = q b) : l.all p = m.all q := by
  induction h with
  | nil => rfl
  | cons hab _ ih => rw [List.all_cons, List.all_cons, hpq _ _ hab, ih]

/-- R104 items 1 to 4 do not see the order of the groups. -/
theorem treeShapeOk_congr {P : Params} {t t' : RegisterTree} (h : List.Forall₂ SameButGroupOrder t t') :
    treeShapeOk P t = treeShapeOk P t' := by
  have hgroups : t.all (treeGroupsOk P) = t'.all (treeGroupsOk P) := by
    refine all_eq_of_forall₂ h fun a b ⟨_, _, _, hperm⟩ => ?_
    have hnames := hperm.map TreeGroup.name
    simp only [treeGroupsOk, hnames.nodup_iff, hperm.all_eq, hnames.contains_eq]
  have hall (p : TreeGroup → Bool) : (t.all fun c => c.groups.all p) = t'.all fun c => c.groups.all p :=
    all_eq_of_forall₂ h fun _ _ ⟨_, _, _, hperm⟩ => hperm.all_eq
  simp only [treeShapeOk, h.length_eq, hgroups, hall]

/-- A name that no group of the chip has loads to a group with no fields. -/
theorem loadGroup_of_forall_ne {chip : TreeChip} {n : String} (h : ∀ g ∈ chip.groups, g.name ≠ n) :
    loadGroup chip n = ⟨n, []⟩ := by
  rw [loadGroup, List.find?_eq_none.mpr (by simpa using h)]

/-- Where the group names are distinct, a chip loads to the same groups whatever their order. -/
theorem loadChip_congr {P : Params} {a b : TreeChip} (h : SameButGroupOrder a b)
    (hd : (a.groups.map TreeGroup.name).Nodup) : loadChip P a = loadChip P b := by
  obtain ⟨hversion, hrows, hcols, hperm⟩ := h
  have hgroup : loadGroup a = loadGroup b := by
    funext n
    by_cases hn : ∃ g ∈ a.groups, g.name = n
    · obtain ⟨g, hg, rfl⟩ := hn
      rw [loadGroup_of_mem hd hg, loadGroup_of_mem ((hperm.map TreeGroup.name).nodup hd) (hperm.subset hg)]
    · have hne : ∀ g ∈ a.groups, g.name ≠ n := fun g hg hname => hn ⟨g, hg, hname⟩
      rw [loadGroup_of_forall_ne hne, loadGroup_of_forall_ne fun g hg => hne g (hperm.symm.subset hg)]
  simp only [loadChip, hversion, hrows, hcols, hgroup]

theorem loadTree_congr {P : Params} {t t' : RegisterTree} (h : List.Forall₂ SameButGroupOrder t t')
    (hd : ∀ chip ∈ t, (chip.groups.map TreeGroup.name).Nodup) : loadTree P t = loadTree P t' := by
  induction h with
  | nil => rfl
  | cons hab _ ih =>
    obtain ⟨hda, hdt⟩ := List.forall_mem_cons.mp hd
    exact congrArg₂ List.cons (loadChip_congr hab hda) (ih hdt)

/-- Settles O58: both trees lack the shape of R104, or both load to one chain, of which CFG_EXTRA_CHECK is asked. -/
theorem groupOrderCarriesNoMeaning : Obligations.GroupOrderCarriesNoMeaning := by
  intro s t t' hdin h
  refine ⟨_, execCfgLoad_of_tree hdin, (execCfgLoad_of_tree rfl).trans ?_⟩
  have hshape : treeShapeOk params t = treeShapeOk params t' := treeShapeOk_congr h
  cases hok : treeShapeOk params t with
  | false => simp [treeValid, ← hshape, hok, State.failed]
  | true =>
    have hload : loadTree params t = loadTree params t' :=
      loadTree_congr h ((treeShapeOk_iff params t).mp hok).namesDistinct
    rw [treeValid, treeValid, ← hshape, ← hload]
    split <;> rfl

end Sys2Proof.Machine
end

section
/-! PROOF. The bit utilities (41_serializer.md section 3): which bit goes where in BITREV, that GRAY_DEC gives in
each bit the parity of the bits from there up, and that the commands respond these values. -/

namespace Sys2Proof.Machine

/-! ## Bit reversal -/

/-- The lowest of `w + 1` bits goes to the top, the others are reversed below it (00_scope.md R12). -/
theorem bitrev_succ (v w : Nat) : bitrev v (w + 1) = 2 ^ w * (v.testBit 0).toNat + bitrev (v / 2) w := by
  have hrest (i : Nat) : (bitAt v (i + 1)).toNat <<< (w - (i + 1)) = (bitAt (v / 2) i).toNat <<< (w - 1 - i) := by
    rw [bitAt, bitAt, Nat.testBit_succ, Nat.sub_sub, Nat.add_comm 1]
  simp only [bitrev, List.range_succ_eq_map, List.map_cons, List.map_map, List.sum_cons, Function.comp_def,
    Nat.succ_eq_add_one, Nat.add_sub_cancel, Nat.sub_zero, hrest]
  rw [bitAt, Nat.shiftLeft_eq, Nat.mul_comm]

theorem bitrev_lt (v w : Nat) : bitrev v w < 2 ^ w := by
  induction w generalizing v with
  | zero => simp [bitrev]
  | succ w ih =>
    have hrest := ih (v / 2)
    have hbit : 2 ^ w * (v.testBit 0).toNat ≤ 2 ^ w * 1 := Nat.mul_le_mul_left _ (Bool.toNat_le _)
    rw [bitrev_succ, Nat.pow_succ]
    omega

/-- The bits of a reversal (00_scope.md R12): bit `i` is bit `w - 1 - i` of the operand, none from `w` up. -/
theorem testBit_bitrev (v w i : Nat) : (bitrev v w).testBit i = (decide (i < w) && v.testBit (w - 1 - i)) := by
  induction w generalizing v with
  | zero => simp [bitrev]
  | succ w ih =>
    rw [bitrev_succ, Nat.testBit_two_pow_mul_add _ (bitrev_lt _ _), ih]
    rcases lt_trichotomy i w with hlt | rfl | hgt
    · have hidx : w + 1 - 1 - i = (w - 1 - i) + 1 := by omega
      rw [if_pos hlt, hidx, Nat.testBit_succ]
      simp [hlt, Nat.lt_succ_of_lt hlt]
    · cases h : v.testBit 0 <;> simp [h]
    · obtain ⟨k, rfl⟩ := Nat.exists_eq_add_of_lt hgt
      cases v.testBit 0 <;> simp [Nat.testBit_succ, Nat.add_assoc]

theorem bitrev_bitrev {v w : Nat} (h : v < 2 ^ w) : bitrev (bitrev v w) w = v := by
  refine Nat.eq_of_testBit_eq fun i => ?_
  rw [testBit_bitrev, testBit_bitrev]
  rcases Nat.lt_or_ge i w with hi | hi
  · have hback : w - 1 - (w - 1 - i) = i := by omega
    have hlt : w - 1 - i < w := by omega
    simp [hi, hlt, hback]
  · have hzero : v.testBit i = false := Nat.testBit_lt_two_pow (h.trans_le (Nat.pow_le_pow_right (by decide) hi))
    simp [Nat.not_lt.mpr hi, hzero]

theorem getLsbD_bitrev8 (x : Byte) {i : Nat} (hi : i < 8) : (bitrev8 x).getLsbD i = x.getLsbD (7 - i) := by
  rw [bitrev8, BitVec.getLsbD_ofNat, testBit_bitrev, BitVec.testBit_toNat]
  simp [hi]

theorem bitrev8_involutive : Function.Involutive bitrev8 := by
  intro x
  refine BitVec.eq_of_getLsbD_eq fun i hi => ?_
  have hback : 7 - (7 - i) = i := by omega
  rw [getLsbD_bitrev8 _ hi, getLsbD_bitrev8 _ (by omega), hback]

/-- Settles O31, from which bit goes where. -/
theorem bitReversalIsAnInvolution : Obligations.BitReversalIsAnInvolution :=
  ⟨fun _ _ => bitrev_bitrev, fun x _ => getLsbD_bitrev8 x, bitrev8_involutive.bijective⟩

/-- BITREV of an operand of its kind at a legal width. -/
theorem execBitrev_of_width {s : State} {w : BitVec 8} {v : Nat} (hdin : s.din = .val v) (hw : 1 ≤ w.toNat)
    (hw' : w.toNat ≤ 64) : execBitrev w s = .next (if v < 2 ^ w.toNat
      then s.complete (.value (bitrev v w.toNat))
      else s.failed .outOfRange) := by
  rw [execBitrev, needVal_eq_ok.mpr hdin, attempt_bind_ok, needWidth, if_pos ⟨hw, hw'⟩, attempt_bind_ok]
  split
  · rw [finish_ok]
  · rw [raise, finish_error, takeError_plain s (by decide)]

/-- BITREV at a width outside 1..64 (30_encoding.md R79). -/
theorem execBitrev_of_illegal_width {s : State} {w : BitVec 8} {v : Nat} (hdin : s.din = .val v)
    (hw : w.toNat = 0 ∨ 64 < w.toNat) : execBitrev w s = .next (s.failed .illegalCommand) := by
  have hwidth : needWidth w = .error illegal := by rw [needWidth, if_neg (by omega), raise]
  rw [execBitrev, needVal_eq_ok.mpr hdin, attempt_bind_ok, finish_bind_illegal hwidth]

/-- Settles O30: the response is `bitrev v w`. -/
theorem bitrevRespondsTheReversal : Obligations.BitrevRespondsTheReversal := by
  intro s w v hdin
  have hexec : exec (.bitrev w) s = execBitrev w s := rfl
  rw [hexec]
  refine ⟨fun hw hw' hv => ⟨bitrev v w.toNat, ?_, bitrev_lt _ _, fun i hi => ?_⟩, execBitrev_of_illegal_width hdin,
    fun hw hw' hv => ?_⟩
  · rw [execBitrev_of_width hdin hw hw', if_pos hv, State.complete]
  · simp [testBit_bitrev, hi]
  · rw [execBitrev_of_width hdin hw hw', if_neg (Nat.not_lt.mpr hv)]

/-! ## Gray decoding -/

/-- Whether an odd number of the `n` low bits of `m` are ones (41_serializer.md R142). -/
def oddOnes (n m : Nat) : Bool := decide (((List.range n).filter fun k => m.testBit k).length % 2 = 1)

theorem decide_succ_odd (k : Nat) : decide ((k + 1) % 2 = 1) = !decide (k % 2 = 1) := by
  rw [← decide_not, decide_eq_decide]; omega

/-- The lowest bit apart. -/
theorem oddOnes_succ (n m : Nat) : oddOnes (n + 1) m = (m.testBit 0 ^^ oddOnes n (m >>> 1)) := by
  cases h : m.testBit 0 <;>
    simp [oddOnes, List.range_succ_eq_map, List.filter_map, Function.comp_def, Nat.testBit_shiftRight, h,
      Nat.add_comm 1, decide_succ_odd]

/-- The highest bit apart. -/
theorem oddOnes_succ_last (n m : Nat) : oddOnes (n + 1) m = (oddOnes n m ^^ m.testBit n) := by
  cases h : m.testBit n <;> simp [oddOnes, List.range_succ, h, decide_succ_odd]

theorem oddOnes_zero_right (n : Nat) : oddOnes n 0 = false := by simp [oddOnes]

/-- The loop of R142 adds to each bit the parity of the bits of `m` from there up, as far as its fuel reaches. -/
theorem testBit_grayLoop (fuel r m i : Nat) :
    (grayLoop fuel r m).testBit i = (r.testBit i ^^ oddOnes fuel (m >>> i)) := by
  induction fuel generalizing r m with
  | zero => simp [grayLoop, oddOnes]
  | succ fuel ih =>
    unfold grayLoop
    split
    · next hm => simp [hm, oddOnes_zero_right]
    · have hshift : m >>> i >>> 1 = m >>> 1 >>> i := by rw [← Nat.shiftRight_add, ← Nat.shiftRight_add, Nat.add_comm]
      rw [ih, oddOnes_succ, hshift, Nat.testBit_xor, Nat.testBit_shiftRight, Nat.add_zero, Bool.xor_assoc]

/-- R142 read bit by bit: bit `i` is the parity of `g >> i`. -/
theorem testBit_grayDec (g i : Nat) : (grayDec g).testBit i = oddOnes (g.log2 + 1) (g >>> i) := by
  have htop : (g >>> i).testBit (g.log2 + 1) = false := by
    rw [Nat.testBit_shiftRight]
    exact Nat.testBit_lt_two_pow (Nat.lt_log2_self.trans_le (Nat.pow_le_pow_right (by decide) (Nat.le_add_left ..)))
  calc (grayDec g).testBit i
      = (g.testBit i ^^ oddOnes (g.log2 + 1) (g >>> 1 >>> i)) := testBit_grayLoop ..
    _ = oddOnes (g.log2 + 1 + 1) (g >>> i) := by
      rw [oddOnes_succ _ (g >>> i), Nat.testBit_shiftRight, Nat.add_zero i, ← Nat.shiftRight_add, ← Nat.shiftRight_add,
        Nat.add_comm 1]
    _ = oddOnes (g.log2 + 1) (g >>> i) := by rw [oddOnes_succ_last, htop, Bool.xor_false]

theorem grayDec_lt {g k : Nat} (h : g < 2 ^ k) : grayDec g < 2 ^ k := by
  refine Nat.lt_pow_two_of_testBit _ fun i hi => ?_
  have hzero : g >>> i = 0 := Nat.shiftRight_eq_zero g i (h.trans_le (Nat.pow_le_pow_right (by decide) hi))
  rw [testBit_grayDec, hzero, oddOnes_zero_right]

/-- Settles O32: the response is `grayDec g`. -/
theorem grayDecRespondsTheDecodedValue : Obligations.GrayDecRespondsTheDecodedValue := by
  intro s g hdin
  refine ⟨grayDec g, ?_, testBit_grayDec g, fun _ => grayDec_lt⟩
  have hexec : exec .grayDec s = execGrayDec s := rfl
  rw [hexec, execGrayDec, needVal_eq_ok.mpr hdin, attempt_bind_ok, finish_ok, State.complete]

theorem eq_zero_of_grayEnc_eq_zero {x : Nat} (h : grayEnc x = 0) : x = 0 := by
  have hshift : x = x >>> 1 := Nat.xor_eq_zero_iff.mp h
  rw [Nat.shiftRight_succ, Nat.shiftRight_zero] at hshift
  omega

theorem grayEnc_shiftRight (x k : Nat) : grayEnc x >>> k = grayEnc (x >>> k) := by
  rw [grayEnc, grayEnc, Nat.shiftRight_xor_distrib, ← Nat.shiftRight_add, ← Nat.shiftRight_add, Nat.add_comm]

/-- The loop of R142 on an encoded value: while what is left to shift is the code of `y`, the result lacks `y`. -/
theorem grayLoop_grayEnc (fuel x y : Nat) (h : grayEnc y < 2 ^ fuel) :
    grayLoop fuel (x ^^^ y) (grayEnc y) = x := by
  induction fuel generalizing y with
  | zero =>
    obtain rfl : y = 0 := eq_zero_of_grayEnc_eq_zero (Nat.lt_one_iff.mp h)
    exact Nat.xor_zero x
  | succ fuel ih =>
    unfold grayLoop
    split
    · next hzero => rw [eq_zero_of_grayEnc_eq_zero hzero, Nat.xor_zero]
    · have hlt : grayEnc (y >>> 1) < 2 ^ fuel := by
        rw [← grayEnc_shiftRight, Nat.shiftRight_succ, Nat.shiftRight_zero]
        omega
      have hxor : x ^^^ y ^^^ grayEnc y = x ^^^ y >>> 1 := by rw [grayEnc, Nat.xor_assoc, Nat.xor_xor_cancel_left]
      rw [hxor, grayEnc_shiftRight, ih _ hlt]

/-- Settles O33: one turn into the loop, `grayLoop_grayEnc` applies. -/
theorem grayDecodeInvertsEncode : Obligations.GrayDecodeInvertsEncode := by
  intro x
  have hfuel : grayEnc (x >>> 1) < 2 ^ ((grayEnc x).log2 + 1) := by
    rw [← grayEnc_shiftRight]
    exact (Nat.shiftRight_le _ _).trans_lt Nat.lt_log2_self
  rw [grayDec, grayEnc_shiftRight]
  exact grayLoop_grayEnc _ x _ hfuel

end Sys2Proof.Machine
end

section
/-! PROOF. BUILD_VEC and BUILD_ROW (41_serializer.md R130 to R137): what the builder makes of fields that fit, which
misfit it reports, and how the two commands end. -/

namespace Sys2Proof.Machine

/-! ## The builder -/

theorem fittingBits_params (group : String) : fittingBits params group = fun fld =>
    if group = "vdac" then (slice fld.value fld.width).reverse else slice fld.value fld.width :=
  funext fun _ => orient_params ..

theorem rowVec_ok (P : Params) (msb : Bool) (c g : Nat) {grp : RegisterGroup} (h : ∀ fld ∈ grp.fields, fld.Fits) :
    rowVec P msb c g grp = .ok (msbOrder msb (grp.fields.flatMap (fittingBits P grp.name))) := by
  rw [rowVec, fieldsBits_ok P grp.name c g 0 grp.fields h, attempt_bind_ok]

/-- Field `f` of the group does not fit, and it is the first such in declared order. -/
structure FirstMisfit (grp : RegisterGroup) (f : Nat) (fld : RegisterField) : Prop where
  getElem? : grp.fields[f]? = some fld
  misfit : ¬ fld.Fits
  before : ∀ f' fld', f' < f → grp.fields[f']? = some fld' → fld'.Fits

section
variable {grp : RegisterGroup} {f : Nat} {fld : RegisterField}

theorem FirstMisfit.fieldsBits_error (h : FirstMisfit grp f fld) (P : Params) (c g : Nat) :
    fieldsBits P grp.name c g 0 grp.fields = .error ⟨.outOfRange, some ⟨c, g, f⟩⟩ := by
  rw [fieldsBits_misfit P grp.name c g 0 f grp.fields fld h.getElem? h.misfit h.before, Nat.zero_add]

theorem FirstMisfit.rowVec_error (h : FirstMisfit grp f fld) (P : Params) (msb : Bool) (c g : Nat) :
    rowVec P msb c g grp = .error ⟨.outOfRange, some ⟨c, g, f⟩⟩ := by
  rw [rowVec, h.fieldsBits_error, attempt_bind_error]

/-- The groups before the one that holds the misfit raise nothing (41_serializer.md R134). -/
theorem FirstMisfit.groupsBits_error (h : FirstMisfit grp f fld) (P : Params) (c g₀ : Nat) {g : Nat}
    {gs : List RegisterGroup} (hgrp : gs[g]? = some grp)
    (hbefore : ∀ g' grp', g' < g → gs[g']? = some grp' → ∀ fld' ∈ grp'.fields, fld'.Fits) :
    groupsBits P c g₀ gs = .error ⟨.outOfRange, some ⟨c, g₀ + g, f⟩⟩ := by
  induction gs generalizing g g₀ with
  | nil => simp at hgrp
  | cons first rest ih =>
    cases g with
    | zero =>
      obtain rfl : first = grp := by simpa using hgrp
      rw [groupsBits, h.fieldsBits_error, attempt_bind_error, Nat.add_zero]
    | succ g =>
      have hrest := ih (g₀ + 1) (g := g) hgrp fun g' grp' hlt hg' => hbefore (g' + 1) grp' (by omega) hg'
      rw [groupsBits, fieldsBits_ok _ _ _ _ _ _ (hbefore 0 first (by omega) rfl), attempt_bind_ok, hrest,
        attempt_bind_error, Nat.add_assoc, Nat.add_comm 1]

theorem FirstMisfit.chipVec_error (h : FirstMisfit grp f fld) (P : Params) (msb : Bool) (c : Nat) {g : Nat}
    {chip : ChipConfig} (hgrp : chip.groups[g]? = some grp)
    (hbefore : ∀ g' grp', g' < g → chip.groups[g']? = some grp' → ∀ fld' ∈ grp'.fields, fld'.Fits) :
    chipVec P msb c chip = .error ⟨.outOfRange, some ⟨c, g, f⟩⟩ := by
  rw [chipVec, chipBits, h.groupsBits_error P c 0 hgrp hbefore, attempt_bind_error, Nat.zero_add]

end

/-- The chips above the one that raises are built first, and the error is that chip's (41_serializer.md R133, R134). -/
theorem chainVecFrom_error_of_chipVec {P : Params} {msb : Bool} {c₀ c : Nat} {cfg : Chain} {chip : ChipConfig}
    {e : Raise} (hchip : cfg[c]? = some chip) (he : chipVec P msb (c₀ + c) chip = .error e)
    (habove : ∀ c' chip', c < c' → cfg[c']? = some chip' → ∀ grp' ∈ chip'.groups, ∀ fld' ∈ grp'.fields, fld'.Fits) :
    chainVecFrom P msb c₀ cfg = .error e := by
  induction cfg generalizing c₀ c with
  | nil => simp at hchip
  | cons first rest ih =>
    cases c with
    | zero =>
      obtain rfl : first = chip := by simpa using hchip
      have hfits : ∀ chip' ∈ rest, ∀ grp' ∈ chip'.groups, ∀ fld' ∈ grp'.fields, fld'.Fits := by
        intro chip' hmem
        obtain ⟨c', hc'⟩ := List.getElem?_of_mem hmem
        exact habove (c' + 1) chip' (by omega) hc'
      rw [chainVecFrom, chainVecFrom_ok _ _ _ _ hfits, attempt_bind_ok, ← Nat.add_zero c₀, he, attempt_bind_error]
    | succ c =>
      have hrest : chainVecFrom P msb (c₀ + 1) rest = .error e :=
        ih (c := c) hchip (by rwa [Nat.add_assoc, Nat.add_comm 1]) fun c' chip' hlt hc' =>
          habove (c' + 1) chip' (by omega) hc'
      rw [chainVecFrom, hrest, attempt_bind_error]

/-! ## How the two commands end -/

/-- Both commands store and respond the vector they build, or raise what the builder raised (41_serializer.md
R136, R137). -/
def storeVec (s : State) (a : Attempt (List Bit)) : Host.Outcome State Fault Refusal :=
  finish s (a >>= fun v => .ok ({ s with vec := some v }, .bits v))

section
variable {s : State} {a : Attempt (List Bit)}

theorem storeVec_ok {v : List Bit} (h : a = .ok v) :
    storeVec s a = .next { s with vec := some v, cause := .none, resp := .bits v } := by
  rw [storeVec, h, attempt_bind_ok, finish_ok, State.complete]

theorem storeVec_misfit {c g f : Nat} (h : a = .error ⟨.outOfRange, some ⟨c, g, f⟩⟩) :
    storeVec s a = .next (s.failedAt .outOfRange c g f) := by
  rw [storeVec, h, attempt_bind_error, finish_error, takeError_located s _ (by decide)]

/-- A command that first needs the register model, with none loaded (10_state.md R41). -/
theorem finish_need_none {α : Type} {o : Option α} (h : o = none) (k : α → Attempt (State × Response)) :
    finish s (need o >>= k) = .next (s.failed .configNotInitialized) := by
  rw [h, need_none, attempt_bind_error, finish_error, takeError_plain s (by decide)]

theorem execBuildVec_of_none (hdin : s.din = .none) (hcfg : s.cfg = none) :
    execBuildVec s = .next (s.failed .configNotInitialized) := by
  rw [execBuildVec, needNone_of_none hdin, attempt_bind_ok, finish_need_none hcfg]

theorem execBuildVec_of_cfg (hdin : s.din = .none) {cfg : Chain} (hcfg : s.cfg = some cfg) :
    execBuildVec s = storeVec s (chainVec params s.msbFirst cfg) := by
  rw [execBuildVec, needNone_of_none hdin, attempt_bind_ok, need_eq_ok.mpr hcfg, attempt_bind_ok, storeVec]

variable {c : BitVec 5} {g : BitVec 3}

theorem execBuildRow_of_none (hdin : s.din = .none) (hcfg : s.cfg = none) :
    execBuildRow c g s = .next (s.failed .configNotInitialized) := by
  rw [execBuildRow, needNone_of_none hdin, attempt_bind_ok, finish_need_none hcfg]

theorem execBuildRow_of_groupAt_none (hdin : s.din = .none) {cfg : Chain} (hcfg : s.cfg = some cfg)
    (h : groupAt params cfg c.toNat g.toNat = none) :
    execBuildRow c g s = .next (s.failedAt .configError c.toNat g.toNat 0) := by
  rw [execBuildRow, needNone_of_none hdin, attempt_bind_ok, need_eq_ok.mpr hcfg, attempt_bind_ok, needRow, h, raiseAt,
    attempt_bind_error, finish_error, takeError_located s _ (by decide)]

/-- BUILD_ROW of a group that is there: ROW_TRIM_OK is asked before a field is looked at (41_serializer.md R137). -/
theorem execBuildRow_of_groupAt (hdin : s.din = .none) {cfg : Chain} (hcfg : s.cfg = some cfg) {chip : ChipConfig}
    {grp : RegisterGroup} (h : groupAt params cfg c.toNat g.toNat = some (chip, grp)) :
    execBuildRow c g s = if params.rowTrimOk chip then storeVec s (rowVec params s.msbFirst c.toNat g.toNat grp)
      else .next (s.failed .configError) := by
  rw [execBuildRow, needNone_of_none hdin, attempt_bind_ok, need_eq_ok.mpr hcfg, attempt_bind_ok, needRow, h]
  dsimp only
  split
  · rw [attempt_bind_ok, storeVec]
  · rw [raise, attempt_bind_error, finish_error, takeError_plain s (by decide)]

end

theorem groupAt_eq_none {P : Params} {cfg : Chain} {c g : Nat} (h : cfg.length ≤ c ∨ P.groupOrder.length ≤ g) :
    groupAt P cfg c g = none := by
  refine Option.eq_none_iff_forall_ne_some.mpr fun ⟨chip, grp⟩ hgrp => ?_
  obtain ⟨hg, hchip, -⟩ := groupAt_eq_some.mp hgrp
  obtain ⟨hc, -⟩ := List.getElem?_eq_some_iff.mp hchip
  omega

/-- Settles O26: the vector is what `chainVecFrom_ok` says of fields that fit. -/
theorem buildVecStoresTheChainVector : Obligations.BuildVecStoresTheChainVector := by
  rintro s cfg v hdin hcfg hfits rfl
  refine (execBuildVec_of_cfg hdin hcfg).trans (storeVec_ok ?_)
  rw [chainVec, chainVecFrom_ok _ _ _ _ hfits]
  simp only [fittingBits_params]
  rfl

/-- Settles O27: the chips above, the groups before and the fields before raise nothing. -/
theorem buildVecReportsTheFirstMisfit : Obligations.BuildVecReportsTheFirstMisfit := by
  intro s hdin
  refine ⟨execBuildVec_of_none hdin, ?_⟩
  intro cfg c g f chip grp fld hcfg hchip hgrp hfld hbad habove hgroups hfields
  have hfirst : FirstMisfit grp f fld := ⟨hfld, hbad, hfields⟩
  refine (execBuildVec_of_cfg hdin hcfg).trans (storeVec_misfit ?_)
  exact chainVecFrom_error_of_chipVec hchip (by rw [Nat.zero_add, hfirst.chipVec_error _ _ _ hgrp hgroups]) habove

/-- Settles O28: the checks in their order, then the builder on one group. -/
theorem buildRowStoresTheRowVector : Obligations.BuildRowStoresTheRowVector := by
  intro s c g hdin
  have hexec : exec (.buildRow c g) s = execBuildRow c g s := rfl
  rw [hexec]
  refine ⟨execBuildRow_of_none hdin, fun cfg hcfg => ⟨fun hout => ?_, fun chip grp hchip hg hgrp => ?_⟩⟩
  · exact execBuildRow_of_groupAt_none hdin hcfg (groupAt_eq_none hout)
  rw [execBuildRow_of_groupAt hdin hcfg (groupAt_eq_some.mpr ⟨hg, hchip, hgrp⟩)]
  constructor
  · rintro v hfits rfl
    rw [storeVec_ok (rowVec_ok _ _ _ _ hfits)]
    simp only [fittingBits_params]
    split <;> rfl
  · intro f fld hfld hbad hbefore
    rw [storeVec_misfit (FirstMisfit.rowVec_error ⟨hfld, hbad, hbefore⟩ _ _ _ _)]
    split <;> rfl

end Sys2Proof.Machine
end

section
/-! PROOF. The inverse layout (41_serializer.md R138): the parser undoes each level of the builder. -/

namespace Sys2Proof.Machine

/-! ## Reading one value back -/

theorem slice_succ (v w : Nat) : slice v (w + 1) = slice (v / 2) w ++ [bitAt v 0] := by
  have hhigh : (List.range w).map (fun i => bitAt v (w + 1 - 1 - i)) = slice (v / 2) w := by
    refine List.map_congr_left fun i hi => ?_
    have hidx : w + 1 - 1 - i = w - 1 - i + 1 := by
      have := List.mem_range.mp hi
      omega
    rw [hidx, bitAt, bitAt, Nat.testBit_succ]
  rw [slice, List.range_succ, List.map_append, hhigh]
  simp

theorem unslice_concat (s : List Bit) (b : Bit) : unslice (s ++ [b]) = 2 * unslice s + b.toNat := by
  simp [unslice]

theorem unslice_slice {v w : Nat} (h : v < 2 ^ w) : unslice (slice v w) = v := by
  induction w generalizing v with
  | zero =>
    obtain rfl : v = 0 := Nat.lt_one_iff.mp h
    rfl
  | succ w ih =>
    have hhalf : v / 2 < 2 ^ w := by omega
    rw [slice_succ, unslice_concat, ih hhalf, bitAt, Nat.toNat_testBit]
    omega

/-! ## What the builder was given where it answers a vector -/

section
variable {P : Params} {x : List Bit}

theorem fieldBits_eq_ok {group : String} {a : FieldAddr} {fld : RegisterField} :
    fieldBits P group a fld = .ok x ↔ fld.Fits ∧ x = fittingBits P group fld := by
  unfold fieldBits RegisterField.Fits
  split <;> simp_all [raiseAt, fittingBits, eq_comm]

theorem fieldsBits_cons_eq_ok {group : String} {c g f : Nat} {fld : RegisterField} {rest : List RegisterField} :
    fieldsBits P group c g f (fld :: rest) = .ok x ↔
      fld.Fits ∧ ∃ y, fieldsBits P group c g (f + 1) rest = .ok y ∧ fittingBits P group fld ++ y = x := by
  simp [fieldsBits, attempt_bind_eq_ok, fieldBits_eq_ok, and_assoc]

theorem groupsBits_cons_eq_ok {c g : Nat} {grp : RegisterGroup} {rest : List RegisterGroup} :
    groupsBits P c g (grp :: rest) = .ok x ↔
      ∃ y z, fieldsBits P grp.name c g 0 grp.fields = .ok y ∧ groupsBits P c (g + 1) rest = .ok z ∧ y ++ z = x := by
  simp [groupsBits, attempt_bind_eq_ok]

theorem chainVecFrom_cons_eq_ok {msb : Bool} {c : Nat} {chip : ChipConfig} {rest : Chain} :
    chainVecFrom P msb c (chip :: rest) = .ok x ↔
      ∃ y z, chainVecFrom P msb (c + 1) rest = .ok y ∧ groupsBits P c 0 chip.groups = .ok z ∧
        y ++ msbOrder msb z = x := by
  simp [chainVecFrom, chipVec, chipBits, attempt_bind_eq_ok]

end

/-! ## The parser -/

/-- What the parser is given of a field, of a group and of a chip (41_serializer.md R138): all but the values. -/
def RegisterField.erased (fld : RegisterField) : RegisterField := { fld with value := 0 }

def RegisterGroup.erased (grp : RegisterGroup) : RegisterGroup := { grp with fields := grp.fields.map .erased }

def ChipConfig.erased (chip : ChipConfig) : ChipConfig := { chip with groups := chip.groups.map .erased }

theorem eraseValues_eq_map (cfg : Chain) : eraseValues cfg = cfg.map .erased := rfl

theorem fieldsWidth_cons (fld : RegisterField) (rest : List RegisterField) :
    fieldsWidth (fld :: rest) = fld.width + fieldsWidth rest := rfl

theorem groupsWidth_cons (grp : RegisterGroup) (rest : List RegisterGroup) :
    groupsWidth (grp :: rest) = fieldsWidth grp.fields + groupsWidth rest := rfl

@[simp] theorem fieldsWidth_erased (fs : List RegisterField) : fieldsWidth (fs.map .erased) = fieldsWidth fs := by
  rw [fieldsWidth, List.map_map]; rfl

@[simp] theorem groupsWidth_erased (gs : List RegisterGroup) : groupsWidth (gs.map .erased) = groupsWidth gs := by
  simp [groupsWidth, RegisterGroup.erased, Function.comp_def]

@[simp] theorem fittingBits_length (P : Params) (group : String) (fld : RegisterField) :
    (fittingBits P group fld).length = fld.width := by
  simp [fittingBits]

/-- A field that fits is read back from its own bits. -/
theorem unslice_orient_fittingBits (P : Params) (group : String) {fld : RegisterField} (h : fld.Fits) :
    unslice (orient P group (fittingBits P group fld)) = fld.value := by
  rw [fittingBits, orient_orient, unslice_slice h]

section
variable {P : Params} {x : List Bit}

theorem fieldsBits_length {group : String} {c g f : Nat} {fs : List RegisterField}
    (h : fieldsBits P group c g f fs = .ok x) : x.length = fieldsWidth fs := by
  induction fs generalizing f x with
  | nil => cases h; rfl
  | cons fld rest ih =>
    obtain ⟨-, y, hy, rfl⟩ := fieldsBits_cons_eq_ok.mp h
    rw [List.length_append, fittingBits_length, ih hy, fieldsWidth_cons]

theorem groupsBits_length {c g : Nat} {gs : List RegisterGroup} (h : groupsBits P c g gs = .ok x) :
    x.length = groupsWidth gs := by
  induction gs generalizing g x with
  | nil => cases h; rfl
  | cons grp rest ih =>
    obtain ⟨y, z, hy, hz, rfl⟩ := groupsBits_cons_eq_ok.mp h
    rw [List.length_append, fieldsBits_length hy, ih hz, groupsWidth_cons]

theorem chainVecFrom_length {msb : Bool} {c : Nat} {cfg : Chain} (h : chainVecFrom P msb c cfg = .ok x) :
    x.length = (cfg.map fun chip => groupsWidth chip.groups).sum := by
  induction cfg generalizing c x with
  | nil => cases h; rfl
  | cons chip rest ih =>
    obtain ⟨y, z, hy, hz, rfl⟩ := chainVecFrom_cons_eq_ok.mp h
    rw [List.length_append, msbOrder_length, ih hy, groupsBits_length hz, List.map_cons, List.sum_cons, Nat.add_comm]

/-- The bits after a group's own do not disturb its fields. -/
theorem parseFields_fieldsBits {group : String} {c g f : Nat} {fs : List RegisterField}
    (h : fieldsBits P group c g f fs = .ok x) (tail : List Bit) :
    parseFields P group (fs.map .erased) (x ++ tail) = fs := by
  induction fs generalizing f x with
  | nil => rfl
  | cons fld rest ih =>
    obtain ⟨hfits, y, hy, rfl⟩ := fieldsBits_cons_eq_ok.mp h
    have hlen : (fittingBits P group fld).length = fld.erased.width := fittingBits_length ..
    rw [List.map_cons, parseFields, List.append_assoc, List.take_left' hlen, List.drop_left' hlen, ih hy,
      unslice_orient_fittingBits P group hfits]
    rfl

theorem parseGroups_groupsBits {c g : Nat} {gs : List RegisterGroup} (h : groupsBits P c g gs = .ok x) :
    parseGroups P (gs.map .erased) x = gs := by
  induction gs generalizing g x with
  | nil => rfl
  | cons grp rest ih =>
    obtain ⟨y, z, hy, hz, rfl⟩ := groupsBits_cons_eq_ok.mp h
    have hlen : fieldsWidth grp.erased.fields = y.length := by
      rw [RegisterGroup.erased, fieldsWidth_erased, fieldsBits_length hy]
    have hfields : parseFields P grp.erased.name grp.erased.fields (y ++ z) = grp.fields := parseFields_fieldsBits hy z
    rw [List.map_cons, parseGroups, hfields, hlen, List.drop_left, ih hz]
    rfl

theorem parseChain_chainVecFrom {msb : Bool} {c : Nat} {cfg : Chain} (h : chainVecFrom P msb c cfg = .ok x) :
    parseChain P msb (eraseValues cfg) x = cfg := by
  rw [eraseValues_eq_map]
  induction cfg generalizing c x with
  | nil => rfl
  | cons chip rest ih =>
    obtain ⟨y, z, hy, hz, rfl⟩ := chainVecFrom_cons_eq_ok.mp h
    have habove : ((rest.map ChipConfig.erased).map fun ch => groupsWidth ch.groups).sum = y.length := by
      simp [chainVecFrom_length hy, ChipConfig.erased, Function.comp_def]
    have hlen : groupsWidth chip.erased.groups = (msbOrder msb z).length := by
      rw [ChipConfig.erased, groupsWidth_erased, msbOrder_length, groupsBits_length hz]
    have hgroups : parseGroups P chip.erased.groups z = chip.groups := parseGroups_groupsBits hz
    simp only [List.map_cons, parseChain, habove]
    rw [List.drop_left, hlen, List.take_length, msbOrder_msbOrder, hgroups, List.take_left, ih hy]
    rfl

end

/-- Settles O29, level by level: fields, groups, chips. -/
theorem parseRecoversEveryValue : Obligations.ParseRecoversEveryValue :=
  fun _ _ _ _ h => ⟨parseChain_chainVecFrom h, chainVecFrom_length h⟩

end Sys2Proof.Machine
end

section
/-! PROOF. The waveforms and the addressed frame (42_framing.md R160 to R168): their lengths, and what SR_PATTERN,
SR_RB_PATTERN and ADDR_FRAME answer. -/

namespace Sys2Proof.Machine

/-! ## Lengths -/

@[simp] theorem rep_length {α : Type} (s : List α) (k : Nat) : (rep s k).length = s.length * k := by
  simp [rep]

theorem flatMap_wave_length (P : Params) (bits : List Bit) : (bits.flatMap (wave P)).length = 5 * bits.length := by
  simp [wave, Nat.mul_comm]

theorem flatMap_waveRb_length (P : Params) (bits : List Bit) : (bits.flatMap (waveRb P)).length = 5 * bits.length := by
  simp [waveRb, wave, Nat.mul_comm]

theorem strobe_length (P : Params) (k : Nat) : (strobe P k).length = 3 * k * P.nLoad := by
  simp [strobe, Nat.mul_assoc]

theorem genPattern_length (P : Params) (k : Nat) (bits : List Bit) (load : Bool) :
    (genPattern P k bits load).length = 5 * bits.length * k + extraWrite P k load := by
  rw [genPattern, List.length_append, dataPart, rep_length, flatMap_wave_length, extraWrite]
  cases load with
  | false => rfl
  | true => simp [strobe_length]

theorem genRb_length (P : Params) (k : Nat) (bits : List Bit) :
    (genRb P k bits).length = extraRb P + 5 * bits.length * k := by
  rw [genRb, List.length_append, rep_length, flatMap_waveRb_length, extraRb]

/-- Settles O36: five bytes a bit, stretched, and the strobe or the preamble. -/
theorem patternLengths : Obligations.PatternLengths :=
  fun P k bits load => ⟨genPattern_length P k bits load, genRb_length P k bits⟩

/-! ## The addressed frame -/

/-- A length of 16 bits is its high byte and its low byte (42_framing.md R168). -/
theorem lengthBytes_toNat {n : Nat} (h : n ≤ 65535) :
    (BitVec.ofNat 8 (n >>> 8)).toNat * 256 + (BitVec.ofNat 8 (n &&& 0xFF)).toNat = n := by
  have hlo : n &&& 0xFF = n % 256 := Nat.and_two_pow_sub_one_eq_mod n 8
  simp only [BitVec.toNat_ofNat, hlo, Nat.shiftRight_eq_div_pow]
  omega

theorem exists_frame_eq (opc addr : Byte) {p : List Byte} (h : p.length ≤ 65535) :
    ∃ hi lo : Byte, frame opc addr p = opc :: addr :: hi :: lo :: p ∧ hi.toNat * 256 + lo.toNat = p.length :=
  ⟨_, _, rfl, lengthBytes_toNat h⟩

/-- ADDR_FRAME of a byte string: its frame, or OutOfRange where the length does not fit 16 bits. -/
theorem execAddrFrame_of_bytes {s : State} {p : List Byte} (hdin : s.din = .bytes p) (fopc faddr : BitVec 8) :
    execAddrFrame fopc faddr s = .next (if p.length ≤ 65535 then s.complete (.bytes (frame fopc faddr p))
      else s.failed .outOfRange) := by
  have hmax : params.maxFrameLen = 65535 := rfl
  rw [execAddrFrame, needBytes_eq_ok.mpr hdin, attempt_bind_ok, hmax]
  split
  · rw [finish_ok]
  · rw [raise, finish_error, takeError_plain s (by decide)]

/-- Settles O37, by the two cases of the length. -/
theorem addrFrameRespondsTheFrame : Obligations.AddrFrameRespondsTheFrame := by
  intro s fopc faddr p hdin
  have hexec : exec (.addrFrame fopc faddr) s = execAddrFrame fopc faddr s := rfl
  rw [hexec, execAddrFrame_of_bytes hdin]
  refine ⟨fun hlen => ?_, fun hlen => by rw [if_neg (by omega)]⟩
  obtain ⟨hi, lo, hframe, hbytes⟩ := exists_frame_eq fopc faddr hlen
  exact ⟨hi, lo, hbytes, by rw [if_pos hlen, hframe, State.complete]⟩

/-! ## SR_PATTERN and SR_RB_PATTERN -/

/-- SRC = 1 with VEC = ⊥ (42_framing.md R170, R171, R176). -/
theorem needSource_of_vec_none {s : State} (hdin : s.din = .none) (hvec : s.vec = none) :
    needSource s true = .error uninit := by
  simp [needSource, needNone_of_none hdin, hvec]

/-- The common shape of the two commands: `gen` of CLKDIV and the bits is the response (42_framing.md R170, R171). -/
def answerPattern (gen : Nat → List Bit → List Byte) (src : Bool) (s : State) : Host.Outcome State Fault Refusal :=
  finish s do
    let bits ← needSource s src
    let k ← need s.clkdiv
    .ok (s, .bytes (gen k.toNat bits))

theorem exec_srPattern_eq_answerPattern (src load : Bool) (s : State) :
    exec (.srPattern src load) s = answerPattern (fun k bits => genPattern params k bits load) src s := rfl

theorem exec_srRbPattern_eq_answerPattern (src : Bool) (s : State) :
    exec (.srRbPattern src) s = answerPattern (genRb params) src s := rfl

section
variable {gen : Nat → List Bit → List Byte} {src : Bool} {s : State} {bits : List Bit}

theorem answerPattern_of_vec_none (hsrc : src = true) (hdin : s.din = .none) (hvec : s.vec = none) :
    answerPattern gen src s = .next (s.failed .configNotInitialized) := by
  rw [answerPattern, hsrc, needSource_of_vec_none hdin hvec, attempt_bind_error, finish_error,
    takeError_plain s (by decide)]

theorem answerPattern_of_unwritten (hbits : SourceIs s src bits) (hk : s.clkdiv = none) :
    answerPattern gen src s = .next (s.failed .configNotInitialized) := by
  rw [answerPattern, needSource_eq_ok.mpr hbits, attempt_bind_ok, finish_need_none hk]

theorem answerPattern_of_clkdiv (hbits : SourceIs s src bits) {k : Half} (hk : s.clkdiv = some k) :
    answerPattern gen src s = .next (s.complete (.bytes (gen k.toNat bits))) := by
  rw [answerPattern, needSource_eq_ok.mpr hbits, attempt_bind_ok, hk, need_some, attempt_bind_ok, finish_ok]

end

/-- The strobe, its three steps written out (42_framing.md R163). -/
theorem strobe_eq_append (P : Params) (k : Nat) : strobe P k = List.replicate (k * P.nLoad) 0x00#8 ++
    List.replicate (k * P.nLoad) P.pinLd ++ List.replicate (k * P.nLoad) 0x00#8 := by
  simp [strobe, rep]

/-- Settles O34: the model's waveform unfolds to the one written out, the strobe by `strobe_eq_append`. -/
theorem srPatternRespondsTheWaveform : Obligations.SrPatternRespondsTheWaveform := by
  intro s src load
  rw [exec_srPattern_eq_answerPattern]
  refine ⟨answerPattern_of_vec_none, fun bits hbits => ⟨answerPattern_of_unwritten hbits, fun k hk => ?_⟩⟩
  rw [answerPattern_of_clkdiv hbits hk, genPattern, strobe_eq_append]
  rfl

/-- Settles O35: the model's waveform unfolds to the one written out. -/
theorem srRbPatternRespondsTheReadbackWaveform : Obligations.SrRbPatternRespondsTheReadbackWaveform := by
  intro s src
  rw [exec_srRbPattern_eq_answerPattern]
  exact ⟨answerPattern_of_vec_none, fun bits hbits =>
    ⟨answerPattern_of_unwritten hbits, fun k hk => answerPattern_of_clkdiv hbits hk⟩⟩

end Sys2Proof.Machine
end

section
/-! PROOF. Chunks, payloads and frame lengths of a framed write (42_framing.md R169, R173 to R175, R177). -/

namespace Sys2Proof.Machine

/-! ## Chunks -/

theorem cutChunks_ne_nil (size fuel : Nat) (bits : List Bit) : cutChunks size fuel bits ≠ [] := by
  cases fuel with
  | zero => simp [cutChunks]
  | succ fuel => rw [cutChunks]; split <;> simp

theorem cutChunks_flatten (size fuel : Nat) (bits : List Bit) : (cutChunks size fuel bits).flatten = bits := by
  induction fuel generalizing bits with
  | zero => simp [cutChunks]
  | succ fuel ih =>
    rw [cutChunks]
    split
    · simp
    · rw [List.flatten_cons, ih, List.take_append_drop]

theorem length_of_mem_dropLast_cutChunks {size fuel : Nat} {bits c : List Bit}
    (h : c ∈ (cutChunks size fuel bits).dropLast) : c.length = size := by
  induction fuel generalizing bits with
  | zero => simp [cutChunks] at h
  | succ fuel ih =>
    rw [cutChunks] at h
    split at h
    · simp at h
    · next hlt =>
      rw [List.dropLast_cons_of_ne_nil (cutChunks_ne_nil size fuel _), List.mem_cons] at h
      rcases h with rfl | h
      · exact List.length_take_of_le (by omega)
      · exact ih h

/-- With fuel for every cut, the last chunk is no longer than the others, and empty for the empty vector only. -/
theorem getLast?_cutChunks {size fuel : Nat} {bits : List Bit} (hsize : 1 ≤ size) (hfuel : bits.length ≤ fuel) :
    ∃ last, (cutChunks size fuel bits).getLast? = some last ∧ last.length ≤ size ∧ (last = [] ↔ bits = []) := by
  induction fuel generalizing bits with
  | zero =>
    obtain rfl : bits = [] := List.length_eq_zero_iff.mp (by omega)
    exact ⟨[], by simp [cutChunks]⟩
  | succ fuel ih =>
    rw [cutChunks]
    split
    · next hle => exact ⟨bits, rfl, hle, .rfl⟩
    · next hlt =>
      obtain ⟨last, hlast, hle, hnil⟩ := ih (bits := bits.drop size) (by rw [List.length_drop]; omega)
      have hbits : bits ≠ [] := by rintro rfl; simp at hlt
      refine ⟨last, by simp [List.getLast?_cons, hlast], hle, ?_⟩
      rw [hnil, List.drop_eq_nil_iff]
      exact ⟨fun h => absurd h hlt, fun h => absurd h hbits⟩

theorem length_le_of_mem_chunks {K : Nat} {bits c : List Bit} (hK : 1 ≤ K) (h : c ∈ chunks K bits) : c.length ≤ K := by
  obtain ⟨last, hlast, hle, -⟩ := getLast?_cutChunks hK (Nat.le_refl bits.length)
  rw [chunks, ← List.dropLast_append_getLast? last hlast, List.mem_append, List.mem_singleton] at h
  rcases h with h | rfl
  · exact (length_of_mem_dropLast_cutChunks h).le
  · exact hle

/-- Settles O43: the facts about `cutChunks`, with the fuel `chunks` gives it. -/
theorem chunksPartitionTheVector : Obligations.ChunksPartitionTheVector :=
  fun K bits => ⟨rfl, fun hK => ⟨cutChunks_flatten K bits.length bits, fun _ => length_of_mem_dropLast_cutChunks,
    getLast?_cutChunks hK le_rfl⟩⟩

/-! ## Payloads -/

/-- The payloads of a chunk list with its last chunk set apart (42_framing.md R175). -/
theorem writePayloads_concat (P : Params) (k : Nat) (load : Bool) (cs : List (List Bit)) (last : List Bit) :
    writePayloads P k load (cs ++ [last]) = (cs.map fun c => genPattern P k c false) ++ [genPattern P k last load] := by
  induction cs with
  | nil => rfl
  | cons c cs ih =>
    have hcons : writePayloads P k load (c :: (cs ++ [last])) =
        genPattern P k c false :: writePayloads P k load (cs ++ [last]) := by cases cs <;> rfl
    rw [List.cons_append, hcons, ih, List.map_cons, List.cons_append]

/-- Settles O45: the last chunk set apart from those before it. -/
theorem strobeRidesInTheLastChunk : Obligations.StrobeRidesInTheLastChunk := by
  intro P k load cs j c hc
  obtain ⟨hj, -⟩ := List.getElem?_eq_some_iff.mp hc
  obtain rfl | ⟨init, last, rfl⟩ := List.eq_nil_or_concat' cs
  · simp at hj
  rw [List.length_append, List.length_singleton] at hj
  rw [writePayloads_concat]
  refine ⟨by simp, ?_⟩
  by_cases hlast : j = init.length
  · subst hlast
    obtain rfl : last = c := by simpa using hc
    simp
  · have hinit : j < init.length := by omega
    rw [List.getElem?_append_left hinit] at hc
    rw [List.getElem?_append_left (by simpa using hinit), List.getElem?_map, hc]
    simp [hlast]

theorem exists_chunk_of_mem_writePayloads {P : Params} {k : Nat} {load : Bool} {cs : List (List Bit)} {p : List Byte}
    (h : p ∈ writePayloads P k load cs) : ∃ c ∈ cs, p = genPattern P k c load ∨ p = genPattern P k c false := by
  obtain rfl | ⟨init, last, rfl⟩ := List.eq_nil_or_concat' cs
  · simp [writePayloads] at h
  rw [writePayloads_concat, List.mem_append, List.mem_map, List.mem_singleton] at h
  rcases h with ⟨c, hc, rfl⟩ | rfl
  · exact ⟨c, List.mem_append_left _ hc, .inr rfl⟩
  · exact ⟨last, by simp, .inl rfl⟩

/-! ## Frame lengths -/

theorem writeImpossible_eq_true {P : Params} {k extra : Nat} {bits : List Bit} :
    writeImpossible P k extra bits = true ↔ P.maxFrameLen < extra ∨ (bits ≠ [] ∧ chunkSize P k extra = 0) := by
  simp [writeImpossible, and_comm]

/-- In a possible write every chunk has room beside the strobe or the preamble (42_framing.md R173). -/
theorem chunk_fits {P : Params} {k extra : Nat} {bits c : List Bit} (h : writeImpossible P k extra bits = false)
    (hc : c ∈ chunks (chunkSize P k extra) bits) : 5 * c.length * k + extra ≤ P.maxFrameLen := by
  obtain ⟨hextra, hroom⟩ := not_or.mp (mt writeImpossible_eq_true.mpr (Bool.eq_false_iff.mp h))
  rcases eq_or_ne bits [] with rfl | hbits
  · obtain rfl : c = [] := by simpa [chunks, cutChunks] using hc
    simpa using hextra
  · have hK : chunkSize P k extra ≠ 0 := fun h0 => hroom ⟨hbits, h0⟩
    have hdata : 5 * c.length * k ≤ P.maxFrameLen - extra := calc
      5 * c.length * k = c.length * (5 * k) := by ring
      _ ≤ chunkSize P k extra * (5 * k) := Nat.mul_le_mul_right _ (length_le_of_mem_chunks (by omega) hc)
      _ ≤ P.maxFrameLen - extra := Nat.div_mul_le_self ..
    omega

/-- Settles O44: each payload is as long as `chunk_fits` allows, and a frame carries its payload's length. -/
theorem framesStayWithinTheLimit : Obligations.FramesStayWithinTheLimit := by
  intro P k opc addr bits hmax fits
  have hfits {p : List Byte} (hp : p.length ≤ P.maxFrameLen) : fits (frame opc addr p) := by
    obtain ⟨hi, lo, hframe, hlen⟩ := exists_frame_eq opc addr (hp.trans hmax)
    exact ⟨hi, lo, p, hframe, hlen, hp⟩
  constructor
  · intro load hpossible f hf
    obtain ⟨p, hp, rfl⟩ := List.mem_map.mp hf
    obtain ⟨c, hc, hgen⟩ := exists_chunk_of_mem_writePayloads hp
    have hchunk := chunk_fits hpossible hc
    refine hfits ?_
    rcases hgen with rfl | rfl
    · rwa [genPattern_length]
    · have hnoStrobe : extraWrite P k false = 0 := rfl
      rw [genPattern_length, hnoStrobe]
      omega
  · intro hpossible f hf
    obtain ⟨p, hp, rfl⟩ := List.mem_map.mp hf
    obtain ⟨c, hc, rfl⟩ := List.mem_map.mp hp
    have hchunk := chunk_fits hpossible hc
    exact hfits (by rw [genRb_length]; omega)

end Sys2Proof.Machine
end

section
/-! PROOF. SR_WRITE and SR_RB_WRITE (42_framing.md R173 to R178): one rule for what both check before they send, and
what the transport's answers make of the frames. -/

namespace Sys2Proof.Machine

/-! ## Sending the frames -/

section
variable {s : State} {frames : List (List Byte)} {rest : List WriteAnswer}

theorem transmit_of_ok (h : s.writeAnswers = List.replicate frames.length .ok ++ rest) :
    transmit frames s = .next
      { s with txlog := s.txlog ++ frames, writeAnswers := rest, cause := .none, resp := .value frames.length } := by
  have hsent : sendFrames frames s = .all { s with txlog := s.txlog ++ frames, writeAnswers := rest } := by
    simpa [sendFrames] using sendFrames_ok_run frames [] s rest h
  rw [transmit, hsent]
  rfl

/-- The frames before the one the transport fails are sent, and no frame after it (42_framing.md R178). -/
theorem transmit_of_fail {j : Nat} (hj : j < frames.length)
    (h : s.writeAnswers = List.replicate j .ok ++ .fail :: rest) :
    transmit frames s = .next { s with
      txlog := s.txlog ++ frames.take j
      writeAnswers := rest
      cause := .transportError
      resp := .nothing } := by
  have htake : (frames.take j).length = j := List.length_take_of_le hj.le
  have hsent : sendFrames frames s = .failed { s with txlog := s.txlog ++ frames.take j, writeAnswers := rest } := by
    have hrun := sendFrames_ok_run (frames.take j) (frames.drop j) s (.fail :: rest) (by rw [htake, h])
    rw [List.take_append_drop, List.drop_eq_getElem_cons hj] at hrun
    rw [hrun, sendFrames, drawWrite_scheduled rfl]
  rw [transmit, hsent]
  exact congrArg Host.Outcome.next (takeError_plain _ (by decide))

end

/-! ## What is checked first -/

theorem needWriteRegs_of_written {s : State} {k opc addr : Half} (hk : s.clkdiv = some k)
    (hopc : s.frameOpc = some opc) (haddr : s.srAddr = some addr) : needWriteRegs s = .ok (k.toNat, opc.setWidth 8, addr.setWidth 8) := by
  simp [needWriteRegs, hk, hopc, haddr]

theorem needWriteRegs_of_unwritten {s : State} (h : s.clkdiv = none ∨ s.frameOpc = none ∨ s.srAddr = none) :
    needWriteRegs s = .error uninit := by
  cases hregs : needWriteRegs s with
  | error e => rw [needWriteRegs_error hregs]
  | ok regs =>
    simp only [needWriteRegs, attempt_bind_eq_ok, need_eq_ok] at hregs
    obtain ⟨k, hk, opc, hopc, addr, haddr, -⟩ := hregs
    simp [hk, hopc, haddr] at h

/-- The common shape of SR_WRITE and SR_RB_WRITE (42_framing.md R176, R177): of CLKDIV, `extra` is the bytes a frame
holds beside its data, and `frames` cuts and frames the bits. -/
def framedWrite (extra : Nat → Nat) (frames : Nat → Byte → Byte → List Bit → List (List Byte)) (src : Bool)
    (s : State) : Host.Outcome State Fault Refusal :=
  let plan : Attempt (List (List Byte)) := do
    let bits ← needSource s src
    let (k, opc, addr) ← needWriteRegs s
    if writeImpossible params k (extra k) bits then raise .outOfRange else .ok (frames k opc addr bits)
  match plan with
  | .error e => .next (s.takeError e)
  | .ok fs => transmit fs s

theorem exec_srWrite_eq_framedWrite (src load : Bool) (s : State) : exec (.srWrite src load) s =
    framedWrite (extraWrite params · load) (fun k opc addr bits => writeFrames params k opc addr bits load) src s := rfl

theorem exec_srRbWrite_eq_framedWrite (src : Bool) (s : State) :
    exec (.srRbWrite src) s = framedWrite (fun _ => extraRb params) (rbFrames params) src s := rfl

section
variable {extra : Nat → Nat} {frames : Nat → Byte → Byte → List Bit → List (List Byte)} {src : Bool} {s : State}
  {bits : List Bit}

theorem framedWrite_of_vec_none (hdin : s.din = .none) (hvec : s.vec = none) :
    framedWrite extra frames true s = .next (s.failed .configNotInitialized) := by
  simp [framedWrite, needSource_of_vec_none hdin hvec, takeError_plain]

theorem framedWrite_of_unwritten (hbits : SourceIs s src bits)
    (h : s.clkdiv = none ∨ s.frameOpc = none ∨ s.srAddr = none) :
    framedWrite extra frames src s = .next (s.failed .configNotInitialized) := by
  simp [framedWrite, needSource_eq_ok.mpr hbits, needWriteRegs_of_unwritten h, takeError_plain]

/-- With the source and the registers there, a write that is impossible is OutOfRange and any other is sent. -/
theorem framedWrite_of_written (hbits : SourceIs s src bits) {k opc addr : Half} (hk : s.clkdiv = some k)
    (hopc : s.frameOpc = some opc) (haddr : s.srAddr = some addr) :
    framedWrite extra frames src s =
      if 65535 < extra k.toNat ∨ (bits ≠ [] ∧ (65535 - extra k.toNat) / (5 * k.toNat) = 0)
      then .next (s.failed .outOfRange)
      else transmit (frames k.toNat (opc.setWidth 8) (addr.setWidth 8) bits) s := by
  have himpossible : writeImpossible params k.toNat (extra k.toNat) bits = true ↔
      65535 < extra k.toNat ∨ (bits ≠ [] ∧ (65535 - extra k.toNat) / (5 * k.toNat) = 0) := writeImpossible_eq_true
  simp only [framedWrite, needSource_eq_ok.mpr hbits, needWriteRegs_of_written hk hopc haddr, attempt_bind_ok,
    ← himpossible]
  cases writeImpossible params k.toNat (extra k.toNat) bits with
  | true => exact congrArg Host.Outcome.next (takeError_plain s (by decide))
  | false => rfl

end

/-- The strobe's bytes with the machine's N_LOAD (42_framing.md R173). -/
theorem extraWrite_params (k : Nat) (load : Bool) : extraWrite params k load = if load then 30 * k else 0 := by
  have hload : params.nLoad = 10 := rfl
  rw [extraWrite, hload, Nat.mul_right_comm]

/-! ## The obligations -/

/-- Settles O38: the write is not impossible, and the transport takes every frame. -/
theorem srWriteSendsEveryFrame : Obligations.SrWriteSendsEveryFrame := by
  rintro s src load bits k opc addr frames rest hbits hk hopc haddr hextra hroom rfl hanswers
  rw [exec_srWrite_eq_framedWrite, framedWrite_of_written hbits hk hopc haddr, if_neg, writeFrames, chunkSize]
  · simp only [extraWrite_params]
    exact transmit_of_ok hanswers
  · rw [extraWrite_params]
    rintro (hlong | ⟨hne, hzero⟩)
    · exact absurd hextra (by omega)
    · exact absurd (hroom.resolve_left hne) (by omega)

/-- Settles O39: where the write is not impossible, the transport takes every frame. -/
theorem srRbWriteSendsEveryFrame : Obligations.SrRbWriteSendsEveryFrame := by
  rintro s src bits k opc addr frames rest hbits hk hopc haddr rfl hanswers
  rw [exec_srRbWrite_eq_framedWrite, framedWrite_of_written hbits hk hopc haddr, rbFrames, List.map_map,
    apply_ite Host.Outcome.next]
  exact congrArg (ite _ _) (transmit_of_ok hanswers)

/-- Settles O40: the three ends of `framedWrite` before it sends. -/
theorem writesCheckBeforeSending : Obligations.WritesCheckBeforeSending := by
  intro s load
  simp only [exec_srWrite_eq_framedWrite, exec_srRbWrite_eq_framedWrite]
  refine ⟨fun hdin hvec => ⟨framedWrite_of_vec_none hdin hvec, framedWrite_of_vec_none hdin hvec⟩, fun src bits hbits =>
    ⟨fun h => ⟨framedWrite_of_unwritten hbits h, framedWrite_of_unwritten hbits h⟩, fun k opc addr hk hopc haddr => ?_⟩⟩
  simp only [framedWrite_of_written hbits hk hopc haddr, extraWrite_params]
  exact ⟨fun h => if_pos h, fun h => if_pos h⟩

/-- A planned write runs its transport calls. -/
theorem exec_of_planned {i : Instr} {s : State} {src load : Bool} {frames : List (List Byte)}
    (h : (i = .srWrite src load ∧ planWrite src load s = .ok frames) ∨
      (i = .srRbWrite src ∧ planRbWrite src s = .ok frames)) : exec i s = transmit frames s := by
  rcases h with ⟨rfl, hplan⟩ | ⟨rfl, hplan⟩
  · simp only [exec, execSrWrite, hplan]
  · simp only [exec, execSrRbWrite, hplan]

/-- Settles O41: the run of `transmit` up to the frame that fails. -/
theorem failedWriteKeepsTheFramesSent : Obligations.FailedWriteKeepsTheFramesSent :=
  fun _ _ _ _ _ _ _ hplan hj hanswers => (exec_of_planned hplan).trans (transmit_of_fail hj hanswers)

end Sys2Proof.Machine
end

section
/-! PROOF. The pre-filter (43_locator.md section 2): the segments against the pieces between marker bytes, and how
PREFILTER ends. -/

namespace Sys2Proof.Machine

/-! ## Segments -/

theorem splitRuns_cons_of_mem {markers : List Byte} {y : Byte} (hy : y ∈ markers) (ys : List Byte) :
    splitRuns markers (y :: ys) = ([], segments markers ys) := if_pos hy

theorem splitRuns_cons_of_not_mem {markers : List Byte} {y : Byte} (hy : y ∉ markers) (ys : List Byte) :
    splitRuns markers (y :: ys) = (y :: (splitRuns markers ys).1, (splitRuns markers ys).2) := if_neg hy

/-- Closing a run drops it where it is empty, as a filter for the non-empty pieces does. -/
theorem closeRun_filter (run : List Byte) (pieces : List (List Byte)) :
    closeRun (run, pieces.filter fun seg => !seg.isEmpty) = (run :: pieces).filter fun seg => !seg.isEmpty := by
  cases run <;> rfl

/-- The first of the pieces between marker bytes is the run at the front; the non-empty ones of the others are the
segments after it (43_locator.md R204). -/
theorem splitOnP_eq_cons_splitRuns (markers x : List Byte) :
    ∃ pieces, (x.splitOnP fun y => decide (y ∈ markers)) = (splitRuns markers x).1 :: pieces ∧
      (splitRuns markers x).2 = pieces.filter fun seg => !seg.isEmpty := by
  induction x with
  | nil => exact ⟨[], List.splitOnP_nil, rfl⟩
  | cons y ys ih =>
    obtain ⟨pieces, hpieces, hsegs⟩ := ih
    rw [List.splitOnP_cons_eq_if_modifyHead, hpieces]
    by_cases hy : y ∈ markers
    · rw [if_pos (decide_eq_true hy), splitRuns_cons_of_mem hy]
      refine ⟨(splitRuns markers ys).1 :: pieces, rfl, ?_⟩
      rw [← closeRun_filter, ← hsegs]
      rfl
    · rw [if_neg (by simpa using hy), splitRuns_cons_of_not_mem hy]
      exact ⟨pieces, rfl, hsegs⟩

/-- Settles O49: the front run and the segments after it, put together by `closeRun`. -/
theorem segmentsAreTheMaximalRuns : Obligations.SegmentsAreTheMaximalRuns := by
  intro markers x
  obtain ⟨pieces, hpieces, hsegs⟩ := splitOnP_eq_cons_splitRuns markers x
  calc segments markers x
      = closeRun ((splitRuns markers x).1, pieces.filter fun seg => !seg.isEmpty) := by rw [segments, ← hsegs]
    _ = ((splitRuns markers x).1 :: pieces).filter fun seg => !seg.isEmpty := closeRun_filter ..
    _ = _ := by rw [hpieces]

/-! ## PREFILTER -/

/-- The pre-filter keeps the bytes that are no markers, where every segment begins with the start marker
(43_locator.md R205, R206). -/
theorem prefilter_eq (P : Params) (x : List Byte) :
    prefilter P x = if ∀ seg ∈ segments P.markers x, seg.head? = some P.startMarker
      then some (x.filter fun y => decide (y ∉ P.markers)) else none := by
  simp only [prefilter, segments_flatten, List.all_eq_true, beq_iff_eq]

/-- Settles O48: the two outcomes of the pre-filter. -/
theorem prefilterRespondsOrCountsAFault : Obligations.PrefilterRespondsOrCountsAFault := by
  intro s x hdin
  have hexec : exec .prefilter s = execPrefilter s := rfl
  rw [hexec, execPrefilter, needBytes_eq_ok.mpr hdin, attempt_bind_ok, prefilter_eq, ← faultCntSucc_eq]
  split_ifs
  · exact finish_ok ..
  · exact congrArg Host.Outcome.next (takeError_decodeFault s)

end Sys2Proof.Machine
end

section
/-! PROOF. The header set and the scanner (43_locator.md sections 1 and 3): distinct header bytes, the scan loop without
its fuel, the state machine against the loop, and how HDR_INIT and SCAN end. -/

namespace Sys2Proof.Machine

/-! ## The header set -/

/-- A header byte as a number: the chip in bits 7:3, the frame length less one below it (43_locator.md R200). -/
theorem toNat_headerByte {i b : Nat} (hi : i < 32) (hb : b - 1 < 8) : (headerByte i b).toNat = 8 * i + (b - 1) := by
  rw [headerByte, ← Nat.shiftLeft_add_eq_or_of_lt (i := 3) hb, BitVec.toNat_ofNat, Nat.shiftLeft_eq]
  omega

theorem headerByte_inj {i j b : Nat} (hi : i < 32) (hj : j < 32) (hb : b - 1 < 8)
    (h : headerByte i b = headerByte j b) : i = j := by
  have hnat := congrArg BitVec.toNat h
  rw [toNat_headerByte hi hb, toNat_headerByte hj hb] at hnat
  omega

/-- The header set is the header bytes, all of them reversed or none. -/
theorem headerSet_eq_map (n b : Nat) (rev : Bool) :
    headerSet n b rev = ((List.range n).map fun i => headerByte i b).map (if rev then bitrev8 else id) := by
  cases rev <;> simp [headerSet]

/-- Settles O47: header bytes of different chips differ, and bit reversal is injective. -/
theorem headerSetIsDistinct : Obligations.HeaderSetIsDistinct := by
  intro n b rev hn hb
  have hbytes : ((List.range n).map fun i => headerByte i b).Nodup := by
    refine List.Nodup.map_on (fun i hi j hj => ?_) List.nodup_range
    rw [List.mem_range] at hi hj
    exact headerByte_inj (by omega) (by omega) (by omega)
  have horient : Function.Injective (if rev then bitrev8 else id) := by
    cases rev
    · exact Function.injective_id
    · exact bitrev8_involutive.injective
  rw [headerSet_eq_map]
  exact ⟨by simp, hbytes.map horient⟩

/-! ## The scan loop -/

section
variable {hdrs : List Byte} {b : Nat} {rev : Bool}

theorem scanFrames_nil : scanFrames hdrs b rev [] = [] := rfl

/-- One position of the scan: the fuel that is left is enough for what is left of the readout. -/
theorem scanFrames_cons (hb : 1 ≤ b) (y : Byte) (ys : List Byte) : scanFrames hdrs b rev (y :: ys) =
    if y ∈ hdrs then
      if b ≤ (y :: ys).length then
        orientFrame rev ((y :: ys).take b) :: scanFrames hdrs b rev ((y :: ys).drop b)
      else []
    else scanFrames hdrs b rev ys := by
  have hfuel : scanLoop hdrs b rev ys.length ((y :: ys).drop b) = scanFrames hdrs b rev ((y :: ys).drop b) :=
    scanLoop_fuel hdrs b rev hb _ _ _ (by rw [List.length_drop, List.length_cons]; omega) le_rfl
  rw [← hfuel]
  rfl

/-- Each frame takes `b` bytes of the readout. -/
theorem length_scanLoop_mul_le (fuel : Nat) (x : List Byte) : (scanLoop hdrs b rev fuel x).length * b ≤ x.length := by
  induction fuel generalizing x with
  | zero => simp [scanLoop]
  | succ fuel ih =>
    cases x with
    | nil => simp [scanLoop]
    | cons y ys =>
      rw [scanLoop]
      split_ifs with hmem hlen
      · have hrest := ih ((y :: ys).drop b)
        rw [List.length_drop] at hrest
        rw [List.length_cons, Nat.succ_mul]
        omega
      · simp
      · exact (ih ys).trans (Nat.le_succ _)

/-! ## The state machine -/

theorem scanMachine_seek_cons (y : Byte) (ys : List Byte) : scanMachine hdrs b rev .seek (y :: ys) =
    if y ∈ hdrs then scanMachine hdrs b rev (.capture [y]) ys else scanMachine hdrs b rev .seek ys := by
  rw [scanMachine, scanByte]
  split_ifs <;> rfl

theorem scanMachine_capture_cons_of_lt {buf : List Byte} (h : buf.length + 1 < b) (y : Byte) (ys : List Byte) :
    scanMachine hdrs b rev (.capture buf) (y :: ys) = scanMachine hdrs b rev (.capture (buf ++ [y])) ys := by
  rw [scanMachine, scanByte, if_pos h, List.nil_append]

theorem scanMachine_capture_cons_of_not_lt {buf : List Byte} (h : ¬ buf.length + 1 < b) (y : Byte) (ys : List Byte) :
    scanMachine hdrs b rev (.capture buf) (y :: ys) =
      orientFrame rev (buf ++ [y]) :: scanMachine hdrs b rev .seek ys := by
  rw [scanMachine, scanByte, if_neg h, List.singleton_append]

/-- From CAPTURE the machine fills its frame and seeks after it, or comes to the end of the input with the frame
unfinished (43_locator.md R214). -/
theorem scanMachine_capture (buf x : List Byte) (hbuf : buf.length < b) : scanMachine hdrs b rev (.capture buf) x =
    if b ≤ (buf ++ x).length then
      orientFrame rev ((buf ++ x).take b) :: scanMachine hdrs b rev .seek ((buf ++ x).drop b)
    else [] := by
  induction x generalizing buf with
  | nil => rw [List.append_nil, if_neg (by omega), scanMachine]
  | cons y ys ih =>
    have hlen : (buf ++ [y]).length = buf.length + 1 := by simp
    rw [List.append_cons]
    by_cases hmore : buf.length + 1 < b
    · rw [scanMachine_capture_cons_of_lt hmore, ih (buf ++ [y]) (by omega)]
    · have hlast : (buf ++ [y]).length = b := by omega
      have hfull : b ≤ (buf ++ [y] ++ ys).length := by rw [List.length_append]; omega
      rw [scanMachine_capture_cons_of_not_lt hmore, if_pos hfull, List.take_left' hlast, List.drop_left' hlast]

/-- The machine in SEEK outputs the frames of the loop. -/
theorem scanMachine_seek_eq_scanLoop (hb : 2 ≤ b) (fuel : Nat) (x : List Byte) (hfuel : x.length ≤ fuel) :
    scanMachine hdrs b rev .seek x = scanLoop hdrs b rev fuel x := by
  induction fuel generalizing x with
  | zero =>
    obtain rfl : x = [] := List.length_eq_zero_iff.mp (by omega)
    rfl
  | succ fuel ih =>
    cases x with
    | nil => rfl
    | cons y ys =>
      rw [List.length_cons] at hfuel
      have hdrop : ((y :: ys).drop b).length ≤ fuel := by rw [List.length_drop, List.length_cons]; omega
      rw [scanMachine_seek_cons, scanMachine_capture [y] ys hb, List.singleton_append, scanLoop, ih _ hdrop,
        ih ys (by omega)]

end

/-- Settles O51, by the equations of `scanFrames`. -/
theorem scanFollowsTheLoop : Obligations.ScanFollowsTheLoop :=
  fun _ _ _ hb => ⟨scanFrames_nil, fun y ys => scanFrames_cons hb y ys⟩

/-- Settles O52: the machine and the loop agree, and frames do not overlap. -/
theorem scannerMachineAgreesWithScan : Obligations.ScannerMachineAgreesWithScan :=
  fun _ _ _ x hb => ⟨scanMachine_seek_eq_scanLoop hb x.length x le_rfl,
    (Nat.le_div_iff_mul_le (by omega)).mpr (length_scanLoop_mul_le x.length x)⟩

/-! ## HDR_INIT and SCAN -/

section
variable {s : State}

theorem execHdrInit_of_written (hdin : s.din = .none) {n b : Half} (hn : s.chipCount = some n)
    (hb : s.frameLen = some b) :
    execHdrInit s = .next (State.complete { s with hdrset := some (headerSet n.toNat b.toNat s.wireRev) }
      (.bytes (headerSet n.toNat b.toNat s.wireRev))) := by
  rw [execHdrInit, needNone_of_none hdin, attempt_bind_ok, need_eq_ok.mpr hn, attempt_bind_ok, need_eq_ok.mpr hb,
    attempt_bind_ok, finish_ok]

theorem execHdrInit_of_unwritten (hdin : s.din = .none) (h : s.chipCount = none ∨ s.frameLen = none) :
    execHdrInit s = .next (s.failed .configNotInitialized) := by
  rw [execHdrInit, needNone_of_none hdin, attempt_bind_ok]
  cases hn : s.chipCount with
  | none => exact finish_need_none rfl _
  | some n =>
    rw [need_some, attempt_bind_ok]
    exact finish_need_none (h.resolve_left (by simp [hn])) _

variable {x : List Byte}

theorem execScan_of_written (hdin : s.din = .bytes x) {hdrs : List Byte} {b : Half} (hhdrs : s.hdrset = some hdrs)
    (hb : s.frameLen = some b) :
    execScan s = .next (s.complete (.frames (scanFrames hdrs b.toNat s.wireRev x))) := by
  rw [execScan, needBytes_eq_ok.mpr hdin, attempt_bind_ok, need_eq_ok.mpr hhdrs, attempt_bind_ok, need_eq_ok.mpr hb,
    attempt_bind_ok, finish_ok]

theorem execScan_of_hdrset_none (hdin : s.din = .bytes x) (h : s.hdrset = none) :
    execScan s = .next (s.failed .configNotInitialized) := by
  rw [execScan, needBytes_eq_ok.mpr hdin, attempt_bind_ok, finish_need_none h]

end

/-- Settles O46: the header set written out is `headerSet`. -/
theorem hdrInitComputesTheHeaderSet : Obligations.HdrInitComputesTheHeaderSet := by
  refine fun s hdin => ⟨?_, execHdrInit_of_unwritten hdin⟩
  rintro n b hs hn hb rfl
  exact execHdrInit_of_written hdin hn hb

/-- Settles O50: SCAN with a header set, and without one. -/
theorem scanRespondsTheFrames : Obligations.ScanRespondsTheFrames :=
  fun _ _ hdin => ⟨fun _ _ => execScan_of_written hdin, execScan_of_hdrset_none hdin⟩

end Sys2Proof.Machine
end

section
/-! PROOF. The hit decoder (44_decoder.md sections 1 and 2): bit ranges as quotients and remainders, the record each
layout makes of a frame, and how DECODE_A and DECODE_B end. -/

namespace Sys2Proof.Machine

/-! ## Bit ranges -/

/-- A bit range as quotient and remainder (00_scope.md R10). -/
theorem bitField_eq_div_mod (v hi lo : Nat) : bitField v hi lo = v / 2 ^ lo % 2 ^ (hi - lo + 1) := by
  rw [bitField, Nat.shiftRight_eq_div_pow]

/-- The bits of a byte from `lo` up. -/
theorem bitField_byte_top (y : Byte) {lo : Nat} (hlo : lo ≤ 7) : bitField y.toNat 7 lo = y.toNat / 2 ^ lo := by
  have hbits : 2 ^ lo * 2 ^ (7 - lo + 1) = 256 := by rw [← Nat.pow_add, (by omega : lo + (7 - lo + 1) = 8)]
  rw [bitField_eq_div_mod, Nat.mod_eq_of_lt]
  exact Nat.div_lt_of_lt_mul (hbits ▸ y.isLt)

/-- The bits of a value from `hi` down. -/
theorem bitField_low (v hi : Nat) : bitField v hi 0 = v % 2 ^ (hi + 1) := rfl

/-- Bits put below a shifted value: the sum. -/
theorem shiftLeft_or_eq_add {a b i : Nat} (h : b < 2 ^ i) : a <<< i ||| b = a * 2 ^ i + b := by
  rw [← Nat.shiftLeft_add_eq_or_of_lt h, Nat.shiftLeft_eq]

/-- One more byte below the bytes read so far. -/
theorem shiftLeft_or_byte (a i : Nat) (y : Byte) : a <<< (i + 8) ||| y.toNat <<< i = (a * 256 + y.toNat) <<< i := by
  rw [Nat.add_comm i, Nat.shiftLeft_add, ← Nat.shiftLeft_or_distrib, shiftLeft_or_eq_add y.isLt]
  rfl

/-- `X` read most significant byte first (44_decoder.md R248). -/
theorem timestampBits_eq (f2 f3 f4 f5 f6 f7 : Byte) : timestampBits f2 f3 f4 f5 f6 f7 =
    ((((f2.toNat % 64 * 256 + f3.toNat) * 256 + f4.toNat) * 256 + f5.toNat) * 256 + f6.toNat) * 256 + f7.toNat := by
  have hmask : f2.toNat &&& 0x3F = f2.toNat % 64 := Nat.and_two_pow_sub_one_eq_mod f2.toNat 6
  rw [timestampBits, hmask, shiftLeft_or_byte _ 32, shiftLeft_or_byte _ 24, shiftLeft_or_byte _ 16,
    shiftLeft_or_byte _ 8]
  exact shiftLeft_or_byte _ 0 f7

/-! ## Layout A -/

theorem decodeFrameA_of_bytes (period seq : Nat) (t : Time) (f0 f1 f2 f3 f4 : Byte) :
    decodeFrameA period [f0, f1, f2, f3, f4] seq t = some
      { readout := seq
        id := f0.toNat / 8
        payload := f0.toNat % 8
        location := f1.toNat % 64
        isColumn := f1.getLsbD 7
        timestamp := f2.toNat
        totMsb := f3.toNat % 16
        totLsb := f4.toNat
        totTotal := f3.toNat % 16 * 256 + f4.toNat
        totUs := ((f3.toNat % 16 * 256 + f4.toNat : Nat) : Rat) * (period : Rat) / 1000
        hittime := t } := by
  simp only [decodeFrameA, bitField_byte_top f0 (lo := 3) (by decide), bitField_low, Nat.shiftLeft_eq]
  rfl

theorem decodeFrameA_of_length_ne {f : List Byte} (h : f.length ≠ 5) (period seq : Nat) (t : Time) :
    decodeFrameA period f seq t = none := by
  unfold decodeFrameA
  split
  · exact absurd rfl h
  · rfl

/-! ## Layout B -/

/-- Layout B's record of eight bytes, each field from the bytes it lies in (44_decoder.md R247 and the "bytes" column of
R248). -/
def layoutBRecord (f0 f1 f2 f3 f4 f5 f6 f7 : Byte) : RecordB :=
  let ts1 := f2.toNat % 32 * 512 + f3.toNat * 2 + f4.toNat / 128
  let tsfine1 := f4.toNat / 16 % 8
  let ts2 := f5.toNat % 64 * 256 + f6.toNat
  let tsfine2 := f7.toNat / 32
  let d1 := grayDec (ts1 * 8 + tsfine1)
  let d2 := grayDec (ts2 * 8 + tsfine2)
  { id := f0.toNat / 8
    payload := f0.toNat % 8
    row := f1.toNat / 8
    col := f1.toNat % 8 * 4 + f2.toNat / 64
    ts1 := ts1
    tsfine1 := tsfine1
    ts2 := ts2
    tsfine2 := tsfine2
    tsneg1 := f2.getLsbD 5
    tsneg2 := f5.getLsbD 6
    tstdc1 := f4.toNat % 16 * 2 + f5.toNat / 128
    tstdc2 := f7.toNat % 32
    tsDec1 := d1
    tsDec2 := d2
    totUs := totUsB params d1 d2 }

/-- The "bytes" column of 44_decoder.md R248: which bits of which bytes each range of `X` is. -/
theorem rangeBits_timestampBits (f2 f3 f4 f5 f6 f7 : Byte) :
    let x := timestampBits f2 f3 f4 f5 f6 f7
    rangeBits layoutB.tsneg1 x = f2.toNat / 2 ^ 5 % 2 ∧
    rangeBits layoutB.ts1 x = f2.toNat % 32 * 512 + f3.toNat * 2 + f4.toNat / 128 ∧
    rangeBits layoutB.tsfine1 x = f4.toNat / 16 % 8 ∧
    rangeBits layoutB.tstdc1 x = f4.toNat % 16 * 2 + f5.toNat / 128 ∧
    rangeBits layoutB.tsneg2 x = f5.toNat / 2 ^ 6 % 2 ∧
    rangeBits layoutB.ts2 x = f5.toNat % 64 * 256 + f6.toNat ∧
    rangeBits layoutB.tsfine2 x = f7.toNat / 32 ∧
    rangeBits layoutB.tstdc2 x = f7.toNat % 32 := by
  simp only [rangeBits, bitField_eq_div_mod, timestampBits_eq, layoutB]
  refine ⟨?_, ?_, ?_, ?_, ?_, ?_, ?_, ?_⟩ <;> bv_omega

theorem decodeFrameB_of_bytes (f0 f1 f2 f3 f4 f5 f6 f7 : Byte) :
    decodeFrameB params [f0, f1, f2, f3, f4, f5, f6, f7] = some (layoutBRecord f0 f1 f2 f3 f4 f5 f6 f7) := by
  obtain ⟨hneg1, hts1, hfine1, htdc1, hneg2, hts2, hfine2, htdc2⟩ := rangeBits_timestampBits f2 f3 f4 f5 f6 f7
  have hlayout : params.layoutB = layoutB := rfl
  have hfine1_lt : f4.toNat / 16 % 8 < 2 ^ 3 := Nat.mod_lt _ (by decide)
  have hfine2_lt : f7.toNat / 32 < 2 ^ 3 := by bv_omega
  have hcol_lt : f2.toNat / 2 ^ 6 < 2 ^ 2 := by bv_omega
  simp only [decodeFrameB, layoutBRecord, hlayout, hneg1, hts1, hfine1, htdc1, hneg2, hts2, hfine2, htdc2,
    bitField_byte_top _ (show 3 ≤ 7 by decide), bitField_byte_top _ (show 6 ≤ 7 by decide), bitField_low,
    shiftLeft_or_eq_add hfine1_lt, shiftLeft_or_eq_add hfine2_lt, shiftLeft_or_eq_add hcol_lt,
    ← BitVec.testBit_toNat, Nat.testBit_eq_decide_div_mod_eq]
  rfl

theorem decodeFrameB_of_length_ne {f : List Byte} (h : f.length ≠ 8) (P : Params) : decodeFrameB P f = none := by
  unfold decodeFrameB
  split
  · exact absurd rfl h
  · rfl

theorem exists_eq_layoutBRecord {f : List Byte} {r : RecordB} (h : decodeFrameB params f = some r) :
    ∃ f0 f1 f2 f3 f4 f5 f6 f7, r = layoutBRecord f0 f1 f2 f3 f4 f5 f6 f7 := by
  have hlen : f.length = 8 := by
    by_contra hne
    rw [decodeFrameB_of_length_ne hne] at h
    cases h
  match f, hlen with
  | [f0, f1, f2, f3, f4, f5, f6, f7], _ =>
    rw [decodeFrameB_of_bytes] at h
    exact ⟨f0, f1, f2, f3, f4, f5, f6, f7, (Option.some.inj h).symm⟩

/-- The difference of two 17-bit counters, wrapped once where it is negative (44_decoder.md R250). -/
theorem totUsB_params_eq_mod {d1 d2 : Nat} (h1 : d1 < 131072) (h2 : d2 < 131072) :
    totUsB params d1 d2 = (((d2 + 131072 - d1) % 131072 : Nat) : Rat) / 20 := by
  have hdiv : ((params.totDiv : Nat) : Rat) = 20 := rfl
  have hwrap : params.totWrap = 131072 := rfl
  rw [totUsB, hdiv, hwrap]
  split_ifs with hle
  · have hmod : (d2 + 131072 - d1) % 131072 = d2 - d1 := by omega
    rw [hmod, Nat.cast_sub hle]
  · have hmod : (d2 + 131072 - d1) % 131072 = 131072 - d1 + d2 := by omega
    rw [hmod, Nat.cast_add, Nat.cast_sub h1.le]

/-- Settles O55: both counters have 17 bits before they are Gray decoded, and `grayDec` keeps the width. -/
theorem layoutBTotIsModular : Obligations.LayoutBTotIsModular := by
  intro f r h
  obtain ⟨f0, f1, f2, f3, f4, f5, f6, f7, rfl⟩ := exists_eq_layoutBRecord h
  have h1 : (layoutBRecord f0 f1 f2 f3 f4 f5 f6 f7).tsDec1 < 2 ^ 17 := grayDec_lt (by bv_omega)
  have h2 : (layoutBRecord f0 f1 f2 f3 f4 f5 f6 f7).tsDec2 < 2 ^ 17 := grayDec_lt (by bv_omega)
  exact ⟨h1, h2, totUsB_params_eq_mod h1 h2⟩

/-! ## DECODE_A and DECODE_B -/

section
variable {s : State} {f : List Byte} {seq : Nat} {t : Time}

theorem needBytesStamp_of_din (h : s.din = .bytesStamp f seq t) : needBytesStamp s = .ok (f, seq, t) :=
  needBytesStamp_eq_ok.mpr h

theorem execDecodeA_of_unwritten (hdin : s.din = .bytesStamp f seq t) (h : s.samplePeriod = none) :
    execDecodeA s = .next (s.failed .configNotInitialized) := by
  rw [execDecodeA, needBytesStamp_of_din hdin, attempt_bind_ok]
  exact finish_need_none h _

theorem execDecodeA_of_written (hdin : s.din = .bytesStamp f seq t) {period : Half} (h : s.samplePeriod = some period) :
    execDecodeA s = .next (s.complete (recordOrSkip ((decodeFrameA period.toNat f seq t).map .layoutA))) := by
  rw [execDecodeA, needBytesStamp_of_din hdin, attempt_bind_ok]
  dsimp only
  rw [need_eq_ok.mpr h, attempt_bind_ok, finish_ok]

theorem execDecodeB_of_bytes (hdin : s.din = .bytes f) :
    execDecodeB s = .next (s.complete (recordOrSkip ((decodeFrameB params f).map .layoutB))) := by
  rw [execDecodeB, needBytes_eq_ok.mpr hdin, attempt_bind_ok, finish_ok]

end

/-- Settles O53: DECODE_A with a sample period, on five bytes and on another length, and with none. -/
theorem decodeARespondsTheRecord : Obligations.DecodeARespondsTheRecord := by
  intro s f seq t hdin
  refine ⟨execDecodeA_of_unwritten hdin, fun period hperiod => ?_⟩
  have hexec : exec .decodeA s = _ := execDecodeA_of_written hdin hperiod
  rw [hexec]
  refine ⟨fun hlen => ?_, ?_⟩
  · rw [decodeFrameA_of_length_ne hlen]
    rfl
  · rintro f0 f1 f2 f3 f4 rfl
    rw [decodeFrameA_of_bytes]
    rfl

/-- Settles O54: DECODE_B on eight bytes and on another length. -/
theorem decodeBRespondsTheRecord : Obligations.DecodeBRespondsTheRecord := by
  intro s f hdin
  have hexec : exec .decodeB s = _ := execDecodeB_of_bytes hdin
  rw [hexec]
  refine ⟨fun hlen => ?_, ?_⟩
  · rw [decodeFrameB_of_length_ne hlen]
    rfl
  · rintro f0 f1 f2 f3 f4 f5 f6 f7 rfl
    rw [decodeFrameB_of_bytes]
    rfl

end Sys2Proof.Machine
end

section
/-! PROOF. Acquisition (44_decoder.md R254 to R256): what it needs, how it ends for a readout that passes the pre-filter
and for one that does not, and how ACQUIRE and ACQUIRE_RX come to it. -/

namespace Sys2Proof.Machine

section
variable {s : State} {hdrs x y : List Byte} {b period seq : Nat} {t : Time}

/-! ## The registers acquisition reads -/

theorem needAcquisition_of_unwritten (h : s.hdrset = none ∨ (s.frameLen = some 5#16 ∧ s.samplePeriod = none)) :
    needAcquisition s = .error uninit := by
  rcases h with hhdr | ⟨hlen, hperiod⟩
  · rw [needAcquisition, hhdr, need_none, attempt_bind_error]
  · rw [needAcquisition, hlen, hperiod]
    cases s.hdrset <;> rfl

/-! ## The readout -/

theorem finish_acquireFrom_of_rejected (h : filtered params s.prefilterEn x = none) :
    finish s (acquireFrom s hdrs b period x seq t) =
      .next { s with cause := .decodeFault, resp := .nothing, faultCnt := faultCntSucc s.faultCnt } := by
  rw [acquireFrom, h]
  exact congrArg Host.Outcome.next (takeError_decodeFault s)

theorem finish_acquireFrom_of_filtered (h : filtered params s.prefilterEn x = some y) :
    finish s (acquireFrom s hdrs b period x seq t) = .next
      (State.complete { s with faultCnt := 0x0000#16 }
        (.records (hitsOf params hdrs b period s.wireRev seq t y))) := by
  rw [acquireFrom, h]
  rfl

/-- Acquisition reads CTRL and, to count a fault, FAULTCNT; it keeps DIN and the transport's
answers as it finds them. -/
theorem finish_acquireFrom_din_readAnswers (din : Din) (answers : List ReadAnswer) :
    ∃ u, finish { s with din := din } (acquireFrom { s with din := din } hdrs b period x seq t) = .next u ∧
      finish { s with readAnswers := answers } (acquireFrom { s with readAnswers := answers } hdrs b period x seq t) =
        .next { u with din := s.din, readAnswers := answers } := by
  cases h : filtered params s.prefilterEn x with
  | none => exact ⟨_, finish_acquireFrom_of_rejected h, finish_acquireFrom_of_rejected h⟩
  | some y => exact ⟨_, finish_acquireFrom_of_filtered h, finish_acquireFrom_of_filtered h⟩

/-- The layout FRAME_LEN selects (44_decoder.md R254), with the sample period where it is Layout A. -/
theorem decodeHit_of_frameLen {b period : Half} {stored : Option Half} (h : b = 5#16 → stored = some period) :
    decodeHit params b.toNat (if b = 5#16 then (stored.getD 0).toNat else 0) seq t = fun fr =>
      if b = 5#16 then (decodeFrameA period.toNat fr seq t).map .layoutA
      else (decodeFrameB params fr).map .layoutB := by
  funext fr
  have hfive : b.toNat = 5 ↔ b = 5#16 := BitVec.toNat_inj (y := 5#16)
  rw [decodeHit]
  by_cases hb : b = 5#16
  · rw [if_pos (hfive.mpr hb), if_pos hb, if_pos hb, h hb, Option.getD_some]
  · rw [if_neg (hfive.not.mpr hb), if_neg hb]

/-! ## ACQUIRE -/

theorem execAcquire_of_unwritten (hdin : s.din = .bytesStamp x seq t) (h : needAcquisition s = .error uninit) :
    execAcquire s = .next (s.failed .configNotInitialized) := by
  rw [execAcquire, needBytesStamp_of_din hdin, attempt_bind_ok]
  dsimp only
  rw [h, attempt_bind_error, finish_error, takeError_plain s (by decide)]

theorem execAcquire_of_written (hdin : s.din = .bytesStamp x seq t) (h : needAcquisition s = .ok (hdrs, b, period)) :
    execAcquire s = finish s (acquireFrom s hdrs b period x seq t) := by
  rw [execAcquire, needBytesStamp_of_din hdin, attempt_bind_ok]
  dsimp only
  rw [h, attempt_bind_ok]

/-! ## ACQUIRE_RX -/

theorem needStamp_of_din (h : s.din = .stamp seq t) : needStamp s = .ok (seq, t) := needStamp_eq_ok.mpr h

theorem execAcquireRx_of_unwritten (n : BitVec 16) (hdin : s.din = .stamp seq t)
    (h : needAcquisition s = .error uninit) : execAcquireRx n s = .next (s.failed .configNotInitialized) := by
  rw [execAcquireRx, planAcquireRx, needStamp_of_din hdin, attempt_bind_ok, h, attempt_bind_error]
  exact congrArg Host.Outcome.next (takeError_plain s (by decide))

theorem planAcquireRx_of_written (hdin : s.din = .stamp seq t) (h : needAcquisition s = .ok (hdrs, b, period)) :
    planAcquireRx s = .ok ((seq, t), hdrs, b, period) := by
  rw [planAcquireRx, needStamp_of_din hdin, attempt_bind_ok, h, attempt_bind_ok]

variable {rest : List ReadAnswer}

/-- ACQUIRE_RX of a scheduled answer: at most `n` bytes of it are acquired (log entry 6). -/
theorem execAcquireRx_of_bytes (n : BitVec 16) (hdin : s.din = .stamp seq t)
    (h : needAcquisition s = .ok (hdrs, b, period)) (hread : s.readAnswers = .bytes x :: rest) :
    execAcquireRx n s = finish { s with readAnswers := rest }
      (acquireFrom { s with readAnswers := rest } hdrs b period (x.take n.toNat) seq t) := by
  rw [execAcquireRx, planAcquireRx_of_written hdin h]
  dsimp only
  rw [State.drawRead, hread]

theorem execAcquireRx_of_fail (n : BitVec 16) (hdin : s.din = .stamp seq t)
    (h : needAcquisition s = .ok (hdrs, b, period)) (hread : s.readAnswers = .fail :: rest) :
    execAcquireRx n s = .next (State.failed { s with readAnswers := rest } .transportError) := by
  rw [execAcquireRx, planAcquireRx_of_written hdin h]
  dsimp only
  rw [State.drawRead, hread]
  exact congrArg Host.Outcome.next (takeError_plain _ (by decide))

end

/-- Settles O56: with its registers ACQUIRE acquires its readout, which the pre-filter passes or rejects. -/
theorem acquireRespondsTheRecords : Obligations.AcquireRespondsTheRecords := by
  intro s x seq t hdin
  refine ⟨fun h => execAcquire_of_unwritten hdin (needAcquisition_of_unwritten h), ?_⟩
  intro hs b period hhdr hlen hperiod
  have hregs := needAcquisition_ok hhdr hlen fun hb => by rw [hperiod hb]; exact Option.some_ne_none _
  have hexec : exec .acquire s = _ := execAcquire_of_written hdin hregs
  have hfilter : (if s.ctrl.getLsbD 2 then prefilter params x else some x) = filtered params s.prefilterEn x := rfl
  rw [hexec, hfilter]
  cases hy : filtered params s.prefilterEn x with
  | none => exact finish_acquireFrom_of_rejected hy
  | some y =>
    rw [finish_acquireFrom_of_filtered hy, hitsOf, decodeHit_of_frameLen hperiod]
    rfl

/-- Settles O57: both commands come to the same acquisition, from states that differ in DIN and the answers left. -/
theorem acquireRxAcquiresWhatIsRead : Obligations.AcquireRxAcquiresWhatIsRead := by
  intro s n seq t hdin
  refine ⟨fun h => execAcquireRx_of_unwritten n hdin (needAcquisition_of_unwritten h), ?_⟩
  intro hs b rest hhdr hlen hperiod
  have hregs := needAcquisition_ok hhdr hlen hperiod
  refine ⟨fun x hread => ?_, execAcquireRx_of_fail n hdin hregs⟩
  have hacq : exec .acquire { s with din := .bytesStamp (x.take n.toNat) seq t } = _ := execAcquire_of_written rfl hregs
  have hrx : exec (.acquireRx n) s = _ := execAcquireRx_of_bytes n hdin hregs hread
  rw [hacq, hrx]
  exact finish_acquireFrom_din_readAnswers _ rest

end Sys2Proof.Machine
end

section
/-! PROOF. What stops the core (60_exceptions.md R280, R297; 70_reset_and_hazards.md R325): a transport call that never
returns, and nothing else. -/

namespace Sys2Proof.Machine

/-! ## A transport call that never returns -/

theorem transmit_of_never {s : State} {frames : List (List Byte)} {rest : List WriteAnswer} {j : Nat}
    (hj : j < frames.length) (h : s.writeAnswers = List.replicate j .ok ++ .never :: rest) :
    transmit frames s = .fault .transportNeverReturns := by
  have htake : (frames.take j).length = j := List.length_take_of_le hj.le
  have hsent : sendFrames frames s = .never := by
    have hrun := sendFrames_ok_run (frames.take j) (frames.drop j) s (.never :: rest) (by rw [htake, h])
    rw [List.take_append_drop, List.drop_eq_getElem_cons hj] at hrun
    rw [hrun, sendFrames, drawWrite_scheduled rfl]
  rw [transmit, hsent]

theorem execAcquireRx_of_never {s : State} {hdrs : List Byte} {b period seq : Nat} {t : Time} {rest : List ReadAnswer}
    (n : BitVec 16) (hdin : s.din = .stamp seq t) (h : needAcquisition s = .ok (hdrs, b, period))
    (hread : s.readAnswers = .never :: rest) : execAcquireRx n s = .fault .transportNeverReturns := by
  rw [execAcquireRx, planAcquireRx_of_written hdin h]
  dsimp only
  rw [State.drawRead, hread]

/-- Settles O42: a framed write hangs at the frame whose answer never comes, ACQUIRE_RX at its one read. -/
theorem hangingTransportNeverCompletes : Obligations.HangingTransportNeverCompletes :=
  ⟨fun _ _ _ _ _ _ _ hplan hj hanswers => (exec_of_planned hplan).trans (transmit_of_never hj hanswers),
    fun _ n _ _ _ _ _ hdin hhdr hlen hperiod hread =>
      execAcquireRx_of_never n hdin (needAcquisition_ok hhdr hlen hperiod) hread⟩

/-! ## Nothing else stops the core -/

/-- A run from `s` that goes on to a next state, or hangs in a transport call that `s` schedules never to return. -/
inductive GoesOnOrHangs (s : State) : Host.Outcome State Fault Refusal → Prop
  | next (t) : GoesOnOrHangs s (.next t)
  | hangs (h : WriteAnswer.never ∈ s.writeAnswers ∨ ReadAnswer.never ∈ s.readAnswers) :
      GoesOnOrHangs s (.fault .transportNeverReturns)

section
variable {s u : State} {o : Host.Outcome State Fault Refusal}

theorem GoesOnOrHangs.ne_refused (h : GoesOnOrHangs s o) (r : Refusal) : o ≠ .refused r := by
  cases h <;> exact nofun

theorem GoesOnOrHangs.never_of_fault {f : Fault} (h : GoesOnOrHangs s o) (hf : o = .fault f) :
    WriteAnswer.never ∈ s.writeAnswers ∨ ReadAnswer.never ∈ s.readAnswers := by
  cases h with
  | next => cases hf
  | hangs hnever => exact hnever

/-- Only the answers scheduled in the state matter. -/
theorem GoesOnOrHangs.of_answers_eq (h : GoesOnOrHangs u o) (hwrite : u.writeAnswers = s.writeAnswers)
    (hread : u.readAnswers = s.readAnswers) : GoesOnOrHangs s o := by
  cases h with
  | next t => exact .next t
  | hangs hnever => exact .hangs (hwrite ▸ hread ▸ hnever)

theorem finish_goesOn (s u : State) (a : Attempt (State × Response)) : GoesOnOrHangs s (finish u a) := by
  obtain ⟨t, ht⟩ := finish_next u a
  exact ht ▸ .next t

theorem transmit_goesOnOrHangs (frames : List (List Byte)) (s : State) : GoesOnOrHangs s (transmit frames s) := by
  rcases transmit_cases frames s with ⟨_, _, h⟩ | ⟨_, _, _, _, h⟩ | ⟨h, hnever⟩ <;> rw [h]
  · exact .next _
  · exact .next _
  · exact .hangs (.inl hnever)

theorem framedWrite_goesOnOrHangs (extra : Nat → Nat) (frames : Nat → Byte → Byte → List Bit → List (List Byte))
    (src : Bool) (s : State) : GoesOnOrHangs s (framedWrite extra frames src s) := by
  unfold framedWrite
  dsimp only
  split
  · exact .next _
  · exact transmit_goesOnOrHangs _ s

theorem execAcquireRx_goesOnOrHangs (n : BitVec 16) (s : State) : GoesOnOrHangs s (execAcquireRx n s) := by
  obtain ⟨-, hnever, -⟩ := drawRead_frame s n.toNat
  unfold execAcquireRx
  split
  · exact .next _
  · split
    · exact finish_goesOn s _ _
    · exact .next _
    · next hdraw => exact .hangs (.inr (hnever (congrArg Prod.fst hdraw)))

end

/-- A command that calls no transport ends in `finish`; the three that call it hang only where it does. -/
theorem exec_goesOnOrHangs (i : Instr) (s : State) : GoesOnOrHangs s (exec i s) := by
  cases i with
  | srWrite src load => exact exec_srWrite_eq_framedWrite src load s ▸ framedWrite_goesOnOrHangs ..
  | srRbWrite src => exact exec_srRbWrite_eq_framedWrite src s ▸ framedWrite_goesOnOrHangs ..
  | acquireRx n => exact execAcquireRx_goesOnOrHangs n s
  | nop | reset | cfgLoad | fieldWr | fieldRd | cregWr | cregRd | buildVec | buildRow | bitrev | grayDec | srPattern
  | srRbPattern | addrFrame | hdrInit | prefilter | scan | decodeA | decodeB | acquire => exact finish_goesOn s s _

/-- Taking a command does not touch the transport's answers. -/
theorem step_goesOnOrHangs (s : State) : GoesOnOrHangs s (step s) := by
  cases hhost : s.host with
  | nil =>
    have hidle : step s = .next s := by simp only [step, fetch, hhost]
    exact hidle ▸ .next s
  | cons c rest =>
    simp only [step, fetch_of_host_cons hhost]
    cases decode c.word with
    | error => exact .next _
    | ok i => exact (exec_goesOnOrHangs i { s with host := rest, din := c.din }).of_answers_eq rfl rfl

/-- Settles O8: every step goes on or hangs. -/
theorem onlyAHangingTransportStopsTheCore : Obligations.OnlyAHangingTransportStopsTheCore :=
  fun s => ⟨(step_goesOnOrHangs s).ne_refused, fun _ => (step_goesOnOrHangs s).never_of_fault⟩

end Sys2Proof.Machine
end

section
/-! PROOF. Errors (60_exceptions.md R282, R284, R286): the causes a command may end with, and what an error leaves
unchanged, locates and keeps of the frames sent. -/

namespace Sys2Proof.Machine

/-! ## The table of causes -/

theorem none_mem_mayEndWith (i : Instr) : .none ∈ mayEndWith i := by cases i <;> simp [mayEndWith]

/-- Settles O11, from the two ways a command ends. -/
theorem causesFollowTheTable : Obligations.CausesFollowTheTable := by
  intro i s t h
  cases exec_ends h with
  | completes => exact none_mem_mayEndWith i
  | raises e _ hraises => exact hraises.mem_mayEndWith

section
variable {i : Instr} {s t u : State}

/-! ## What the transport calls leave unchanged -/

theorem Calls.buffers_eq (h : Calls i s u) : u.cfg = s.cfg ∧ u.vec = s.vec ∧ u.hdrset = s.hdrset := by
  cases h <;> exact ⟨rfl, rfl, rfl⟩

theorem Calls.registers_eq (h : Calls i s u) :
    u.ctrl = s.ctrl ∧ u.clkdiv = s.clkdiv ∧ u.chipCount = s.chipCount ∧ u.frameLen = s.frameLen ∧
      u.samplePeriod = s.samplePeriod ∧ u.frameOpc = s.frameOpc ∧ u.srAddr = s.srAddr := by
  cases h <;> exact ⟨rfl, rfl, rfl, rfl, rfl, rfl, rfl⟩

theorem Calls.errloc_eq (h : Calls i s u) : u.errlocCg = s.errlocCg ∧ u.errlocF = s.errlocF := by
  cases h <;> exact ⟨rfl, rfl⟩

theorem Calls.writesFrames_of_txlog_ne (h : Calls i s u) (hne : u.txlog ≠ s.txlog) : WritesFrames i := by
  cases h with
  | srWrite => exact .inl ⟨_, _, rfl⟩
  | srRbWrite => exact .inr ⟨_, rfl⟩
  | none | acquireRx => exact absurd rfl hne

/-- A command that ends with an error took it after its transport calls. -/
theorem exec_raises (h : exec i s = .next t) (hcause : t.cause ≠ .none) :
    ∃ u e, Calls i s u ∧ Raises i s e ∧ t = u.takeError e := by
  cases exec_ends h with
  | completes => exact absurd rfl hcause
  | @raises u e hcalls hraises => exact ⟨u, e, hcalls, hraises, rfl⟩

/-! ## The error location -/

theorem ErrorAt.cause_eq {c : Cause} {a : FieldAddr} (h : ErrorAt i s c a) : c = .configError ∨ c = .outOfRange := by
  obtain ⟨_, -, ⟨hc, -⟩ | ⟨hc, -⟩⟩ := h
  · exact .inl hc
  · exact .inr hc

/-- BUILD_ROW locates a ConfigError only where the chain lacks the group, so not where ROW_TRIM_OK is false. -/
theorem ErrorAt.groupAt_eq_none {c : BitVec 5} {g : BitVec 3} {a : FieldAddr} {cfg : Chain}
    (h : ErrorAt (.buildRow c g) s .configError a) (hcfg : s.cfg = some cfg) :
    groupAt params cfg c.toNat g.toNat = none := by
  obtain ⟨cfg', hcfg', ⟨-, ⟨_, _, _, hi | hi, -⟩ | ⟨_, _, hi, -, hnone⟩⟩ | ⟨hc, -⟩⟩ := h
  · cases hi
  · cases hi
  · cases hi
    cases hcfg.symm.trans hcfg'
    exact hnone
  · cases hc

/-- Where R286 has the error of a command located, the command takes it with a triple, and the triple is one R286
gives. -/
theorem exec_takesErrorAt {a : FieldAddr} (h : exec i s = .next t) (ha : ErrorAt i s t.cause a) :
    ∃ a', ErrorAt i s t.cause a' ∧ t = s.takeError ⟨t.cause, some a'⟩ := by
  have hcause := ha.cause_eq
  rcases ha.command with rfl | ⟨c, g, rfl⟩ | ⟨c, g, f, rfl | rfl⟩
  · rcases execBuildVec_cases h with ⟨_, _, -, -, rfl⟩ | rfl | rfl | ⟨cfg, a', hcfg, hmisfit, rfl⟩
    case inr.inr.inr => exact ⟨a', ⟨cfg, hcfg, .inr ⟨rfl, .inl rfl, hmisfit⟩⟩, rfl⟩
    all_goals exact hcause.elim nofun nofun
  · rcases execBuildRow_cases h with ⟨_, _, _, _, -, -, -, rfl⟩ | rfl | rfl | ⟨cfg, hcfg, hrow⟩
    case inr.inr.inr =>
      rcases hrow with ⟨⟨p, hp⟩, rfl⟩ | ⟨hnone, rfl⟩ | ⟨f, hmisfit, rfl⟩
      · exact nomatch hp.symm.trans (ha.groupAt_eq_none hcfg)
      · exact ⟨_, ⟨cfg, hcfg, .inl ⟨rfl, .inr ⟨c, g, rfl, rfl, hnone⟩⟩⟩, rfl⟩
      · exact ⟨_, ⟨cfg, hcfg, .inr ⟨rfl, .inr ⟨c, g, rfl, rfl, rfl⟩, hmisfit⟩⟩, rfl⟩
    all_goals exact hcause.elim nofun nofun
  · rcases execFieldWr_cases h with ⟨_, _, _, -, -, -, rfl⟩ | rfl | rfl | ⟨cfg, hcfg, hnone, rfl⟩
    case inr.inr.inr => exact ⟨_, ⟨cfg, hcfg, .inl ⟨rfl, .inl ⟨c, g, f, .inl rfl, rfl, hnone⟩⟩⟩, rfl⟩
    all_goals exact hcause.elim nofun nofun
  · rcases execFieldRd_cases h with ⟨_, rfl⟩ | rfl | rfl | ⟨cfg, hcfg, hnone, rfl⟩
    case inr.inr.inr => exact ⟨_, ⟨cfg, hcfg, .inl ⟨rfl, .inl ⟨c, g, f, .inr rfl, rfl, hnone⟩⟩⟩, rfl⟩
    all_goals exact hcause.elim nofun nofun

/-- Where R286 locates no error, ERRLOC_CG and ERRLOC_F stay. -/
theorem Raises.errloc_eq {e : Raise} (h : Raises i s e) (hnone : ¬ ∃ a, ErrorAt i s e.cause a) :
    (u.takeError e).errlocCg = u.errlocCg ∧ (u.takeError e).errlocF = u.errlocF := by
  obtain ⟨c, _ | a⟩ := e
  · exact ⟨rfl, rfl⟩
  · exact absurd ⟨a, h.located a rfl⟩ hnone

/-! ## The frames sent -/

/-- A framed write that ends with an error and moved TXLOG: the transport failed after some of the frames. -/
theorem framesSent_of_writeEnds {p : List (List Byte) → Prop}
    (h : (∃ frames, p frames ∧ WriteEnds s t frames) ∨
      t = s.takeError illegal ∨ t = s.takeError uninit ∨ t = s.takeError ⟨.outOfRange, none⟩)
    (hcause : t.cause ≠ .none) (hne : t.txlog ≠ s.txlog) :
    t.cause = .transportError ∧ ∃ frames j, p frames ∧ j < frames.length ∧ t.txlog = s.txlog ++ frames.take j := by
  rcases h with ⟨frames, hp, ⟨_, _, rfl⟩ | ⟨j, _, _, hj, rfl⟩⟩ | rfl | rfl | rfl
  · exact absurd rfl hcause
  · exact ⟨rfl, frames, j, hp, hj, rfl⟩
  all_goals exact absurd rfl hne

theorem exec_framesSent (h : exec i s = .next t) (hi : WritesFrames i) (hcause : t.cause ≠ .none)
    (hne : t.txlog ≠ s.txlog) : t.cause = .transportError ∧ ∃ src load frames j,
      ((i = .srWrite src load ∧ planWrite src load s = .ok frames) ∨
        (i = .srRbWrite src ∧ planRbWrite src s = .ok frames)) ∧
      j < frames.length ∧ t.txlog = s.txlog ++ frames.take j := by
  rcases hi with ⟨src, load, rfl⟩ | ⟨src, rfl⟩
  · obtain ⟨hc, frames, j, hplan, hsent⟩ := framesSent_of_writeEnds (execSrWrite_cases h) hcause hne
    exact ⟨hc, src, load, frames, j, .inl ⟨rfl, hplan⟩, hsent⟩
  · obtain ⟨hc, frames, j, hplan, hsent⟩ := framesSent_of_writeEnds (execSrRbWrite_cases h) hcause hne
    exact ⟨hc, src, false, frames, j, .inr ⟨rfl, hplan⟩, hsent⟩

end

/-- Settles O9: the error is taken after the transport calls, and each of the two touches only its own elements. -/
theorem errorsArePrecise : Obligations.ErrorsArePrecise := by
  intro i s t h hcause
  obtain ⟨u, e, hcalls, hraises, rfl⟩ := exec_raises h hcause
  refine ⟨hcalls.buffers_eq, hcalls.registers_eq, ?_, fun ⟨a, ha⟩ => ?_, fun hnone => ?_, fun hne => ?_, rfl⟩
  · rw [State.takeError_faultCnt, State.takeError_cause, hcalls.faultCnt_eq]
  · obtain ⟨a', ha', htaken⟩ := exec_takesErrorAt h ha
    refine ⟨a', ha', ?_, congrArg State.errlocF htaken⟩
    rw [← errlocCgOf_eq]
    exact congrArg State.errlocCg htaken
  · obtain ⟨hcg, hf⟩ := hraises.errloc_eq (u := u) hnone
    exact ⟨hcg.trans hcalls.errloc_eq.1, hf.trans hcalls.errloc_eq.2⟩
  · exact exec_framesSent h (hcalls.writesFrames_of_txlog_ne hne) hcause hne

end Sys2Proof.Machine
end

section
/-! PROOF. Power-on and RESET (70_reset_and_hazards.md R310, R311): the power-on state is one that RESET's state writes
leave as it is, and RESET keeps TXLOG. -/

namespace Sys2Proof.Machine

/-- The state writes of RESET find nothing to change at power-on. -/
theorem State.resetCore_reset : State.reset.resetCore = State.reset := rfl

/-- RESET keeps TXLOG, whether it completes or its operand is refused. -/
theorem execReset_txlog {s t : State} (h : execReset s = .next t) : t.txlog = s.txlog := by
  rcases execReset_cases h with rfl | rfl
  · rw [State.complete_txlog, State.resetCore_txlog]
  · rw [State.takeError_txlog]

/-- Settles O15: the power-on state is what RESET's writes leave, and these establish both invariants from any state. -/
theorem powerOnMeetsTheInvariants : Obligations.PowerOnMeetsTheInvariants := by
  unfold Obligations.PowerOnMeetsTheInvariants
  rw [← State.resetCore_reset]
  exact ⟨.resetCore _, .resetCore _⟩

/-- Settles O16: the values are those `State.reset` is defined with and their views; TXLOG is `execReset_txlog`. -/
theorem powerOnValues : Obligations.PowerOnValues := by
  refine ⟨rfl, rfl, rfl, rfl, ?msbFirst, ?wireRev, ?prefilterEn, rfl, rfl, rfl, rfl, rfl, rfl, ?status, rfl, rfl, rfl,
    rfl, fun _ _ => execReset_txlog⟩
  case msbFirst | wireRev | prefilterEn => exact BitVec.getLsbD_zero
  case status => rfl

end Sys2Proof.Machine
end
